-- ==== Sys2Proof/Word.lean ====
section
/-! DEFINITION. The words that cross the interface of apint CORE and the machine word inside it. -/

namespace Sys2Proof

/-- A command word `cw` or a data word `cdata` (30_encoding.md R90, R93): 64 bits. -/
abbrev Word64 := BitVec 64

/-- The immediate field of a command word (30_encoding.md R97): 32 unsigned bits, used as is. -/
abbrev Imm := BitVec 32

/-- A Digit (40_digit.md R130): "an unsigned integer `0 <= d < BASE`". Its width `D` is a parameter of the
hardware, so the bound stands in the invariants, not in the type. -/
abbrev Digit := Nat

/-- The number of a value register (10_state.md R21): 0 to 15, every value names a register. -/
abbrev RegNo := Fin 16

end Sys2Proof
end

