-- ==== Sys2Proof/Config.lean ====
section
/-! DEFINITION. What one implementation fixes (00_scope.md R5 to R8): the size of a Digit and the largest
BitWidth. Nothing in this spec is a free value, so there is no opaque constant here. -/

namespace Sys2Proof

/-- `DIGIT_BITS`, 00_scope.md R5: "Legal values are 8, 16, 32 and 64". -/
inductive DigitBits where
  | d8 | d16 | d32 | d64
  deriving DecidableEq, Repr

/-- The number of bits `D` in a Digit. -/
def DigitBits.bits : DigitBits → Nat
  | .d8 => 8
  | .d16 => 16
  | .d32 => 32
  | .d64 => 64

/-- `Cfg = (DIGIT_BITS, MAX_WIDTH)`, the two free parameters (00_scope.md section 3). -/
structure Cfg where
  digitBits : DigitBits
  maxWidth : Nat
  deriving DecidableEq, Repr

/-- `128 <= MAX_WIDTH <= 2^32 - 1` (00_scope.md R6). -/
abbrev Cfg.WF (c : Cfg) : Prop := 128 ≤ c.maxWidth ∧ c.maxWidth ≤ 2 ^ 32 - 1

/-- The default configuration (00_scope.md R5, R6): 64-bit Digits, BitWidths up to 4096.
DESIGN CHOICE (log entry 1): the configuration `State.reset` carries; unsafe for a claim about the reset state of a
block of another configuration. -/
def Cfg.default : Cfg := { digitBits := .d64, maxWidth := 4096 }

/-- `NREG`, 00_scope.md R7. -/
def nreg : Nat := 16

end Sys2Proof
end

