-- ==== Sys2Proof/Syntax.lean ====
section
/-! DEFINITION. The 42 commands of command set APC-1 (30_encoding.md R98), one constructor per row of
spec/opcode_table.json, in the table's order. A command is the pair `(cw, cdata)` (R90), so the two commands
that use `cdata` (R95) carry it as their last operand. -/

namespace Sys2Proof

/-- The `sgn` bit (30_encoding.md R94): the interpretation a command asks for. -/
inductive Signedness where
  | unsigned | signed
  deriving DecidableEq, Repr

/-- The primitive width code `pw` (30_encoding.md R94): 8, 16, 32 or 64 bits. -/
inductive PrimWidth where
  | p8 | p16 | p32 | p64
  deriving DecidableEq, Repr

/-- A command, decoded. -/
inductive Instr where
  | rdsr (imm : Imm)
  | clrerr
  | xclr
  | xpush (v : Word64)
  | xread (imm : Imm)
  | fromprim (rd : RegNo) (sgn : Signedness) (pw : PrimWidth) (imm : Imm) (v : Word64)
  | toprim (rs1 : RegNo) (sgn : Signedness) (pw : PrimWidth)
  | fromwords (rd : RegNo) (imm : Imm)
  | towords (rs1 : RegNo)
  | getw (rs1 : RegNo)
  | copy (rd rs1 : RegNo)
  | drop (rd : RegNo)
  | trunc (rd rs1 : RegNo) (imm : Imm)
  | zext (rd rs1 : RegNo) (imm : Imm)
  | sext (rd rs1 : RegNo) (imm : Imm)
  | add (rd rs1 rs2 : RegNo)
  | addco (rd rs1 rs2 : RegNo)
  | sub (rd rs1 rs2 : RegNo)
  | subbo (rd rs1 rs2 : RegNo)
  | neg (rd rs1 : RegNo)
  | umag (rd rs1 : RegNo)
  | mul (rd rs1 rs2 : RegNo)
  | udiv (rd rs1 rs2 : RegNo)
  | urem (rd rs1 rs2 : RegNo)
  | sdiv (rd rs1 rs2 : RegNo)
  | srem (rd rs1 rs2 : RegNo)
  | and (rd rs1 rs2 : RegNo)
  | or (rd rs1 rs2 : RegNo)
  | xor (rd rs1 rs2 : RegNo)
  | not (rd rs1 : RegNo)
  | shl (rd rs1 : RegNo) (imm : Imm)
  | lshr (rd rs1 : RegNo) (imm : Imm)
  | ashr (rd rs1 : RegNo) (imm : Imm)
  | rol (rd rs1 : RegNo) (imm : Imm)
  | ror (rd rs1 : RegNo) (imm : Imm)
  | ucmp (rs1 rs2 : RegNo)
  | scmp (rs1 rs2 : RegNo)
  | iszero (rs1 : RegNo)
  | isones (rs1 : RegNo)
  | sign (rs1 : RegNo)
  | parse (rd : RegNo) (sgn : Signedness) (radix : BitVec 8) (imm : Imm)
  | format (rs1 : RegNo) (sgn : Signedness) (radix : BitVec 8)
  deriving DecidableEq, Repr

end Sys2Proof
end

