-- ==== Sys2Proof/WellFormed.lean ====
section
/-! DEFINITION. Which terms of `Instr` some command word spells. Every field is already bounded by its type
(30_encoding.md R97: "every register field value names a register"), so the one check left is the decode-stage
constraint of RDSR (30_encoding.md R100 stage 1: "for RDSR, check `imm <= 8`"). -/

namespace Sys2Proof

/-- Well-formed: the decoder may answer this term. One arm per constructor. -/
def Instr.wellFormed : Instr → Bool
  | .rdsr imm => decide (imm.toNat ≤ 8)
  | .clrerr => true
  | .xclr => true
  | .xpush _ => true
  | .xread _ => true
  | .fromprim _ _ _ _ _ => true
  | .toprim _ _ _ => true
  | .fromwords _ _ => true
  | .towords _ => true
  | .getw _ => true
  | .copy _ _ => true
  | .drop _ => true
  | .trunc _ _ _ => true
  | .zext _ _ _ => true
  | .sext _ _ _ => true
  | .add _ _ _ => true
  | .addco _ _ _ => true
  | .sub _ _ _ => true
  | .subbo _ _ _ => true
  | .neg _ _ => true
  | .umag _ _ => true
  | .mul _ _ _ => true
  | .udiv _ _ _ => true
  | .urem _ _ _ => true
  | .sdiv _ _ _ => true
  | .srem _ _ _ => true
  | .and _ _ _ => true
  | .or _ _ _ => true
  | .xor _ _ _ => true
  | .not _ _ => true
  | .shl _ _ _ => true
  | .lshr _ _ _ => true
  | .ashr _ _ _ => true
  | .rol _ _ _ => true
  | .ror _ _ _ => true
  | .ucmp _ _ => true
  | .scmp _ _ => true
  | .iszero _ => true
  | .isones _ => true
  | .sign _ => true
  | .parse _ _ _ _ => true
  | .format _ _ _ => true

end Sys2Proof
end

