-- ==== Sys2Proof/Decode.lean ====
section
/-! DEFINITION. The decoder (30_encoding.md R94, R97 to R101), total on all 2^128 inputs and rejecting by name,
and after it the encoder, both written from R94's bit positions and R98's opcode map. -/

namespace Sys2Proof

/-! ### Fields of the command word (R94) -/

/-- All fields of a command, as R94 places them; the formats of R98 say which ones a command uses. -/
structure Fields where
  rd : RegNo := 0
  rs1 : RegNo := 0
  rs2 : RegNo := 0
  sgn : Signedness := .unsigned
  pw : PrimWidth := .p8
  radix : BitVec 8 := 0
  imm : Imm := 0
  cdata : Word64 := 0
  deriving DecidableEq, Repr

/-- `sgn = cw[20]`: 0 unsigned, 1 signed (R94). -/
def Signedness.ofBit (b : BitVec 1) : Signedness := if b = 1#1 then .signed else .unsigned

/-- The `sgn` bit. -/
def Signedness.toBit : Signedness → BitVec 1
  | .unsigned => 0#1
  | .signed => 1#1

/-- `pw`: 0 = 8 bits, 1 = 16, 2 = 32, 3 = 64 (R94). -/
def PrimWidth.ofCode (b : BitVec 2) : PrimWidth :=
  if b = 0#2 then .p8 else if b = 1#2 then .p16 else if b = 2#2 then .p32 else .p64

/-- The `pw` code. -/
def PrimWidth.toCode : PrimWidth → BitVec 2
  | .p8 => 0#2
  | .p16 => 1#2
  | .p32 => 2#2
  | .p64 => 3#2

/-- The opcode field, bits 7:0 (R94). -/
def opcodeOf (cw : Word64) : BitVec 8 := cw.extractLsb' 0 8

/-- A 4-bit register field starting at bit `lo`. -/
def regField (cw : Word64) (lo : Nat) : RegNo := Fin.ofNat 16 (cw.extractLsb' lo 4).toNat

/-- The fields of `(cw, cdata)` at the positions of R94. -/
def Fields.ofWords (cw cdata : Word64) : Fields where
  rd := regField cw 8
  rs1 := regField cw 12
  rs2 := regField cw 16
  sgn := .ofBit (cw.extractLsb' 20 1)
  pw := .ofCode (cw.extractLsb' 21 2)
  radix := cw.extractLsb' 24 8
  imm := cw.extractLsb' 32 32
  cdata := cdata

/-! ### Formats and the opcode map (R98) -/

/-- The formats of R98: "A format is only a name for the set of fields used". -/
inductive Format where
  | I | Z | ZD | PI | PO | DI | S | DS | D | DSI | DSS | SS | TI | TO
  deriving DecidableEq, Repr

/-- The bits of each field of R94, as a mask over the command word. -/
def maskOp : Word64 := 0x00000000000000FF
def maskRd : Word64 := 0x0000000000000F00
def maskRs1 : Word64 := 0x000000000000F000
def maskRs2 : Word64 := 0x00000000000F0000
def maskSgn : Word64 := 0x0000000000100000
def maskPw : Word64 := 0x0000000000600000
def maskRadix : Word64 := 0x00000000FF000000
def maskImm : Word64 := 0xFFFFFFFF00000000

/-- The bits of the fields a format uses, besides the opcode (R98, column "fields used"). -/
def Format.used : Format → Word64
  | .I => maskImm
  | .Z => 0
  | .ZD => 0
  | .PI => maskRd ||| maskSgn ||| maskPw ||| maskImm
  | .PO => maskRs1 ||| maskSgn ||| maskPw
  | .DI => maskRd ||| maskImm
  | .S => maskRs1
  | .DS => maskRd ||| maskRs1
  | .D => maskRd
  | .DSI => maskRd ||| maskRs1 ||| maskImm
  | .DSS => maskRd ||| maskRs1 ||| maskRs2
  | .SS => maskRs1 ||| maskRs2
  | .TI => maskRd ||| maskSgn ||| maskRadix ||| maskImm
  | .TO => maskRs1 ||| maskSgn ||| maskRadix

/-- The opcode map of R98: the format and the command of each opcode number; every other number is reserved
(R99). -/
def opcodeRow : Nat → Option (Format × (Fields → Instr))
  | 0x01 => some (.I, fun f => .rdsr f.imm)
  | 0x02 => some (.Z, fun _ => .clrerr)
  | 0x03 => some (.Z, fun _ => .xclr)
  | 0x04 => some (.ZD, fun f => .xpush f.cdata)
  | 0x05 => some (.I, fun f => .xread f.imm)
  | 0x10 => some (.PI, fun f => .fromprim f.rd f.sgn f.pw f.imm f.cdata)
  | 0x11 => some (.PO, fun f => .toprim f.rs1 f.sgn f.pw)
  | 0x12 => some (.DI, fun f => .fromwords f.rd f.imm)
  | 0x13 => some (.S, fun f => .towords f.rs1)
  | 0x14 => some (.S, fun f => .getw f.rs1)
  | 0x15 => some (.DS, fun f => .copy f.rd f.rs1)
  | 0x16 => some (.D, fun f => .drop f.rd)
  | 0x17 => some (.DSI, fun f => .trunc f.rd f.rs1 f.imm)
  | 0x18 => some (.DSI, fun f => .zext f.rd f.rs1 f.imm)
  | 0x19 => some (.DSI, fun f => .sext f.rd f.rs1 f.imm)
  | 0x20 => some (.DSS, fun f => .add f.rd f.rs1 f.rs2)
  | 0x21 => some (.DSS, fun f => .addco f.rd f.rs1 f.rs2)
  | 0x22 => some (.DSS, fun f => .sub f.rd f.rs1 f.rs2)
  | 0x23 => some (.DSS, fun f => .subbo f.rd f.rs1 f.rs2)
  | 0x24 => some (.DS, fun f => .neg f.rd f.rs1)
  | 0x25 => some (.DS, fun f => .umag f.rd f.rs1)
  | 0x26 => some (.DSS, fun f => .mul f.rd f.rs1 f.rs2)
  | 0x28 => some (.DSS, fun f => .udiv f.rd f.rs1 f.rs2)
  | 0x29 => some (.DSS, fun f => .urem f.rd f.rs1 f.rs2)
  | 0x2A => some (.DSS, fun f => .sdiv f.rd f.rs1 f.rs2)
  | 0x2B => some (.DSS, fun f => .srem f.rd f.rs1 f.rs2)
  | 0x30 => some (.DSS, fun f => .and f.rd f.rs1 f.rs2)
  | 0x31 => some (.DSS, fun f => .or f.rd f.rs1 f.rs2)
  | 0x32 => some (.DSS, fun f => .xor f.rd f.rs1 f.rs2)
  | 0x33 => some (.DS, fun f => .not f.rd f.rs1)
  | 0x38 => some (.DSI, fun f => .shl f.rd f.rs1 f.imm)
  | 0x39 => some (.DSI, fun f => .lshr f.rd f.rs1 f.imm)
  | 0x3A => some (.DSI, fun f => .ashr f.rd f.rs1 f.imm)
  | 0x3B => some (.DSI, fun f => .rol f.rd f.rs1 f.imm)
  | 0x3C => some (.DSI, fun f => .ror f.rd f.rs1 f.imm)
  | 0x40 => some (.SS, fun f => .ucmp f.rs1 f.rs2)
  | 0x41 => some (.SS, fun f => .scmp f.rs1 f.rs2)
  | 0x44 => some (.S, fun f => .iszero f.rs1)
  | 0x45 => some (.S, fun f => .isones f.rs1)
  | 0x46 => some (.S, fun f => .sign f.rs1)
  | 0x50 => some (.TI, fun f => .parse f.rd f.sgn f.radix f.imm)
  | 0x51 => some (.TO, fun f => .format f.rs1 f.sgn f.radix)
  | _ => none

/-! ### The decoder -/

/-- Why a command word spells no command (60_exceptions.md R387); each is answered with `IllegalCommand`. -/
inductive DecodeError where
  /-- R99: the opcode number is in no row of R98. -/
  | reservedOpcode (op : BitVec 8)
  /-- R101: a field the opcode does not use, or bit 23, is not 0. -/
  | unusedFieldSet (op : BitVec 8)
  /-- R100 stage 1: RDSR of a status index above 8. -/
  | reservedStatusIndex (imm : Imm)
  deriving DecidableEq, Repr

/-- What the decoder answers. -/
inductive Decoded where
  | instr (i : Instr)
  | illegal (e : DecodeError)
  deriving DecidableEq, Repr

/-- Stage 1 of the command cycle (R100): find the opcode, check the unused fields, check RDSR's index. -/
def decode (cw cdata : Word64) : Decoded :=
  match opcodeRow (opcodeOf cw).toNat with
  | none => .illegal (.reservedOpcode (opcodeOf cw))
  | some (f, build) =>
    if cw &&& ~~~(maskOp ||| f.used) = 0#64 then
      let i := build (Fields.ofWords cw cdata)
      if i.wellFormed then .instr i else .illegal (.reservedStatusIndex (Fields.ofWords cw cdata).imm)
    else .illegal (.unusedFieldSet (opcodeOf cw))

/-- The instruction read, if the words spell one. -/
def Decoded.toOption : Decoded → Option Instr
  | .instr i => some i
  | .illegal _ => none

/-- The number the host gives the bits of an instruction, split into its two words: the command word is the
first word (bits 63:0), the data word the second (bits 127:64). Bits above `nbits` are 0. DESIGN
CHOICE (log entry 6); safe. -/
def tableWords (nbits w : Nat) : Word64 × Word64 :=
  (BitVec.ofNat 64 (w % 2 ^ nbits), BitVec.ofNat 64 (w % 2 ^ nbits / 2 ^ 64))

/-- The instruction the decoder reads from an instruction whose bits are `w`. -/
def decodeTableWord (nbits w : Nat) : Option Instr :=
  (decode (tableWords nbits w).1 (tableWords nbits w).2).toOption

/-! ### The encoder -/

/-- `cw = op | rd<<8 | rs1<<12 | rs2<<16 | sgn<<20 | pw<<21 | radix<<24 | imm<<32` (R94), with bit 23 zero,
written as the fields side by side, the highest first. -/
def Fields.pack (op : BitVec 8) (f : Fields) : Word64 :=
  f.imm ++ f.radix ++ 0#1 ++ f.pw.toCode ++ f.sgn.toBit ++ BitVec.ofNat 4 f.rs2 ++ BitVec.ofNat 4 f.rs1
    ++ BitVec.ofNat 4 f.rd ++ op

/-- The opcode number of a command (R98). -/
def Instr.opcode : Instr → BitVec 8
  | .rdsr _ => 0x01
  | .clrerr => 0x02
  | .xclr => 0x03
  | .xpush _ => 0x04
  | .xread _ => 0x05
  | .fromprim _ _ _ _ _ => 0x10
  | .toprim _ _ _ => 0x11
  | .fromwords _ _ => 0x12
  | .towords _ => 0x13
  | .getw _ => 0x14
  | .copy _ _ => 0x15
  | .drop _ => 0x16
  | .trunc _ _ _ => 0x17
  | .zext _ _ _ => 0x18
  | .sext _ _ _ => 0x19
  | .add _ _ _ => 0x20
  | .addco _ _ _ => 0x21
  | .sub _ _ _ => 0x22
  | .subbo _ _ _ => 0x23
  | .neg _ _ => 0x24
  | .umag _ _ => 0x25
  | .mul _ _ _ => 0x26
  | .udiv _ _ _ => 0x28
  | .urem _ _ _ => 0x29
  | .sdiv _ _ _ => 0x2A
  | .srem _ _ _ => 0x2B
  | .and _ _ _ => 0x30
  | .or _ _ _ => 0x31
  | .xor _ _ _ => 0x32
  | .not _ _ => 0x33
  | .shl _ _ _ => 0x38
  | .lshr _ _ _ => 0x39
  | .ashr _ _ _ => 0x3A
  | .rol _ _ _ => 0x3B
  | .ror _ _ _ => 0x3C
  | .ucmp _ _ => 0x40
  | .scmp _ _ => 0x41
  | .iszero _ => 0x44
  | .isones _ => 0x45
  | .sign _ => 0x46
  | .parse _ _ _ _ => 0x50
  | .format _ _ _ => 0x51

/-- The fields a command fills in; the fields it does not use are 0 (R101). -/
def Instr.fields : Instr → Fields
  | .rdsr imm => { imm := imm }
  | .clrerr => {}
  | .xclr => {}
  | .xpush v => { cdata := v }
  | .xread imm => { imm := imm }
  | .fromprim rd sgn pw imm v => { rd := rd, sgn := sgn, pw := pw, imm := imm, cdata := v }
  | .toprim rs1 sgn pw => { rs1 := rs1, sgn := sgn, pw := pw }
  | .fromwords rd imm => { rd := rd, imm := imm }
  | .towords rs1 => { rs1 := rs1 }
  | .getw rs1 => { rs1 := rs1 }
  | .copy rd rs1 => { rd := rd, rs1 := rs1 }
  | .drop rd => { rd := rd }
  | .trunc rd rs1 imm => { rd := rd, rs1 := rs1, imm := imm }
  | .zext rd rs1 imm => { rd := rd, rs1 := rs1, imm := imm }
  | .sext rd rs1 imm => { rd := rd, rs1 := rs1, imm := imm }
  | .add rd rs1 rs2 => { rd := rd, rs1 := rs1, rs2 := rs2 }
  | .addco rd rs1 rs2 => { rd := rd, rs1 := rs1, rs2 := rs2 }
  | .sub rd rs1 rs2 => { rd := rd, rs1 := rs1, rs2 := rs2 }
  | .subbo rd rs1 rs2 => { rd := rd, rs1 := rs1, rs2 := rs2 }
  | .neg rd rs1 => { rd := rd, rs1 := rs1 }
  | .umag rd rs1 => { rd := rd, rs1 := rs1 }
  | .mul rd rs1 rs2 => { rd := rd, rs1 := rs1, rs2 := rs2 }
  | .udiv rd rs1 rs2 => { rd := rd, rs1 := rs1, rs2 := rs2 }
  | .urem rd rs1 rs2 => { rd := rd, rs1 := rs1, rs2 := rs2 }
  | .sdiv rd rs1 rs2 => { rd := rd, rs1 := rs1, rs2 := rs2 }
  | .srem rd rs1 rs2 => { rd := rd, rs1 := rs1, rs2 := rs2 }
  | .and rd rs1 rs2 => { rd := rd, rs1 := rs1, rs2 := rs2 }
  | .or rd rs1 rs2 => { rd := rd, rs1 := rs1, rs2 := rs2 }
  | .xor rd rs1 rs2 => { rd := rd, rs1 := rs1, rs2 := rs2 }
  | .not rd rs1 => { rd := rd, rs1 := rs1 }
  | .shl rd rs1 imm => { rd := rd, rs1 := rs1, imm := imm }
  | .lshr rd rs1 imm => { rd := rd, rs1 := rs1, imm := imm }
  | .ashr rd rs1 imm => { rd := rd, rs1 := rs1, imm := imm }
  | .rol rd rs1 imm => { rd := rd, rs1 := rs1, imm := imm }
  | .ror rd rs1 imm => { rd := rd, rs1 := rs1, imm := imm }
  | .ucmp rs1 rs2 => { rs1 := rs1, rs2 := rs2 }
  | .scmp rs1 rs2 => { rs1 := rs1, rs2 := rs2 }
  | .iszero rs1 => { rs1 := rs1 }
  | .isones rs1 => { rs1 := rs1 }
  | .sign rs1 => { rs1 := rs1 }
  | .parse rd sgn radix imm => { rd := rd, sgn := sgn, radix := radix, imm := imm }
  | .format rs1 sgn radix => { rs1 := rs1, sgn := sgn, radix := radix }

/-- The two words of a command: `(cw, cdata)`; `cdata` is 0 for the commands that ignore it (R95). -/
def encode (i : Instr) : Word64 × Word64 := (i.fields.pack i.opcode, i.fields.cdata)

/-! ### The source's opcode table -/

/-- The rows of spec/opcode_table.json: mnemonic, match, mask. "a command word `cw` spells the row iff
`cw & mask = match`" (R101). The decoder does not use it; statements compare the two. -/
def opcodeTable : List (String × Word64 × Word64) :=
  [("RDSR", 0x0000000000000001, 0x00000000FFFFFFFF), ("CLRERR", 0x0000000000000002, 0xFFFFFFFFFFFFFFFF),
   ("XCLR", 0x0000000000000003, 0xFFFFFFFFFFFFFFFF), ("XPUSH", 0x0000000000000004, 0xFFFFFFFFFFFFFFFF),
   ("XREAD", 0x0000000000000005, 0x00000000FFFFFFFF), ("FROMPRIM", 0x0000000000000010, 0x00000000FF8FF0FF),
   ("TOPRIM", 0x0000000000000011, 0xFFFFFFFFFF8F0FFF), ("FROMWORDS", 0x0000000000000012, 0x00000000FFFFF0FF),
   ("TOWORDS", 0x0000000000000013, 0xFFFFFFFFFFFF0FFF), ("GETW", 0x0000000000000014, 0xFFFFFFFFFFFF0FFF),
   ("COPY", 0x0000000000000015, 0xFFFFFFFFFFFF00FF), ("DROP", 0x0000000000000016, 0xFFFFFFFFFFFFF0FF),
   ("TRUNC", 0x0000000000000017, 0x00000000FFFF00FF), ("ZEXT", 0x0000000000000018, 0x00000000FFFF00FF),
   ("SEXT", 0x0000000000000019, 0x00000000FFFF00FF)] ++
  [("ADD", 0x0000000000000020, 0xFFFFFFFFFFF000FF), ("ADDCO", 0x0000000000000021, 0xFFFFFFFFFFF000FF),
   ("SUB", 0x0000000000000022, 0xFFFFFFFFFFF000FF), ("SUBBO", 0x0000000000000023, 0xFFFFFFFFFFF000FF),
   ("NEG", 0x0000000000000024, 0xFFFFFFFFFFFF00FF), ("UMAG", 0x0000000000000025, 0xFFFFFFFFFFFF00FF),
   ("MUL", 0x0000000000000026, 0xFFFFFFFFFFF000FF), ("UDIV", 0x0000000000000028, 0xFFFFFFFFFFF000FF),
   ("UREM", 0x0000000000000029, 0xFFFFFFFFFFF000FF), ("SDIV", 0x000000000000002A, 0xFFFFFFFFFFF000FF),
   ("SREM", 0x000000000000002B, 0xFFFFFFFFFFF000FF)] ++
  [("AND", 0x0000000000000030, 0xFFFFFFFFFFF000FF), ("OR", 0x0000000000000031, 0xFFFFFFFFFFF000FF),
   ("XOR", 0x0000000000000032, 0xFFFFFFFFFFF000FF), ("NOT", 0x0000000000000033, 0xFFFFFFFFFFFF00FF),
   ("SHL", 0x0000000000000038, 0x00000000FFFF00FF), ("LSHR", 0x0000000000000039, 0x00000000FFFF00FF),
   ("ASHR", 0x000000000000003A, 0x00000000FFFF00FF), ("ROL", 0x000000000000003B, 0x00000000FFFF00FF),
   ("ROR", 0x000000000000003C, 0x00000000FFFF00FF), ("UCMP", 0x0000000000000040, 0xFFFFFFFFFFF00FFF),
   ("SCMP", 0x0000000000000041, 0xFFFFFFFFFFF00FFF), ("ISZERO", 0x0000000000000044, 0xFFFFFFFFFFFF0FFF),
   ("ISONES", 0x0000000000000045, 0xFFFFFFFFFFFF0FFF), ("SIGN", 0x0000000000000046, 0xFFFFFFFFFFFF0FFF),
   ("PARSE", 0x0000000000000050, 0x0000000000EFF0FF), ("FORMAT", 0x0000000000000051, 0xFFFFFFFF00EF0FFF)]

end Sys2Proof
end

