-- ==== Sys2Proof/Machine/State.lean ====
section
/-! DEFINITION. The state of the block (10_state.md R20), as plain data, and the state after reset (R45). -/

namespace Sys2Proof.Machine

/-- An ApInt (10_state.md R22): a BitWidth `w` and a bit pattern `u`, at value level (00_scope.md R10). The bounds
`1 <= w <= MAX_WIDTH` and `u < 2^w` (R23) are an invariant every command keeps. -/
structure ApInt where
  w : Nat
  u : Nat
  deriving DecidableEq, Repr

/-- The contents of the exchange buffer XBUF (10_state.md R32, R33): a list of length `XLEN`, "the only memory
outside the registers" (00_scope.md section 5); the place of an entry is its index. DESIGN CHOICE (log entry 14); safe. -/
abbrev Memory := List Digit

/-- A response `(err, flag, data)` (30_encoding.md R90, R96). -/
structure Response where
  err : BitVec 4
  flag : Bool
  data : Word64
  deriving DecidableEq, Repr

/-- What the host can do to the block between two commands: present a command (30_encoding.md R90) or assert reset
(70_reset_and_hazards.md R410, R411). -/
inductive HostEvent where
  | command (cw cdata : Word64)
  | reset
  deriving DecidableEq, Repr

/-- The whole state. -/
structure State where
  /-- The configuration: constant for the life of the hardware (R20); no step writes it. DESIGN CHOICE
  (log entry 1); safe for a claim over all states. -/
  cfg : Cfg
  /-- The value registers `x[0] .. x[15]` (R21): `none` is EMPTY, the spec's own state. -/
  x : Vector (Option ApInt) 16
  /-- XBUF (R32); its length is `XLEN`. -/
  xbuf : Memory
  /-- LASTERR (R35), an error code of 60_exceptions.md R371. -/
  lasterr : BitVec 4
  /-- EXPECTED (R36). -/
  expected : BitVec 32
  /-- FOUND (R36). -/
  found : BitVec 32
  /-- The model's own: what the host has presented and the block has not taken, next first. DESIGN CHOICE (log entry 2);
  safe. -/
  pending : List HostEvent
  /-- The model's own: every response produced so far, oldest first. DESIGN CHOICE (log entry 3); safe. -/
  responses : List Response
  deriving DecidableEq, Repr

/-- Nothing in the spec stops the block: a failing command answers with an error code and the block goes on
(60_exceptions.md R380, R384; 93_implementation_defined.md part 2: "A model has no stuck state: every command
responds"). So no fault exists, and the type says so: it has no constructor (log entry 10; safe). -/
inductive Fault where
  deriving DecidableEq, Repr

/-- The one refusal the interface requires. -/
inductive Refusal where
  /-- An instruction whose meaning is not written; raised by `exec`'s refused arms only, of which none is left.
  Safe: the model stops where the hardware goes on. -/
  | notModelled (mnemonic : String)
  deriving DecidableEq, Repr

/-- The state after reset (10_state.md R45) of a block of configuration `c`, with nothing presented by the host. -/
def State.resetWith (c : Cfg) : State where
  cfg := c
  x := Vector.replicate 16 none
  xbuf := []
  lasterr := 0#4
  expected := 0#32
  found := 0#32
  pending := []
  responses := []

/-- The state after reset, in the default configuration (00_scope.md R5, R6; log entry 1). -/
def State.reset : State := State.resetWith Cfg.default

end Sys2Proof.Machine
end

