-- ==== Sys2Proof/Machine/Width.lean ====
section
/-! DEFINITION. Derived quantities of a BitWidth and the readings of an ApInt (00_scope.md R8, R9, R11;
41_storage_width.md R150, R151). -/

namespace Sys2Proof.Machine

/-- `BASE = 2^D` (40_digit.md R130). -/
def base (D : Nat) : Nat := 2 ^ D

/-- `nwords(w) = ceil(w / D)` (00_scope.md R9). -/
def nwords (D w : Nat) : Nat := (w + D - 1) / D

/-- `topmask(w)`: the low `w mod D` bits set, or all `D` bits if `w` is a multiple of `D` (00_scope.md R9). -/
def topmask (D w : Nat) : Nat := if w % D = 0 then 2 ^ D - 1 else 2 ^ (w % D) - 1

/-- `XCAP = MAX_WIDTH + 1` (00_scope.md R8). -/
def xcap (c : Cfg) : Nat := c.maxWidth + 1

/-- `W_MAX = nwords(MAX_WIDTH)` (00_scope.md R9): the words of storage each register has (10_state.md R29). -/
def wmax (c : Cfg) : Nat := nwords c.digitBits.bits c.maxWidth

/-- The storage variant (10_state.md R27): not state and not observable, a function of the BitWidth alone. -/
inductive StorageClass where
  | inline | buffer
  deriving DecidableEq, Repr

/-- `class(w) = INLINE if w <= D else BUFFER` (10_state.md R27). -/
def storageClass (D w : Nat) : StorageClass := if w ≤ D then .inline else .buffer

/-- `canon(w, v) = v mod 2^w` at value level (41_storage_width.md R151). -/
def canon (w v : Nat) : ApInt := { w := w, u := v % 2 ^ w }

/-- The unsigned reading `uint(a)` (00_scope.md R11). -/
def ApInt.uint (a : ApInt) : Nat := a.u

/-- The sign bit, bit `w-1` of the pattern (00_scope.md R11). -/
def ApInt.signBit (a : ApInt) : Bool := a.u.testBit (a.w - 1)

/-- The signed reading `sint(a)`: "`sint = u` if bit `w-1` of `u` is 0, else `u - 2^w`" (00_scope.md R11). -/
def ApInt.sint (a : ApInt) : Int := if a.signBit then (a.u : Int) - 2 ^ a.w else a.u

/-- `sext_N(v, m)`: the `m`-bit pattern `v` extended to `N` bits with copies of bit `m-1` (00_scope.md
section 5). -/
def sextTo (N v m : Nat) : Nat := if v.testBit (m - 1) then v + 2 ^ N - 2 ^ m else v

/-- The words of a value, least significant first: `d[k] = floor(u / BASE^k) mod BASE`, `k < nwords(w)`
(46_host_exchange.md R352; 10_state.md R22). -/
def ApInt.words (D : Nat) (a : ApInt) : List Digit :=
  (List.range (nwords D a.w)).map fun k => a.u / base D ^ k % base D

/-- The number a word sequence stands for: the sum of `d[k] * BASE^k` (46_host_exchange.md R350). -/
def valueOf (D : Nat) : List Digit → Nat
  | [] => 0
  | d :: ds => d + base D * valueOf D ds

end Sys2Proof.Machine
end

