-- ==== Sys2Proof/Machine/Ops.lean ====
section
/-! DEFINITION. The named operations over the registers, the exchange buffer and the error log, the failure of a
command (60_exceptions.md R380: this hardware's only exceptional event), the completion of one, and reset. -/

namespace Sys2Proof.Machine

/-! ### Value registers -/

/-- `x[r]`, before the check that it is VALID (10_state.md R21). -/
def State.readX (s : State) (r : RegNo) : Option ApInt := s.x[r]

/-- `x[r] <- v` (00_scope.md section 5); `none` is EMPTY. -/
def State.writeX (s : State) (r : RegNo) (v : Option ApInt) : State := { s with x := s.x.set r v }

/-! ### The exchange buffer -/

/-- `XLEN` (10_state.md R32). -/
def State.xlen (s : State) : Nat := s.xbuf.length

/-- The content of one entry; entries at an index `>= XLEN` hold no value (10_state.md R33). -/
def Memory.entry (m : Memory) (k : Nat) : Option Digit := m[k]?

/-- `MemRead(k, n)`: entries `k .. k+n-1`, "defined only when `k + n <= XLEN`" (20_memory.md R64). -/
def Memory.read (m : Memory) (k n : Nat) : Option (List Digit) :=
  if k + n ≤ m.length then some ((m.drop k).take n) else none

/-- `MemWrite(0, n, vals); XLEN <- n`: the whole buffer is replaced (20_memory.md R64; TOWORDS, FORMAT). -/
def Memory.replace (_ : Memory) (vals : List Digit) : Memory := vals

/-- `MemWrite(XLEN, 1, [d]); XLEN <- XLEN + 1` (20_memory.md R64; XPUSH). -/
def Memory.append (m : Memory) (d : Digit) : Memory := m ++ [d]

/-- `XLEN <- 0` (20_memory.md R64; XCLR). -/
def Memory.clear (_ : Memory) : Memory := []

/-- The buffer's canonical form: at most `XCAP` entries (10_state.md R32), each a Digit of `D` bits. -/
abbrev Memory.WF (c : Cfg) (m : Memory) : Prop := m.length ≤ xcap c ∧ ∀ d ∈ m, d < base c.digitBits.bits

/-! ### Error kinds -/

/-- The twelve error kinds (60_exceptions.md R371). -/
inductive CmdError where
  /-- R372; carries the two BitWidths (R36). -/
  | widthMismatch (expected found : Nat)
  /-- R373. -/
  | invalidWidthArgument
  /-- R374. -/
  | divisionByZero
  /-- R375. -/
  | invalidWordCount
  /-- R376. -/
  | invalidRadix
  /-- R377. -/
  | invalidDigitForRadix
  /-- R378. -/
  | emptyString
  /-- R386. -/
  | valueOutOfRange
  /-- R387. -/
  | illegalCommand
  /-- R379. -/
  | emptyRegister
  /-- R388. -/
  | widthOutOfRange
  /-- R389. -/
  | exchangeIndex
  deriving DecidableEq, Repr

/-- The code of an error kind (60_exceptions.md R371). -/
def CmdError.code : CmdError → BitVec 4
  | .widthMismatch _ _ => 1
  | .invalidWidthArgument => 2
  | .divisionByZero => 3
  | .invalidWordCount => 4
  | .invalidRadix => 5
  | .invalidDigitForRadix => 6
  | .emptyString => 7
  | .valueOutOfRange => 8
  | .illegalCommand => 9
  | .emptyRegister => 10
  | .widthOutOfRange => 11
  | .exchangeIndex => 12

/-- `EXPECTED` after a failure with this kind: "Failures of any other kind ... leave them unchanged" (R36). -/
def CmdError.expectedAfter (old : BitVec 32) : CmdError → BitVec 32
  | .widthMismatch e _ => BitVec.ofNat 32 e
  | _ => old

/-- `FOUND` after a failure with this kind (R36). -/
def CmdError.foundAfter (old : BitVec 32) : CmdError → BitVec 32
  | .widthMismatch _ f => BitVec.ofNat 32 f
  | _ => old

/-! ### How a command ends -/

/-- `raise E(info)` (60_exceptions.md R380): the response is `(code(E), 0, 0)`, the error log is written, nothing
else changes. -/
def State.raise (s : State) (e : CmdError) : State :=
  { s with
    lasterr := e.code
    expected := e.expectedAfter s.expected
    found := e.foundAfter s.found
    responses := s.responses ++ [{ err := e.code, flag := false, data := 0#64 }] }

/-- What stage 5 of the command cycle (30_encoding.md R100) writes, computed from the values read in stages 1 to
4: at most one register, the exchange buffer, the error log (CLRERR only), and the response fields. Fields a
command's rule does not set are 0 (R96). -/
structure Effect where
  reg : Option (RegNo × Option ApInt) := none
  xbuf : Option Memory := none
  clearLog : Bool := false
  flag : Bool := false
  data : Word64 := 0#64
  deriving DecidableEq, Repr

/-- The registers after an effect. -/
def Effect.regsAfter (e : Effect) (x : Vector (Option ApInt) 16) : Vector (Option ApInt) 16 :=
  match e.reg with
  | none => x
  | some (rd, v) => x.set rd v

/-- Stage 5 (30_encoding.md R100): the writes of a successful command and its response, `err = 0` (R96). A
success leaves the error log alone, except CLRERR (10_state.md R35, R36). -/
def State.commit (s : State) (e : Effect) : State :=
  { s with
    x := e.regsAfter s.x
    xbuf := e.xbuf.getD s.xbuf
    lasterr := if e.clearLog then 0#4 else s.lasterr
    expected := if e.clearLog then 0#32 else s.expected
    found := if e.clearLog then 0#32 else s.found
    responses := s.responses ++ [{ err := 0#4, flag := e.flag, data := e.data }] }

/-- How every command ends: the first check that raised ends it (30_encoding.md R100), or its effect is written. It
always answers a next state (30_encoding.md R91). -/
def State.finish (s : State) : Except CmdError Effect → Host.Outcome State Fault Refusal
  | .error e => .next (s.raise e)
  | .ok e => .next (s.commit e)

/-- The reset input (10_state.md R45, 70_reset_and_hazards.md R410, R411): the state of the block is the reset
state and no response is produced; the host's own lists are not the block's. DEDUCED (log entry 4); safe. -/
def State.applyReset (s : State) : State :=
  { s with
    x := Vector.replicate 16 none
    xbuf := []
    lasterr := 0#4
    expected := 0#32
    found := 0#32 }

/-- The status registers (10_state.md R34): `SR[n]` for `n` in 0 .. 8, before the reduction modulo `2^32` of R37;
`none` for a reserved index. -/
def State.statusReg (s : State) : Nat → Option Nat
  | 0 => some s.cfg.digitBits.bits
  | 1 => some s.cfg.maxWidth
  | 2 => some nreg
  | 3 => some (xcap s.cfg)
  | 4 => some s.xlen
  | 5 => some s.lasterr.toNat
  | 6 => some s.expected.toNat
  | 7 => some s.found.toNat
  | 8 => some (((List.finRange 16).map fun i => if (s.readX i).isSome then 2 ^ i.val else 0).sum)
  | _ => none

end Sys2Proof.Machine
end

