-- ==== Sys2Proof/Machine/Operands.lean ====
section
/-! DEFINITION. The operand forms of 30_encoding.md R97 and stages 2 and 3 of the command cycle (R100), and the
`same_width` check (41_storage_width.md R153). -/

namespace Sys2Proof.Machine

/-- `PW = 8 << pw` (30_encoding.md R97). -/
def PW : PrimWidth → Nat
  | .p8 => 8
  | .p16 => 16
  | .p32 => 32
  | .p64 => 64

/-- Stage 2 (30_encoding.md R100): a BitWidth in `imm`; `WidthOutOfRange` if it is 0 or above `MAX_WIDTH`. -/
def widthField (c : Cfg) (imm : Imm) : Except CmdError Nat :=
  if imm.toNat = 0 ∨ c.maxWidth < imm.toNat then .error .widthOutOfRange else .ok imm.toNat

/-- Stage 3 (30_encoding.md R100): a source register; `EmptyRegister` if it holds no value (10_state.md R24). -/
def source (s : State) (r : RegNo) : Except CmdError ApInt :=
  match s.readX r with
  | none => .error .emptyRegister
  | some a => .ok a

/-- `same_width(rs1, rs2)`, the first stage-4 check of every two-source command (41_storage_width.md R153). -/
def sameWidth (a b : ApInt) : Except CmdError Unit :=
  if a.w ≠ b.w then .error (.widthMismatch a.w b.w) else .ok ()

/-- The two sources of a two-source command: `rs1` then `rs2` VALID (stage 3), then `same_width`. -/
def sources (s : State) (rs1 rs2 : RegNo) : Except CmdError (ApInt × ApInt) := do
  let a ← source s rs1
  let b ← source s rs2
  sameWidth a b
  pure (a, b)

/-- The divider's zero test (42_arithmetic.md R208): after the width test, `DivisionByZero` if `b.u = 0`. -/
def divSources (s : State) (rs1 rs2 : RegNo) : Except CmdError (ApInt × ApInt) := do
  let (a, b) ← sources s rs1 rs2
  if b.u = 0 then .error .divisionByZero else .ok (a, b)

/-- The radix check of PARSE and FORMAT (60_exceptions.md R376). -/
def radixField (radix : BitVec 8) : Except CmdError Nat :=
  if radix.toNat < 2 ∨ 36 < radix.toNat then .error .invalidRadix else .ok radix.toNat

/-- `x[rd] <- (w, v mod 2^w)`: every result is canonicalised before it is written (41_storage_width.md R151). -/
def writes (rd : RegNo) (w v : Nat) : Effect := { reg := some (rd, some (canon w v)) }

/-- `rsp.data <- v`, zero-extended to 64 bits (30_encoding.md R96). -/
def answers (v : Nat) : Effect := { data := BitVec.ofNat 64 v }

/-- `rsp.flag <- b` (30_encoding.md R96). -/
def flags (b : Bool) : Effect := { flag := b }

end Sys2Proof.Machine
end

