-- ==== Sys2Proof/Machine/Flags.lean ====
section
/-! DEFINITION. What a command reports in `rsp.flag` and the ordering code in `rsp.data` (30_encoding.md R96;
42_arithmetic.md R202, R204, R206; 44_compare.md R290, R293 to R295). No flag is stored (10_state.md R41). -/

namespace Sys2Proof.Machine

/-- ADDCO's carry out of bit `w-1`: 1 exactly when the unsigned sum does not fit in `w` bits (R202). -/
def carryOut (w a b : Nat) : Bool := decide (2 ^ w ≤ a + b)

/-- SUBBO's borrow-out: 1 exactly when the unsigned difference is negative (R204). -/
def borrowOut (a b : Nat) : Bool := decide (a < b)

/-- ISZERO: "1 if `a.u = 0`" (R293). -/
def ApInt.isZero (a : ApInt) : Bool := decide (a.u = 0)

/-- ISONES: "1 if `a.u = 2^a.w - 1`" (R294). -/
def ApInt.isOnes (a : ApInt) : Bool := decide (a.u = 2 ^ a.w - 1)

/-- The code of an ordering (44_compare.md R290): 0 Less, 1 Equal, 2 Greater. -/
def orderCode : Ordering → Nat
  | .lt => 0
  | .eq => 1
  | .gt => 2

/-- UCMP's ordering: the unsigned readings (R291). -/
def unsignedOrder (a b : ApInt) : Ordering := if a.u < b.u then .lt else if a.u = b.u then .eq else .gt

/-- SCMP's ordering, stepwise as R292 gives it: sign bits first, then the unsigned order of the patterns. -/
def signedOrder (a b : ApInt) : Ordering :=
  match a.signBit, b.signBit with
  | true, false => .lt
  | false, true => .gt
  | _, _ => unsignedOrder a b

end Sys2Proof.Machine
end

