-- ==== Sys2Proof/Machine/Arithmetic.lean ====
section
/-! DEFINITION. The arithmetic engine at value level: ADD, ADDCO, SUB, SUBBO, NEG, UMAG, MUL, UDIV, UREM, SDIV,
SREM (42_arithmetic.md). `writes` reduces every result modulo `2^w` (R200). -/

namespace Sys2Proof.Machine

/-- `(2^w - u) mod 2^w`, the two's-complement negation of a pattern (R205). -/
def negPattern (w u : Nat) : Nat := (2 ^ w - u) % 2 ^ w

/-- The unsigned magnitude of a value (R206, and `ma`, `mb` of R210): its pattern if the sign bit is 0, else the
negated pattern. -/
def ApInt.magnitude (a : ApInt) : Nat := if a.signBit then negPattern a.w a.u else a.u

/-- The difference `a - b` modulo `2^w` (R203), for `b` of any size. -/
def subPattern (w a b : Nat) : Nat := (a + (2 ^ w - b % 2 ^ w)) % 2 ^ w

/-- SDIV's quotient (R210): the magnitudes' quotient, negated if the signs differ. -/
def signedQuotient (a b : ApInt) : Nat :=
  let q := a.magnitude / b.magnitude
  if a.signBit = b.signBit then q else negPattern a.w q

/-- SREM's remainder (R211): the magnitudes' remainder with the sign of the dividend. -/
def signedRemainder (a b : ApInt) : Nat :=
  let r := a.magnitude % b.magnitude
  if a.signBit then negPattern a.w r else r

/-- ADD (R201). -/
def execAdd (rd rs1 rs2 : RegNo) (s : State) : Host.Outcome State Fault Refusal :=
  s.finish do
    let (a, b) ← sources s rs1 rs2
    pure (writes rd a.w (a.u + b.u))

/-- ADDCO (R202): ADD with the carry out of bit `w-1` in `rsp.flag`. -/
def execAddco (rd rs1 rs2 : RegNo) (s : State) : Host.Outcome State Fault Refusal :=
  s.finish do
    let (a, b) ← sources s rs1 rs2
    pure { writes rd a.w (a.u + b.u) with flag := carryOut a.w a.u b.u }

/-- SUB (R203): `rs1` minus `rs2`. -/
def execSub (rd rs1 rs2 : RegNo) (s : State) : Host.Outcome State Fault Refusal :=
  s.finish do
    let (a, b) ← sources s rs1 rs2
    pure (writes rd a.w (subPattern a.w a.u b.u))

/-- SUBBO (R204): SUB with the borrow-out in `rsp.flag`. -/
def execSubbo (rd rs1 rs2 : RegNo) (s : State) : Host.Outcome State Fault Refusal :=
  s.finish do
    let (a, b) ← sources s rs1 rs2
    pure { writes rd a.w (subPattern a.w a.u b.u) with flag := borrowOut a.u b.u }

/-- NEG (R205). -/
def execNeg (rd rs1 : RegNo) (s : State) : Host.Outcome State Fault Refusal :=
  s.finish do
    let a ← source s rs1
    pure (writes rd a.w (negPattern a.w a.u))

/-- UMAG (R206): the magnitude, with the source's sign bit in `rsp.flag`. -/
def execUmag (rd rs1 : RegNo) (s : State) : Host.Outcome State Fault Refusal :=
  s.finish do
    let a ← source s rs1
    pure { writes rd a.w a.magnitude with flag := a.signBit }

/-- MUL (R207): the product truncated to `w` bits. -/
def execMul (rd rs1 rs2 : RegNo) (s : State) : Host.Outcome State Fault Refusal :=
  s.finish do
    let (a, b) ← sources s rs1 rs2
    pure (writes rd a.w (a.u * b.u))

/-- UDIV (R208): unsigned quotient; `DivisionByZero` after the width test. -/
def execUdiv (rd rs1 rs2 : RegNo) (s : State) : Host.Outcome State Fault Refusal :=
  s.finish do
    let (a, b) ← divSources s rs1 rs2
    pure (writes rd a.w (a.u / b.u))

/-- UREM (R209): unsigned remainder. -/
def execUrem (rd rs1 rs2 : RegNo) (s : State) : Host.Outcome State Fault Refusal :=
  s.finish do
    let (a, b) ← divSources s rs1 rs2
    pure (writes rd a.w (a.u % b.u))

/-- SDIV (R210): signed quotient, rounding toward zero. -/
def execSdiv (rd rs1 rs2 : RegNo) (s : State) : Host.Outcome State Fault Refusal :=
  s.finish do
    let (a, b) ← divSources s rs1 rs2
    pure (writes rd a.w (signedQuotient a b))

/-- SREM (R211): signed remainder, with the sign of the dividend. -/
def execSrem (rd rs1 rs2 : RegNo) (s : State) : Host.Outcome State Fault Refusal :=
  s.finish do
    let (a, b) ← divSources s rs1 rs2
    pure (writes rd a.w (signedRemainder a b))

end Sys2Proof.Machine
end

