-- ==== Sys2Proof/Machine/BitShift.lean ====
section
/-! DEFINITION. The bit/shift engine at value level: AND, OR, XOR, NOT, SHL, LSHR, ASHR, ROL, ROR
(43_bitshift.md). No amount is an error (R271). -/

namespace Sys2Proof.Machine

/-- SHL's value before canonicalisation (R255): `u * 2^amt`, and 0 for `amt >= w`. The two agree modulo `2^w`; the
test keeps the number small for the amounts up to `2^32 - 1` that R271 allows. -/
def shlValue (w u amt : Nat) : Nat := if amt < w then u <<< amt else 0

/-- ROL's pattern (R258): `r = amt mod w`; bit `k` goes to bit `(k + r) mod w`. -/
def rolPattern (w u amt : Nat) : Nat :=
  let r := amt % w
  if r = 0 then u else ((u * 2 ^ r) % 2 ^ w) ||| (u / 2 ^ (w - r))

/-- ROR's pattern (R259): `r = amt mod w`; bit `k` goes to bit `(k - r) mod w`. -/
def rorPattern (w u amt : Nat) : Nat :=
  let r := amt % w
  if r = 0 then u else (u / 2 ^ r) ||| ((u * 2 ^ (w - r)) % 2 ^ w)

/-- AND (R251). -/
def execAnd (rd rs1 rs2 : RegNo) (s : State) : Host.Outcome State Fault Refusal :=
  s.finish do
    let (a, b) ← sources s rs1 rs2
    pure (writes rd a.w (a.u &&& b.u))

/-- OR (R252). -/
def execOr (rd rs1 rs2 : RegNo) (s : State) : Host.Outcome State Fault Refusal :=
  s.finish do
    let (a, b) ← sources s rs1 rs2
    pure (writes rd a.w (a.u ||| b.u))

/-- XOR (R253). -/
def execXor (rd rs1 rs2 : RegNo) (s : State) : Host.Outcome State Fault Refusal :=
  s.finish do
    let (a, b) ← sources s rs1 rs2
    pure (writes rd a.w (a.u ^^^ b.u))

/-- NOT (R254): `M - 1 - a.u`. -/
def execNot (rd rs1 : RegNo) (s : State) : Host.Outcome State Fault Refusal :=
  s.finish do
    let a ← source s rs1
    pure (writes rd a.w (2 ^ a.w - 1 - a.u))

/-- SHL (R255). -/
def execShl (rd rs1 : RegNo) (imm : Imm) (s : State) : Host.Outcome State Fault Refusal :=
  s.finish do
    let a ← source s rs1
    pure (writes rd a.w (shlValue a.w a.u imm.toNat))

/-- LSHR (R256): `floor(a.u / 2^imm)`. -/
def execLshr (rd rs1 : RegNo) (imm : Imm) (s : State) : Host.Outcome State Fault Refusal :=
  s.finish do
    let a ← source s rs1
    pure (writes rd a.w (a.u >>> imm.toNat))

/-- ASHR (R257): `floor(sint(a) / 2^imm) mod M`; copies of the sign bit for `imm >= w` (C4). -/
def execAshr (rd rs1 : RegNo) (imm : Imm) (s : State) : Host.Outcome State Fault Refusal :=
  s.finish do
    let a ← source s rs1
    pure (writes rd a.w ((a.sint >>> imm.toNat) % (2 ^ a.w : Nat)).toNat)

/-- ROL (R258). -/
def execRol (rd rs1 : RegNo) (imm : Imm) (s : State) : Host.Outcome State Fault Refusal :=
  s.finish do
    let a ← source s rs1
    pure (writes rd a.w (rolPattern a.w a.u imm.toNat))

/-- ROR (R259). -/
def execRor (rd rs1 : RegNo) (imm : Imm) (s : State) : Host.Outcome State Fault Refusal :=
  s.finish do
    let a ← source s rs1
    pure (writes rd a.w (rorPattern a.w a.u imm.toNat))

end Sys2Proof.Machine
end

