-- ==== Sys2Proof/Machine/Compare.lean ====
section
/-! DEFINITION. Comparison and tests: UCMP, SCMP, ISZERO, ISONES, SIGN (44_compare.md). None writes a value
register. -/

namespace Sys2Proof.Machine

/-- UCMP (R291). -/
def execUcmp (rs1 rs2 : RegNo) (s : State) : Host.Outcome State Fault Refusal :=
  s.finish do
    let (a, b) ← sources s rs1 rs2
    pure (answers (orderCode (unsignedOrder a b)))

/-- SCMP (R292). -/
def execScmp (rs1 rs2 : RegNo) (s : State) : Host.Outcome State Fault Refusal :=
  s.finish do
    let (a, b) ← sources s rs1 rs2
    pure (answers (orderCode (signedOrder a b)))

/-- ISZERO (R293). -/
def execIszero (rs1 : RegNo) (s : State) : Host.Outcome State Fault Refusal :=
  s.finish do
    let a ← source s rs1
    pure (flags a.isZero)

/-- ISONES (R294). -/
def execIsones (rs1 : RegNo) (s : State) : Host.Outcome State Fault Refusal :=
  s.finish do
    let a ← source s rs1
    pure (flags a.isOnes)

/-- SIGN (R295). -/
def execSign (rs1 : RegNo) (s : State) : Host.Outcome State Fault Refusal :=
  s.finish do
    let a ← source s rs1
    pure (flags a.signBit)

end Sys2Proof.Machine
end

