-- ==== Sys2Proof/Machine/Convert.lean ====
section
/-! DEFINITION. Conversions: FROMPRIM, TOPRIM, PARSE, FORMAT (45_convert_radix.md). -/

namespace Sys2Proof.Machine

/-! ### Primitive integers -/

/-- FROMPRIM's value (R310): the low `PW` bits of `cdata`, truncated, or extended as `sgn` says. -/
def primValue (w : Nat) (sgn : Signedness) (pw : PrimWidth) (cdata : Word64) : Nat :=
  let p := cdata.toNat % 2 ^ PW pw
  if w ≤ PW pw then p
  else
    match sgn with
    | .signed => sextTo w p (PW pw)
    | .unsigned => p

/-- FROMPRIM (R310): never fails on its value (C2). -/
def execFromprim (rd : RegNo) (sgn : Signedness) (pw : PrimWidth) (imm : Imm) (cdata : Word64) (s : State) :
    Host.Outcome State Fault Refusal :=
  s.finish do
    let w ← widthField s.cfg imm
    pure (writes rd w (primValue w sgn pw cdata))

/-- TOPRIM's answer (R311): `ValueOutOfRange` if the value, in the reading `sgn` selects, does not fit `PW` bits;
the test is on the value, not on the BitWidth (C7). -/
def primOf (sgn : Signedness) (pw : PrimWidth) (a : ApInt) : Except CmdError Nat :=
  match sgn with
  | .unsigned => if 2 ^ PW pw ≤ a.uint then .error .valueOutOfRange else .ok a.uint
  | .signed =>
    if a.sint < -(2 ^ (PW pw - 1)) ∨ 2 ^ (PW pw - 1) ≤ a.sint then .error .valueOutOfRange
    else .ok (a.sint % 2 ^ PW pw).toNat

/-- TOPRIM (R311). -/
def execToprim (rs1 : RegNo) (sgn : Signedness) (pw : PrimWidth) (s : State) :
    Host.Outcome State Fault Refusal :=
  s.finish do
    let a ← source s rs1
    let v ← primOf sgn pw a
    pure (answers v)

/-! ### Digit strings -/

/-- The minus sign (R321). -/
def minusChar : Digit := 0x2D

/-- `digitval(c)` (R321): `0`..`9`, then `a`..`z` and `A`..`Z` alike; every other entry value gives none. -/
def digitval (c : Digit) : Option Nat :=
  if 0x30 ≤ c ∧ c ≤ 0x39 then some (c - 0x30)
  else if 0x61 ≤ c ∧ c ≤ 0x7A then some (c - 0x61 + 10)
  else if 0x41 ≤ c ∧ c ≤ 0x5A then some (c - 0x41 + 10)
  else none

/-- The character FORMAT writes for a digit value below 36, letters in lower case (R321, R323). -/
def digitChar (v : Nat) : Digit := if v < 10 then 0x30 + v else 0x61 + (v - 10)

/-- The accumulation loop of PARSE (R322): every character is checked, `V = V * radix + dv`. -/
def parseDigits (radix : Nat) : List Digit → Nat → Except CmdError Nat
  | [], V => .ok V
  | c :: cs, V =>
    match digitval c with
    | none => .error .invalidDigitForRadix
    | some dv => if radix ≤ dv then .error .invalidDigitForRadix else parseDigits radix cs (V * radix + dv)

/-- The sign PARSE accepts (R322): a leading `-`, and only when `sgn = 1`. -/
def leadingMinus (sgn : Signedness) (t : List Digit) : Bool :=
  decide (sgn = .signed) && decide (t.head? = some minusChar)

/-- The digits after the accepted sign; a lone `-` leaves none and is an invalid digit (R322). -/
def parseMagnitude (radix : Nat) (neg : Bool) (t : List Digit) : Except CmdError Nat :=
  let rest := if neg then t.drop 1 else t
  if rest = [] then .error .invalidDigitForRadix else parseDigits radix rest 0

/-- The range PARSE accepts (R322, R326): hard rejection outside it. -/
def parseInRange (sgn : Signedness) (neg : Bool) (w V : Nat) : Bool :=
  match sgn, neg with
  | .unsigned, _ => decide (V ≤ 2 ^ w - 1)
  | .signed, false => decide (V ≤ 2 ^ (w - 1) - 1)
  | .signed, true => decide (V ≤ 2 ^ (w - 1))

/-- PARSE's pattern (R322), the checks in the rule's order: radix, empty text, digits, range. -/
def parseText (w : Nat) (sgn : Signedness) (radix : BitVec 8) (t : List Digit) : Except CmdError Nat := do
  let r ← radixField radix
  if t = [] then .error .emptyString
  else do
    let neg := leadingMinus sgn t
    let V ← parseMagnitude r neg t
    if parseInRange sgn neg w V then .ok (if neg then (2 ^ w - V) % 2 ^ w else V)
    else .error .valueOutOfRange

/-- PARSE (R322): the text is the whole of XBUF, which stays as it is. -/
def execParse (rd : RegNo) (sgn : Signedness) (radix : BitVec 8) (imm : Imm) (s : State) :
    Host.Outcome State Fault Refusal :=
  s.finish do
    let w ← widthField s.cfg imm
    let v ← parseText w sgn radix s.xbuf
    pure (writes rd w v)

/-- Digit extraction by repeated division (R323, R325), most significant first in the result. `fuel` bounds the
number of digits; `m` itself is always enough for a radix of at least 2. -/
def digitsLoop (radix : Nat) : Nat → Nat → List Digit → List Digit
  | 0, _, acc => acc
  | fuel + 1, m, acc =>
    if m = 0 then acc else digitsLoop radix fuel (m / radix) (digitChar (m % radix) :: acc)

/-- `digits(m, radix)` (R323): `0` for zero, else the shortest digit string of `m`. -/
def digits (m radix : Nat) : List Digit := if m = 0 then [0x30] else digitsLoop radix m m []

/-- FORMAT's text (R323): a leading `-` for a negative value in the signed reading, then the magnitude. -/
def formatText (sgn : Signedness) (radix : Nat) (a : ApInt) : List Digit :=
  if sgn = .signed ∧ a.signBit then minusChar :: digits (2 ^ a.w - a.u) radix else digits a.u radix

/-- FORMAT (R323): EmptyRegister (stage 3) comes before InvalidRadix; the text replaces XBUF; `rsp.data` is its
length. -/
def execFormat (rs1 : RegNo) (sgn : Signedness) (radix : BitVec 8) (s : State) :
    Host.Outcome State Fault Refusal :=
  s.finish do
    let a ← source s rs1
    let r ← radixField radix
    let t := formatText sgn r a
    pure { xbuf := some (Memory.replace s.xbuf t), data := BitVec.ofNat 64 t.length }

end Sys2Proof.Machine
end

