-- ==== Sys2Proof/Machine/HostExchange.lean ====
section
/-! DEFINITION. Host exchange and status: RDSR, CLRERR, XCLR, XPUSH, XREAD, FROMWORDS, TOWORDS
(46_host_exchange.md). -/

namespace Sys2Proof.Machine

/-- RDSR (R358): "`if imm > 8 then raise IllegalCommand; rsp.data <- SR[imm] mod 2^32`". -/
def execRdsr (imm : Imm) (s : State) : Host.Outcome State Fault Refusal :=
  s.finish <|
    match s.statusReg imm.toNat with
    | none => .error .illegalCommand
    | some v => .ok (answers (v % 2 ^ 32))

/-- CLRERR (R359): the error log is cleared, nothing else is touched. -/
def execClrerr (s : State) : Host.Outcome State Fault Refusal :=
  s.finish (.ok { clearLog := true })

/-- XCLR (R354): "`XLEN <- 0`". -/
def execXclr (s : State) : Host.Outcome State Fault Refusal :=
  s.finish (.ok { xbuf := some (Memory.clear s.xbuf) })

/-- XPUSH (R355): `ExchangeIndex` if the buffer is full, else the low `D` bits of `cdata` are appended. -/
def execXpush (v : Word64) (s : State) : Host.Outcome State Fault Refusal :=
  s.finish <|
    if s.xlen < xcap s.cfg then
      .ok { xbuf := some (Memory.append s.xbuf (v.toNat % base s.cfg.digitBits.bits)) }
    else .error .exchangeIndex

/-- XREAD (R356): `ExchangeIndex` if `imm >= XLEN`, else the entry. -/
def execXread (imm : Imm) (s : State) : Host.Outcome State Fault Refusal :=
  s.finish <|
    match Memory.read s.xbuf imm.toNat 1 with
    | some [d] => .ok (answers d)
    | _ => .error .exchangeIndex

/-- FROMWORDS (R350): `InvalidWordCount` if `XLEN != nwords(w)`, else the words, canonicalised. -/
def execFromwords (rd : RegNo) (imm : Imm) (s : State) : Host.Outcome State Fault Refusal :=
  s.finish do
    let w ← widthField s.cfg imm
    if s.xlen ≠ nwords s.cfg.digitBits.bits w then .error .invalidWordCount
    else .ok (writes rd w (valueOf s.cfg.digitBits.bits s.xbuf))

/-- TOWORDS (R352): the words replace the buffer; `rsp.data` is the BitWidth. -/
def execTowords (rs1 : RegNo) (s : State) : Host.Outcome State Fault Refusal :=
  s.finish do
    let a ← source s rs1
    pure { xbuf := some (Memory.replace s.xbuf (a.words s.cfg.digitBits.bits)), data := BitVec.ofNat 64 a.w }

end Sys2Proof.Machine
end

