-- ==== Sys2Proof/Machine/StorageWidth.lean ====
section
/-! DEFINITION. Width query, copy, drop and resize: GETW, COPY, DROP, TRUNC, ZEXT, SEXT (41_storage_width.md). -/

namespace Sys2Proof.Machine

/-- GETW (R160): "`rsp.data <- x[rs1].w`". -/
def execGetw (rs1 : RegNo) (s : State) : Host.Outcome State Fault Refusal :=
  s.finish do
    let a ← source s rs1
    pure (answers a.w)

/-- COPY (R161): "`x[rd] <- x[rs1]`". -/
def execCopy (rd rs1 : RegNo) (s : State) : Host.Outcome State Fault Refusal :=
  s.finish do
    let a ← source s rs1
    pure { reg := some (rd, some a) }

/-- DROP (R162): "`x[rd] <- EMPTY`"; an EMPTY `rd` is no error. -/
def execDrop (rd : RegNo) (s : State) : Host.Outcome State Fault Refusal :=
  s.finish (.ok { reg := some (rd, none) })

/-- TRUNC (R163): the low `imm` bits; `InvalidWidthArgument` if `imm > a.w`; equal width copies (C1). -/
def execTrunc (rd rs1 : RegNo) (imm : Imm) (s : State) : Host.Outcome State Fault Refusal :=
  s.finish do
    let w ← widthField s.cfg imm
    let a ← source s rs1
    if a.w < w then .error .invalidWidthArgument else .ok (writes rd w a.u)

/-- ZEXT (R164): zeros above; `InvalidWidthArgument` if `imm < a.w`; equal width copies (C1). -/
def execZext (rd rs1 : RegNo) (imm : Imm) (s : State) : Host.Outcome State Fault Refusal :=
  s.finish do
    let w ← widthField s.cfg imm
    let a ← source s rs1
    if w < a.w then .error .invalidWidthArgument else .ok (writes rd w a.u)

/-- SEXT (R165): copies of bit `a.w - 1` above; `InvalidWidthArgument` if `imm < a.w`; equal width copies (C1). -/
def execSext (rd rs1 : RegNo) (imm : Imm) (s : State) : Host.Outcome State Fault Refusal :=
  s.finish do
    let w ← widthField s.cfg imm
    let a ← source s rs1
    if w < a.w then .error .invalidWidthArgument else .ok (writes rd w (sextTo w a.u a.w))

end Sys2Proof.Machine
end

