-- ==== Sys2Proof/Machine/Dispatch.lean ====
section
/-! DEFINITION. One arm per command of APC-1, in the order of spec/opcode_table.json. -/

namespace Sys2Proof.Machine

/-- The effect of a decoded command (stages 2 to 5 of 30_encoding.md R100). -/
def exec (i : Instr) (s : State) : Host.Outcome State Fault Refusal :=
  match i with
  | .rdsr imm => Sys2Proof.Machine.execRdsr imm s
  | .clrerr => Sys2Proof.Machine.execClrerr s
  | .xclr => Sys2Proof.Machine.execXclr s
  | .xpush v => Sys2Proof.Machine.execXpush v s
  | .xread imm => Sys2Proof.Machine.execXread imm s
  | .fromprim rd sgn pw imm v => Sys2Proof.Machine.execFromprim rd sgn pw imm v s
  | .toprim rs1 sgn pw => Sys2Proof.Machine.execToprim rs1 sgn pw s
  | .fromwords rd imm => Sys2Proof.Machine.execFromwords rd imm s
  | .towords rs1 => Sys2Proof.Machine.execTowords rs1 s
  | .getw rs1 => Sys2Proof.Machine.execGetw rs1 s
  | .copy rd rs1 => Sys2Proof.Machine.execCopy rd rs1 s
  | .drop rd => Sys2Proof.Machine.execDrop rd s
  | .trunc rd rs1 imm => Sys2Proof.Machine.execTrunc rd rs1 imm s
  | .zext rd rs1 imm => Sys2Proof.Machine.execZext rd rs1 imm s
  | .sext rd rs1 imm => Sys2Proof.Machine.execSext rd rs1 imm s
  | .add rd rs1 rs2 => Sys2Proof.Machine.execAdd rd rs1 rs2 s
  | .addco rd rs1 rs2 => Sys2Proof.Machine.execAddco rd rs1 rs2 s
  | .sub rd rs1 rs2 => Sys2Proof.Machine.execSub rd rs1 rs2 s
  | .subbo rd rs1 rs2 => Sys2Proof.Machine.execSubbo rd rs1 rs2 s
  | .neg rd rs1 => Sys2Proof.Machine.execNeg rd rs1 s
  | .umag rd rs1 => Sys2Proof.Machine.execUmag rd rs1 s
  | .mul rd rs1 rs2 => Sys2Proof.Machine.execMul rd rs1 rs2 s
  | .udiv rd rs1 rs2 => Sys2Proof.Machine.execUdiv rd rs1 rs2 s
  | .urem rd rs1 rs2 => Sys2Proof.Machine.execUrem rd rs1 rs2 s
  | .sdiv rd rs1 rs2 => Sys2Proof.Machine.execSdiv rd rs1 rs2 s
  | .srem rd rs1 rs2 => Sys2Proof.Machine.execSrem rd rs1 rs2 s
  | .and rd rs1 rs2 => Sys2Proof.Machine.execAnd rd rs1 rs2 s
  | .or rd rs1 rs2 => Sys2Proof.Machine.execOr rd rs1 rs2 s
  | .xor rd rs1 rs2 => Sys2Proof.Machine.execXor rd rs1 rs2 s
  | .not rd rs1 => Sys2Proof.Machine.execNot rd rs1 s
  | .shl rd rs1 imm => Sys2Proof.Machine.execShl rd rs1 imm s
  | .lshr rd rs1 imm => Sys2Proof.Machine.execLshr rd rs1 imm s
  | .ashr rd rs1 imm => Sys2Proof.Machine.execAshr rd rs1 imm s
  | .rol rd rs1 imm => Sys2Proof.Machine.execRol rd rs1 imm s
  | .ror rd rs1 imm => Sys2Proof.Machine.execRor rd rs1 imm s
  | .ucmp rs1 rs2 => Sys2Proof.Machine.execUcmp rs1 rs2 s
  | .scmp rs1 rs2 => Sys2Proof.Machine.execScmp rs1 rs2 s
  | .iszero rs1 => Sys2Proof.Machine.execIszero rs1 s
  | .isones rs1 => Sys2Proof.Machine.execIsones rs1 s
  | .sign rs1 => Sys2Proof.Machine.execSign rs1 s
  | .parse rd sgn radix imm => Sys2Proof.Machine.execParse rd sgn radix imm s
  | .format rs1 sgn radix => Sys2Proof.Machine.execFormat rs1 sgn radix s

end Sys2Proof.Machine
end

