-- ==== Sys2Proof/Machine/Step.lean ====
section
/-! DEFINITION. One step: the block takes the next thing the host has presented (20_memory.md R70). -/

namespace Sys2Proof.Machine

/-- The block takes one event (DESIGN CHOICE, log entry 2; safe). With nothing presented it is idle and keeps its state (60_exceptions.md R400). A
command word that spells no command fails with IllegalCommand (30_encoding.md R99). -/
def step (s : State) : Host.Outcome State Fault Refusal :=
  match s.pending with
  | [] => .next s
  | .reset :: rest => .next ({ s with pending := rest } : State).applyReset
  | .command cw cdata :: rest =>
    match decode cw cdata with
    | .instr i => exec i { s with pending := rest }
    | .illegal _ => .next (({ s with pending := rest } : State).raise .illegalCommand)

/-- `s` with the command whose bits are `w` presented next, in front of what the host had presented (log entry
2): the command word is the low 64 bits, the data word the next 64, bits above `nbits` zero. -/
def State.withFetchWord (s : State) (nbits w : Nat) : State :=
  { s with pending := .command (tableWords nbits w).1 (tableWords nbits w).2 :: s.pending }

end Sys2Proof.Machine
end

