-- ==== Sys2Proof/Machine/Asm.lean ====
section
/-! DEFINITION. The assembler syntax (30_encoding.md R105), the two pseudo-instructions (R106), and the presentation of
a program, a finite list of commands (70_reset_and_hazards.md R431). -/

namespace Sys2Proof.Machine

/-- `xwords v0, v1, ...`: `xclr`, then one `xpush` per word, least significant first (R106). -/
def xwords (vs : List Word64) : List Instr := .xclr :: vs.map .xpush

/-- `xtext "s"`: `xclr`, then one `xpush` per character, its ASCII code (R106). -/
def xtext (s : String) : List Instr := .xclr :: s.toList.map fun c => .xpush (BitVec.ofNat 64 c.toNat)

/-- The event of the host presenting a command (30_encoding.md R90). -/
def present (i : Instr) : HostEvent := .command (encode i).1 (encode i).2

/-- A register operand, `r0 .. r15` (R105). -/
def asmReg (r : RegNo) : String := "r" ++ toString r.val

/-- A mnemonic and its operands. -/
def asmLine (m : String) (ops : List String) : String :=
  match ops with
  | [] => m
  | o :: os => m ++ " " ++ os.foldl (fun t x => t ++ ", " ++ x) o

/-- The suffix `.u` or `.s` (R105). -/
def asmSgn : Signedness → String
  | .unsigned => ".u"
  | .signed => ".s"

/-- The primitive width written after the sign suffix (R105). -/
def asmPw : PrimWidth → String
  | .p8 => "8"
  | .p16 => "16"
  | .p32 => "32"
  | .p64 => "64"

/-- An immediate, in decimal (R105 allows decimal or hexadecimal). -/
def asmNat (n : Nat) : String := toString n

/-- Format DSS (R105). -/
def asmDSS (m : String) (rd rs1 rs2 : RegNo) : String := asmLine m [asmReg rd, asmReg rs1, asmReg rs2]

/-- Format DS (R105). -/
def asmDS (m : String) (rd rs1 : RegNo) : String := asmLine m [asmReg rd, asmReg rs1]

/-- Format DSI (R105). -/
def asmDSI (m : String) (rd rs1 : RegNo) (imm : Imm) : String :=
  asmLine m [asmReg rd, asmReg rs1, asmNat imm.toNat]

/-- The assembler text of a command (R105), immediates in decimal. -/
def asmText : Instr → String
  | .rdsr imm => asmLine "rdsr" [asmNat imm.toNat]
  | .clrerr => "clrerr"
  | .xclr => "xclr"
  | .xpush v => asmLine "xpush" [asmNat v.toNat]
  | .xread imm => asmLine "xread" [asmNat imm.toNat]
  | .fromprim rd sgn pw imm v =>
    asmLine ("fromprim" ++ asmSgn sgn ++ asmPw pw) [asmReg rd, asmNat imm.toNat, asmNat v.toNat]
  | .toprim rs1 sgn pw => asmLine ("toprim" ++ asmSgn sgn ++ asmPw pw) [asmReg rs1]
  | .fromwords rd imm => asmLine "fromwords" [asmReg rd, asmNat imm.toNat]
  | .towords rs1 => asmLine "towords" [asmReg rs1]
  | .getw rs1 => asmLine "getw" [asmReg rs1]
  | .copy rd rs1 => asmDS "copy" rd rs1
  | .drop rd => asmLine "drop" [asmReg rd]
  | .trunc rd rs1 imm => asmDSI "trunc" rd rs1 imm
  | .zext rd rs1 imm => asmDSI "zext" rd rs1 imm
  | .sext rd rs1 imm => asmDSI "sext" rd rs1 imm
  | .add rd rs1 rs2 => asmDSS "add" rd rs1 rs2
  | .addco rd rs1 rs2 => asmDSS "addco" rd rs1 rs2
  | .sub rd rs1 rs2 => asmDSS "sub" rd rs1 rs2
  | .subbo rd rs1 rs2 => asmDSS "subbo" rd rs1 rs2
  | .neg rd rs1 => asmDS "neg" rd rs1
  | .umag rd rs1 => asmDS "umag" rd rs1
  | .mul rd rs1 rs2 => asmDSS "mul" rd rs1 rs2
  | .udiv rd rs1 rs2 => asmDSS "udiv" rd rs1 rs2
  | .urem rd rs1 rs2 => asmDSS "urem" rd rs1 rs2
  | .sdiv rd rs1 rs2 => asmDSS "sdiv" rd rs1 rs2
  | .srem rd rs1 rs2 => asmDSS "srem" rd rs1 rs2
  | .and rd rs1 rs2 => asmDSS "and" rd rs1 rs2
  | .or rd rs1 rs2 => asmDSS "or" rd rs1 rs2
  | .xor rd rs1 rs2 => asmDSS "xor" rd rs1 rs2
  | .not rd rs1 => asmDS "not" rd rs1
  | .shl rd rs1 imm => asmDSI "shl" rd rs1 imm
  | .lshr rd rs1 imm => asmDSI "lshr" rd rs1 imm
  | .ashr rd rs1 imm => asmDSI "ashr" rd rs1 imm
  | .rol rd rs1 imm => asmDSI "rol" rd rs1 imm
  | .ror rd rs1 imm => asmDSI "ror" rd rs1 imm
  | .ucmp rs1 rs2 => asmDS "ucmp" rs1 rs2
  | .scmp rs1 rs2 => asmDS "scmp" rs1 rs2
  | .iszero rs1 => asmLine "iszero" [asmReg rs1]
  | .isones rs1 => asmLine "isones" [asmReg rs1]
  | .sign rs1 => asmLine "sign" [asmReg rs1]
  | .parse rd sgn radix imm =>
    asmLine ("parse" ++ asmSgn sgn) [asmReg rd, asmNat imm.toNat, asmNat radix.toNat]
  | .format rs1 sgn radix => asmLine ("format" ++ asmSgn sgn) [asmReg rs1, asmNat radix.toNat]

end Sys2Proof.Machine
end

