-- ==== Sys2Proof/Machine/Digit.lean ====
section
/-! DEFINITION. The Digit primitives, "the leaf datapath cells" (40_digit.md). No command exposes one directly; the
word-level algorithms of Machine/Datapath.lean are built from them. `D` is the number of bits in a Digit. -/

namespace Sys2Proof.Machine

/-- `dadd(a, b) = (a + b) mod BASE` (R131). -/
def dadd (D a b : Nat) : Digit := (a + b) % base D

/-- `dsub(a, b) = (a - b) mod BASE` (R131), for Digits `a`, `b`. -/
def dsub (D a b : Nat) : Digit := (a + base D - b) % base D

/-- `dmul(a, b) = (a * b) mod BASE` (R131). -/
def dmul (D a b : Nat) : Digit := a * b % base D

/-- `ddiv(a, b) = floor(a / b)`; `b = 0` signals `DivisionByZero` (R131). -/
def ddiv (a b : Digit) : Option Digit := if b = 0 then none else some (a / b)

/-- `dadc(a, b, cin) -> (sum, cout)` (R132). -/
def dadc (D a b cin : Nat) : Digit × Nat := ((a + b + cin) % base D, if base D ≤ a + b + cin then 1 else 0)

/-- `dsbb(a, b, bin) -> (diff, bout)` (R133), for Digits `a`, `b`. -/
def dsbb (D a b bin : Nat) : Digit × Nat := ((a + base D + base D - b - bin) % base D, if a < b + bin then 1 else 0)

/-- `dmulw(a, b) -> (hi, lo)` (R134). -/
def dmulw (D a b : Nat) : Digit × Digit := (a * b / base D, a * b % base D)

/-- `ddiv2(hi, lo, d) -> (q, r)` for a divisor `d` other than 0 (R135); for `hi >= d` the quotient is truncated to `D`
bits (D35). -/
def ddiv2Total (D hi lo d : Nat) : Digit × Digit :=
  ((hi * base D + lo) / d % base D, (hi * base D + lo) % d)

/-- `ddiv2` (R135): `d = 0` signals `DivisionByZero` (R136). -/
def ddiv2 (D hi lo d : Nat) : Option (Digit × Digit) := if d = 0 then none else some (ddiv2Total D hi lo d)

end Sys2Proof.Machine
end

