-- ==== Sys2Proof/Machine/Datapath.lean ====
section
/-! DEFINITION. The word-level reference algorithms (41_storage_width.md R151, R163 to R165; 42_arithmetic.md R220
to R225; 43_bitshift.md R250 to R259, R270; 44_compare.md R291 to R295; 45_convert_radix.md R324, R325), over word
sequences listed least significant first. The value level is normative (00_scope.md R10): `exec` does not use them,
and statements relate the two levels. -/

namespace Sys2Proof.Machine

/-! ### Canonicalisation and resizing -/

/-- `canon(w, d)` at word level (R151): the top word is masked with `topmask(w)`, the others stay. -/
def maskTop (D w : Nat) : List Digit → List Digit
  | [] => []
  | [d] => [d &&& topmask D w]
  | d :: e :: ds => d :: maskTop D w (e :: ds)

/-- TRUNC (R163): keep words `0 .. nwords(new)-1`, then mask. -/
def truncWords (D new : Nat) (A : List Digit) : List Digit := maskTop D new (A.take (nwords D new))

/-- ZEXT (R164): append zero words. -/
def zextWords (D new : Nat) (A : List Digit) : List Digit := A ++ List.replicate (nwords D new - A.length) 0

/-- OR the bits above `topmask(w)` into the top word (R165: "OR `~topmask(a.w)` into word `nwords(a.w)-1`"). -/
def fillTop (D w : Nat) : List Digit → List Digit
  | [] => []
  | [d] => [d ||| (2 ^ D - 1 - topmask D w)]
  | d :: e :: ds => d :: fillTop D w (e :: ds)

/-- SEXT (R165): with sign bit 0 as ZEXT; with sign bit 1 fill the top word, append all-ones words, mask. -/
def sextWords (D old new : Nat) (sign : Bool) (A : List Digit) : List Digit :=
  if sign then
    maskTop D new (fillTop D old A ++ List.replicate (nwords D new - A.length) (2 ^ D - 1))
  else zextWords D new A

/-! ### Addition, subtraction, negation -/

/-- The ripple of R220: `(R[i], c) = dadc(A[i], B[i], c)`, from word 0 up; the unmasked words and the last carry. -/
def rippleAdd (D : Nat) : List Digit → List Digit → Nat → List Digit × Nat
  | a :: as, b :: bs, c =>
    let (r, c') := dadc D a b c
    let (rs, cOut) := rippleAdd D as bs c'
    (r :: rs, cOut)
  | _, _, c => ([], c)

/-- The carry-out of the `w`-bit sum (R220): the last carry if `w mod D = 0`, else bit `w mod D` of the top word
before masking. -/
def addCarry (D w : Nat) (rs : List Digit) (c : Nat) : Bool :=
  if w % D = 0 then decide (c = 1) else ((rs.getLast?).getD 0).testBit (w % D)

/-- ADD and ADDCO at word level (R220): the masked words and the carry-out. -/
def addWords (D w : Nat) (A B : List Digit) : List Digit × Bool :=
  let (rs, c) := rippleAdd D A B 0
  (maskTop D w rs, addCarry D w rs c)

/-- The ripple of R221: `(R[i], b) = dsbb(A[i], B[i], b)`. -/
def rippleSub (D : Nat) : List Digit → List Digit → Nat → List Digit × Nat
  | a :: as, b :: bs, c =>
    let (r, c') := dsbb D a b c
    let (rs, cOut) := rippleSub D as bs c'
    (r :: rs, cOut)
  | _, _, c => ([], c)

/-- SUB and SUBBO at word level (R221): the masked words and the borrow-out. -/
def subWords (D w : Nat) (A B : List Digit) : List Digit × Bool :=
  let (rs, c) := rippleSub D A B 0
  (maskTop D w rs, decide (c = 1))

/-- "complement every word, add 1 with ripple carry (rule R220), mask the top word" (R225). -/
def negWords (D w : Nat) (A : List Digit) : List Digit :=
  maskTop D w (rippleAdd D (A.map (2 ^ D - 1 - ·)) (List.replicate A.length 0) 1).1

/-! ### Multiplication -/

/-- One row of R222: `R[i+j] + A[j] * B[i] + carry`, word by word over the words of `R` that are left, dropping the
words at position `n` and above and the row's last carry. -/
def mulRow (D : Nat) : List Digit → Nat → List Digit → Nat → List Digit
  | a :: as, b, r :: rs, carry =>
    let (hi, lo) := dmulw D a b
    let t := r + lo + carry
    t % base D :: mulRow D as b rs (hi + t / base D)
  | _, _, rs, _ => rs

/-- The rows of R222, one for each word of the multiplier; after row `i` word `i` of the result is final. -/
def mulRows (D : Nat) (A : List Digit) : List Digit → List Digit → List Digit
  | b :: bs, R =>
    match mulRow D A b R 0 with
    | [] => []
    | r :: rs => r :: mulRows D A bs rs
  | [], R => R

/-- MUL at word level (R222): schoolbook, truncated to `n` words, top word masked. -/
def mulWords (D w : Nat) (A B : List Digit) : List Digit :=
  maskTop D w (mulRows D A B (List.replicate A.length 0))

/-! ### Division -/

/-- Single-word divisor (R223): from the top word down, `(Q[i], rem) = ddiv2(rem, A[i], d)`. -/
def divSmall (D d : Nat) : List Digit → List Digit × Digit
  | [] => ([], 0)
  | a :: as =>
    let (qs, rem) := divSmall D d as
    let (q, r) := ddiv2Total D rem a d
    (q :: qs, r)

/-- The number of significant words: the words without the zero words at the top (listing after R224). -/
def significant : List Digit → List Digit
  | [] => []
  | d :: ds =>
    match significant ds with
    | [] => if d = 0 then [] else [d]
    | e :: es => d :: e :: es

/-- Leading zero bits of a word other than 0, from its bit length (listing after R224, normalisation). -/
def leadingZeros (D d : Nat) : Nat := D - (Nat.log2 d + 1)

/-- A word sequence shifted left by `s < D` bits into `n` words; words beyond the sequence are 0. -/
def shiftInto (D s : Nat) : Nat → List Digit → Nat → List Digit
  | 0, _, _ => []
  | n + 1, ds, low =>
    let d := ds.headD 0
    ((d <<< s) % base D + low) :: shiftInto D s n ds.tail (d >>> (D - s))

/-- A word sequence shifted right by `s < D` bits (listing after R224: `Rem = U >> s`). -/
def shiftDown (D s : Nat) : List Digit → List Digit
  | [] => []
  | d :: ds => (d >>> s + (ds.headD 0 <<< (D - s)) % base D) :: shiftDown D s ds

/-- The estimate's correction loop (listing after R224): while `qh >= BASE` or `qh * V[m-2] > rh * BASE + U[j+m-2]`,
take 1 from `qh` and add `V[m-1]` to `rh`, until `rh >= BASE`. It runs at most twice; `fuel` bounds it.
DEDUCED (log entry 18); safe. -/
def correct (D v1 v2 u2 : Nat) : Nat → Nat → Nat → Nat
  | 0, qh, _ => qh
  | fuel + 1, qh, rh =>
    if base D ≤ qh ∨ rh * base D + u2 < qh * v2 then
      if base D ≤ rh + v1 then qh - 1 else correct D v1 v2 u2 fuel (qh - 1) (rh + v1)
    else qh

/-- The quotient estimate of one step (listing after R224) for the window `U[j .. j+m]` and the divisor `V`. -/
def estimate (D : Nat) (window V : List Digit) : Nat :=
  let m := V.length
  let v1 := V.getD (m - 1) 0
  let num := window.getD m 0 * base D + window.getD (m - 1) 0
  correct D v1 (V.getD (m - 2) 0) (window.getD (m - 2) 0) 3 (num / v1) (num % v1)

/-- `U[j .. j+m] - qh * V` word by word (listing after R224, multiply and subtract): the words and the last
borrow. -/
def mulSub (D : Nat) : List Digit → List Digit → Nat → Nat → List Digit × Nat
  | u :: us, vs, qh, borrow =>
    let p := qh * vs.headD 0 + borrow
    let d := (u + base D - p % base D) % base D
    let (ds, out) := mulSub D us vs.tail qh (p / base D + if u < p % base D then 1 else 0)
    (d :: ds, out)
  | [], _, _, borrow => ([], borrow)

/-- One step of the listing after R224: estimate, multiply and subtract, add back on a borrow. -/
def knuthStep (D : Nat) (window V : List Digit) : Digit × List Digit :=
  let qh := estimate D window V
  let (ds, borrow) := mulSub D window V qh 0
  if borrow = 0 then (qh, ds.take V.length)
  else (qh - 1, (rippleAdd D ds (V ++ [0]) 0).1.take V.length)

/-- The loop `for j = la-m down to 0` of the listing after R224: `low` are the words `U[0 .. la-m]` not yet used, `R` the
`m` words above them. DEDUCED (log entry 18); safe. -/
def knuthLoop (D : Nat) (V : List Digit) : List Digit → List Digit → List Digit × List Digit
  | [], R => ([], R)
  | u :: us, R =>
    let (qs, R') := knuthLoop D V us R
    let (q, R'') := knuthStep D (u :: R') V
    (q :: qs, R'')

/-- Multi-word divisor: the listing after R224 (Knuth Algorithm D; informative in the spec), for a divisor of at
least two significant words. Quotient and remainder, without the zero words at the top. DEDUCED (log entry 18); safe. -/
def knuthD (D : Nat) (A B : List Digit) : List Digit × List Digit :=
  let B' := significant B
  let A' := significant A
  let m := B'.length
  if A'.length < m then ([], A')
  else
    let s := leadingZeros D (B'.getD (m - 1) 0)
    let V := shiftInto D s m B' 0
    let U := shiftInto D s (A'.length + 1) A' 0
    let (q, r) := knuthLoop D V (U.take (A'.length - m + 1)) (U.drop (A'.length - m + 1))
    (q, shiftDown D s r)

/-- Zero words appended up to `n` words. -/
def padTo (n : Nat) (ws : List Digit) : List Digit := ws ++ List.replicate (n - ws.length) 0

/-- UDIV and UREM at word level, for a divisor other than 0 (R223, R224): "a fast single-word-divisor path when the
divisor fits one word". -/
def divWords (D : Nat) (A B : List Digit) : List Digit × List Digit :=
  match significant B with
  | [d] =>
    let (q, r) := divSmall D d A
    (q, padTo A.length [r])
  | _ =>
    let (q, r) := knuthD D A B
    (padTo A.length q, padTo A.length r)

/-- SDIV and SREM at word level (R225): two UMAG steps, one unsigned division, then NEG of the quotient if the signs
differ and of the remainder if the dividend was negative. -/
def sdivWords (D w : Nat) (sa sb : Bool) (A B : List Digit) : List Digit × List Digit :=
  let ma := if sa then negWords D w A else A
  let mb := if sb then negWords D w B else B
  let (q, r) := divWords D ma mb
  (if sa = sb then q else negWords D w q, if sa then negWords D w r else r)

/-! ### Bitwise array and shifter -/

/-- NOT at word level (R254): complement every word, mask the top word. -/
def notWords (D w : Nat) (A : List Digit) : List Digit := maskTop D w (A.map (2 ^ D - 1 - ·))

/-- `A[k]`, with `A[k] = 0` "for any index `k` outside `0 .. n-1`" (R270). -/
def wordAt (A : List Digit) (k : Int) : Digit := if 0 ≤ k then A.getD k.toNat 0 else 0

/-- Left shift of a word sequence by `amt < w` (R270), masked. -/
def shlWords (D w amt : Nat) (A : List Digit) : List Digit :=
  let ws := amt / D
  let bs := amt % D
  maskTop D w <| (List.range A.length).map fun i =>
    ((wordAt A ((i : Int) - ws) <<< bs) % base D) |||
      (if bs = 0 then 0 else wordAt A ((i : Int) - ws - 1) >>> (D - bs))

/-- Right shift of a word sequence by `amt < w` (R270). -/
def lshrWords (D amt : Nat) (A : List Digit) : List Digit :=
  let ws := amt / D
  let bs := amt % D
  (List.range A.length).map fun i =>
    (wordAt A ((i : Int) + ws) >>> bs) |||
      (if bs = 0 then 0 else (wordAt A ((i : Int) + ws + 1) <<< (D - bs)) % base D)

/-- SHL at word level (R255, R270): all zero words for `amt >= w`. -/
def shlDatapath (D w amt : Nat) (A : List Digit) : List Digit :=
  if amt < w then shlWords D w amt A else List.replicate A.length 0

/-- LSHR at word level (R256, R270): all zero words for `amt >= w`. -/
def lshrDatapath (D w amt : Nat) (A : List Digit) : List Digit :=
  if amt < w then lshrWords D amt A else List.replicate A.length 0

/-- Word `k` of the pattern whose bits `w-1 .. lo` are 1. -/
def onesFrom (D lo w k : Nat) : Digit := (2 ^ w - 2 ^ lo) / base D ^ k % base D

/-- ASHR at word level (R257): LSHR by `min(amt, w)`, then bits `w-1 .. w - min(amt, w)` set if the sign bit was
1. -/
def ashrWords (D w amt : Nat) (sign : Bool) (A : List Digit) : List Digit :=
  let n := min amt w
  let low := lshrDatapath D w n A
  if sign then low.mapIdx fun k d => d ||| onesFrom D (w - n) w k else low

/-- ROL at word level (R258): `SHL(a, r) | LSHR(a, w - r)` for `r = amt mod w` other than 0. -/
def rolWords (D w amt : Nat) (A : List Digit) : List Digit :=
  let r := amt % w
  if r = 0 then A else List.zipWith (· ||| ·) (shlWords D w r A) (lshrWords D (w - r) A)

/-- ROR at word level (R259: "`ror n` equals `rol (w - n mod w)`"). -/
def rorWords (D w amt : Nat) (A : List Digit) : List Digit := rolWords D w (w - amt % w) A

/-! ### Comparison and tests -/

/-- UCMP at word level (R291): from the top word down, the first word that differs decides. -/
def ucmpWords : List Digit → List Digit → Ordering
  | a :: as, b :: bs =>
    match ucmpWords as bs with
    | .eq => if a < b then .lt else if a = b then .eq else .gt
    | o => o
  | _, _ => .eq

/-- ISZERO at word level (R293): every word is 0. -/
def isZeroWords (A : List Digit) : Bool := A.all (· == 0)

/-- ISONES at word level (R294): every word below the top is `BASE - 1`, the top word is `topmask(w)`. -/
def isOnesWords (D w : Nat) : List Digit → Bool
  | [] => true
  | [d] => d == topmask D w
  | d :: e :: ds => d == base D - 1 && isOnesWords D w (e :: ds)

/-- SIGN at word level (R295): bit `(w - 1) mod D` of the top word. -/
def signWords (D w : Nat) (A : List Digit) : Bool := ((A.getLast?).getD 0).testBit ((w - 1) % D)

/-! ### Radix conversion -/

/-- One step of R324: `ACC * radix + dv`, word by word; the words and the carry out of the top word. -/
def accStep (D radix : Nat) : List Digit → Nat → List Digit × Nat
  | [], carry => ([], carry)
  | a :: as, carry =>
    let (hi, lo) := dmulw D a radix
    let t := lo + carry
    let (rs, out) := accStep D radix as (hi + t / base D)
    (t % base D :: rs, out)

/-- The step's overflow test (R324): "`carry != 0` or `ACC[n-1] & ~topmask(w) != 0`". -/
def accOverflow (D w : Nat) (acc : List Digit) (carry : Nat) : Bool :=
  decide (carry ≠ 0) || decide ((acc.getLast?).getD 0 &&& (2 ^ D - 1 - topmask D w) ≠ 0)

/-- Parse accumulation over the digit values (R324); overflow is sticky. -/
def accumulate (D w radix : Nat) : List Nat → List Digit → Bool → List Digit × Bool
  | [], acc, ov => (acc, ov)
  | dv :: dvs, acc, ov =>
    let (acc', carry) := accStep D radix acc dv
    accumulate D w radix dvs acc' (ov || accOverflow D w acc' carry)

/-- Format digit extraction (R325): repeated `divSmall` by the radix, the character of each remainder, most
significant first in the result; `fuel` bounds the number of digits. -/
def extractDigits (D radix : Nat) : Nat → List Digit → List Digit → List Digit
  | 0, _, acc => acc
  | fuel + 1, m, acc =>
    if isZeroWords m then acc
    else
      let (q, r) := divSmall D radix m
      extractDigits D radix fuel q (digitChar r :: acc)

/-- FORMAT's digits at word level (R325): for 0 one `0` is emitted. -/
def formatWords (D radix fuel : Nat) (m : List Digit) : List Digit :=
  if isZeroWords m then [0x30] else extractDigits D radix fuel m []

end Sys2Proof.Machine
end

