-- ==== Sys2Proof/Safety.lean ====
section
/-! DEFINITION. The terms claims are stated in: the invariant of every reachable state, what a command reads and
writes, and the frames of success and failure. -/

namespace Sys2Proof

/-! ### Which fields a command uses (30_encoding.md R98) -/

/-- The first source register, if the command has one. -/
def Instr.src1 : Instr → Option RegNo
  | .rdsr _ | .clrerr | .xclr | .xpush _ | .xread _ | .fromprim _ _ _ _ _ | .fromwords _ _ | .drop _
  | .parse _ _ _ _ => none
  | .toprim a _ _ | .towords a | .getw a | .iszero a | .isones a | .sign a | .format a _ _ => some a
  | .copy _ a | .neg _ a | .umag _ a | .not _ a => some a
  | .trunc _ a _ | .zext _ a _ | .sext _ a _ | .shl _ a _ | .lshr _ a _ | .ashr _ a _ | .rol _ a _
  | .ror _ a _ => some a
  | .add _ a _ | .addco _ a _ | .sub _ a _ | .subbo _ a _ | .mul _ a _ | .udiv _ a _ | .urem _ a _ | .sdiv _ a _
  | .srem _ a _ | .and _ a _ | .or _ a _ | .xor _ a _ | .ucmp a _ | .scmp a _ => some a

/-- The second source register, if the command has one: exactly the two-source commands of 41_storage_width.md
R153. -/
def Instr.src2 : Instr → Option RegNo
  | .rdsr _ | .clrerr | .xclr | .xpush _ | .xread _ | .fromprim _ _ _ _ _ | .fromwords _ _ | .drop _
  | .parse _ _ _ _ => none
  | .toprim _ _ _ | .towords _ | .getw _ | .iszero _ | .isones _ | .sign _ | .format _ _ _ => none
  | .copy _ _ | .neg _ _ | .umag _ _ | .not _ _ => none
  | .trunc _ _ _ | .zext _ _ _ | .sext _ _ _ | .shl _ _ _ | .lshr _ _ _ | .ashr _ _ _ | .rol _ _ _
  | .ror _ _ _ => none
  | .add _ _ b | .addco _ _ b | .sub _ _ b | .subbo _ _ b | .mul _ _ b | .udiv _ _ b | .urem _ _ b | .sdiv _ _ b
  | .srem _ _ b | .and _ _ b | .or _ _ b | .xor _ _ b | .ucmp _ b | .scmp _ b => some b

/-- The destination register, if the command has one. -/
def Instr.dest : Instr → Option RegNo
  | .rdsr _ | .clrerr | .xclr | .xpush _ | .xread _ | .toprim _ _ _ | .towords _ | .getw _ | .ucmp _ _ | .scmp _ _
  | .iszero _ | .isones _ | .sign _ | .format _ _ _ => none
  | .fromprim d _ _ _ _ | .fromwords d _ | .drop d | .parse d _ _ _ => some d
  | .copy d _ | .neg d _ | .umag d _ | .not d _ => some d
  | .trunc d _ _ | .zext d _ _ | .sext d _ _ | .shl d _ _ | .lshr d _ _ | .ashr d _ _ | .rol d _ _
  | .ror d _ _ => some d
  | .add d _ _ | .addco d _ _ | .sub d _ _ | .subbo d _ _ | .mul d _ _ | .udiv d _ _ | .urem d _ _ | .sdiv d _ _
  | .srem d _ _ | .and d _ _ | .or d _ _ | .xor d _ _ => some d

/-- The same command with another destination; a command without one is itself. -/
def Instr.withDest (q : RegNo) : Instr → Instr
  | .rdsr imm => .rdsr imm
  | .clrerr => .clrerr
  | .xclr => .xclr
  | .xpush v => .xpush v
  | .xread imm => .xread imm
  | .fromprim _ sgn pw imm v => .fromprim q sgn pw imm v
  | .toprim a sgn pw => .toprim a sgn pw
  | .fromwords _ imm => .fromwords q imm
  | .towords a => .towords a
  | .getw a => .getw a
  | .copy _ a => .copy q a
  | .drop _ => .drop q
  | .trunc _ a imm => .trunc q a imm
  | .zext _ a imm => .zext q a imm
  | .sext _ a imm => .sext q a imm
  | .add _ a b => .add q a b
  | .addco _ a b => .addco q a b
  | .sub _ a b => .sub q a b
  | .subbo _ a b => .subbo q a b
  | .neg _ a => .neg q a
  | .umag _ a => .umag q a
  | .mul _ a b => .mul q a b
  | .udiv _ a b => .udiv q a b
  | .urem _ a b => .urem q a b
  | .sdiv _ a b => .sdiv q a b
  | .srem _ a b => .srem q a b
  | .and _ a b => .and q a b
  | .or _ a b => .or q a b
  | .xor _ a b => .xor q a b
  | .not _ a => .not q a
  | .shl _ a imm => .shl q a imm
  | .lshr _ a imm => .lshr q a imm
  | .ashr _ a imm => .ashr q a imm
  | .rol _ a imm => .rol q a imm
  | .ror _ a imm => .ror q a imm
  | .ucmp a b => .ucmp a b
  | .scmp a b => .scmp a b
  | .iszero a => .iszero a
  | .isones a => .isones a
  | .sign a => .sign a
  | .parse _ sgn radix imm => .parse q sgn radix imm
  | .format a sgn radix => .format a sgn radix

/-- The BitWidth in `imm`, for the six commands that take one (30_encoding.md R100 stage 2). -/
def Instr.widthImm : Instr → Option Imm
  | .fromprim _ _ _ imm _ | .fromwords _ imm | .parse _ _ _ imm | .trunc _ _ imm | .zext _ _ imm
  | .sext _ _ imm => some imm
  | .rdsr _ | .clrerr | .xclr | .xpush _ | .xread _ | .toprim _ _ _ | .towords _ | .getw _ | .copy _ _ | .drop _
  | .add _ _ _ | .addco _ _ _ | .sub _ _ _ | .subbo _ _ _ | .neg _ _ | .umag _ _ | .mul _ _ _ | .udiv _ _ _
  | .urem _ _ _ | .sdiv _ _ _ | .srem _ _ _ | .and _ _ _ | .or _ _ _ | .xor _ _ _ | .not _ _ | .shl _ _ _
  | .lshr _ _ _ | .ashr _ _ _ | .rol _ _ _ | .ror _ _ _ | .ucmp _ _ | .scmp _ _ | .iszero _ | .isones _
  | .sign _ | .format _ _ _ => none

/-- The divisions: the commands that raise `DivisionByZero` (60_exceptions.md R374). -/
def Instr.isDivision : Instr → Bool
  | .udiv _ _ _ | .urem _ _ _ | .sdiv _ _ _ | .srem _ _ _ => true
  | .rdsr _ | .clrerr | .xclr | .xpush _ | .xread _ | .fromprim _ _ _ _ _ | .toprim _ _ _ | .fromwords _ _
  | .towords _ | .getw _ | .copy _ _ | .drop _ | .trunc _ _ _ | .zext _ _ _ | .sext _ _ _ | .add _ _ _
  | .addco _ _ _ | .sub _ _ _ | .subbo _ _ _ | .neg _ _ | .umag _ _ | .mul _ _ _ | .and _ _ _ | .or _ _ _
  | .xor _ _ _ | .not _ _ | .shl _ _ _ | .lshr _ _ _ | .ashr _ _ _ | .rol _ _ _ | .ror _ _ _ | .ucmp _ _
  | .scmp _ _ | .iszero _ | .isones _ | .sign _ | .parse _ _ _ _ | .format _ _ _ => false

/-- The commands that only read (20_memory.md R67). -/
def Instr.isReader : Instr → Bool
  | .xread _ | .rdsr _ | .getw _ | .towords _ | .toprim _ _ _ | .format _ _ _ | .ucmp _ _ | .scmp _ _ | .iszero _
  | .isones _ | .sign _ => true
  | .clrerr | .xclr | .xpush _ | .fromprim _ _ _ _ _ | .fromwords _ _ | .copy _ _ | .drop _ | .trunc _ _ _
  | .zext _ _ _ | .sext _ _ _ | .add _ _ _ | .addco _ _ _ | .sub _ _ _ | .subbo _ _ _ | .neg _ _ | .umag _ _
  | .mul _ _ _ | .udiv _ _ _ | .urem _ _ _ | .sdiv _ _ _ | .srem _ _ _ | .and _ _ _ | .or _ _ _ | .xor _ _ _
  | .not _ _ | .shl _ _ _ | .lshr _ _ _ | .ashr _ _ _ | .rol _ _ _ | .ror _ _ _ | .parse _ _ _ _ => false

/-- The commands whose result depends on the Digit size: the word views and the status registers
(91_not_in_source.md N29: "TOWORDS, FROMWORDS, XPUSH truncation, `SR_DIGIT_BITS`"). -/
def Instr.seesDigits : Instr → Bool
  | .rdsr _ | .xpush _ | .fromwords _ _ | .towords _ => true
  | .clrerr | .xclr | .xread _ | .fromprim _ _ _ _ _ | .toprim _ _ _ | .getw _ | .copy _ _ | .drop _
  | .trunc _ _ _ | .zext _ _ _ | .sext _ _ _ | .add _ _ _ | .addco _ _ _ | .sub _ _ _ | .subbo _ _ _ | .neg _ _
  | .umag _ _ | .mul _ _ _ | .udiv _ _ _ | .urem _ _ _ | .sdiv _ _ _ | .srem _ _ _ | .and _ _ _ | .or _ _ _
  | .xor _ _ _ | .not _ _ | .shl _ _ _ | .lshr _ _ _ | .ashr _ _ _ | .rol _ _ _ | .ror _ _ _ | .ucmp _ _
  | .scmp _ _ | .iszero _ | .isones _ | .sign _ | .parse _ _ _ _ | .format _ _ _ => false

/-- The commands whose rule gives `rsp.flag` a value (30_encoding.md R96). -/
def Instr.givesFlag : Instr → Bool
  | .addco _ _ _ | .subbo _ _ _ | .umag _ _ | .iszero _ | .isones _ | .sign _ => true
  | .rdsr _ | .clrerr | .xclr | .xpush _ | .xread _ | .fromprim _ _ _ _ _ | .toprim _ _ _ | .fromwords _ _
  | .towords _ | .getw _ | .copy _ _ | .drop _ | .trunc _ _ _ | .zext _ _ _ | .sext _ _ _ | .add _ _ _
  | .sub _ _ _ | .neg _ _ | .mul _ _ _ | .udiv _ _ _ | .urem _ _ _ | .sdiv _ _ _ | .srem _ _ _ | .and _ _ _
  | .or _ _ _ | .xor _ _ _ | .not _ _ | .shl _ _ _ | .lshr _ _ _ | .ashr _ _ _ | .rol _ _ _ | .ror _ _ _
  | .ucmp _ _ | .scmp _ _ | .parse _ _ _ _ | .format _ _ _ => false

/-- The commands whose rule gives `rsp.data` a value (30_encoding.md R96). -/
def Instr.givesData : Instr → Bool
  | .getw _ | .towords _ | .toprim _ _ _ | .format _ _ _ | .ucmp _ _ | .scmp _ _ | .xread _ | .rdsr _ => true
  | .clrerr | .xclr | .xpush _ | .fromprim _ _ _ _ _ | .fromwords _ _ | .copy _ _ | .drop _ | .trunc _ _ _
  | .zext _ _ _ | .sext _ _ _ | .add _ _ _ | .addco _ _ _ | .sub _ _ _ | .subbo _ _ _ | .neg _ _ | .umag _ _
  | .mul _ _ _ | .udiv _ _ _ | .urem _ _ _ | .sdiv _ _ _ | .srem _ _ _ | .and _ _ _ | .or _ _ _ | .xor _ _ _
  | .not _ _ | .shl _ _ _ | .lshr _ _ _ | .ashr _ _ _ | .rol _ _ _ | .ror _ _ _ | .iszero _ | .isones _ | .sign _
  | .parse _ _ _ _ => false

namespace Machine

/-! ### The invariant -/

/-- A value a VALID register may hold (10_state.md R22, R23 at value level). -/
abbrev ApInt.WF (c : Cfg) (a : ApInt) : Prop := 1 ≤ a.w ∧ a.w ≤ c.maxWidth ∧ a.u < 2 ^ a.w

/-- What every command boundary satisfies. -/
structure State.Inv (s : State) : Prop where
  /-- The configuration is legal (00_scope.md R6). -/
  cfg : s.cfg.WF
  /-- Every VALID register holds a canonical value of a legal BitWidth (10_state.md R23). -/
  regs : ∀ r a, s.readX r = some a → a.WF s.cfg
  /-- XBUF holds at most XCAP Digits (10_state.md R32). -/
  mem : Memory.WF s.cfg s.xbuf
  /-- LASTERR is one of the codes 0 to 12 (60_exceptions.md R371). -/
  lasterr : s.lasterr.toNat ≤ 12
  /-- EXPECTED and FOUND are both 0, or two different legal BitWidths (10_state.md R36). -/
  widths : (s.expected = 0#32 ∧ s.found = 0#32) ∨
    (s.expected ≠ s.found ∧ 1 ≤ s.expected.toNat ∧ s.expected.toNat ≤ s.cfg.maxWidth ∧
      1 ≤ s.found.toNat ∧ s.found.toNat ≤ s.cfg.maxWidth)
  /-- Every response has a code 0 to 12, and flag and data 0 when it reports an error (30_encoding.md R96). -/
  responses : ∀ r ∈ s.responses, r.err.toNat ≤ 12 ∧ (r.err ≠ 0#4 → r.flag = false ∧ r.data = 0#64)

/-! ### Frames -/

/-- No value register changes. -/
def SameRegs (s t : State) : Prop := ∀ r, t.readX r = s.readX r

/-- No value register but `rd` changes. -/
def SameRegsBut (rd : RegNo) (s t : State) : Prop := ∀ r, r ≠ rd → t.readX r = s.readX r

/-- XLEN and every entry of XBUF read as before. -/
def SameMemory (s t : State) : Prop := t.xlen = s.xlen ∧ ∀ k, Memory.entry t.xbuf k = Memory.entry s.xbuf k

/-- The error log is as before. -/
def SameLog (s t : State) : Prop := t.lasterr = s.lasterr ∧ t.expected = s.expected ∧ t.found = s.found

/-- The configuration and what the host has still presented are as before. -/
def SameHost (s t : State) : Prop := t.cfg = s.cfg ∧ t.pending = s.pending

/-- One response `(err, flag, data)` was produced; `data` is the number in its 64 bits. -/
def Responds (s t : State) (err : BitVec 4) (flag : Bool) (data : Nat) : Prop :=
  ∃ d : Word64, d.toNat = data ∧ t.responses = s.responses ++ [{ err := err, flag := flag, data := d }]

/-- `i` completes at `s` with no error, the given flag and data 0, and `x[rd] <- v` as its only write. -/
def WritesReg (i : Instr) (s : State) (rd : RegNo) (v : Option ApInt) (flag : Bool) : Prop :=
  ∃ t, exec i s = .next t ∧ t.readX rd = v ∧ SameRegsBut rd s t ∧ SameMemory s t ∧ SameLog s t ∧ SameHost s t ∧
    Responds s t 0#4 flag 0

/-- `i` completes at `s` with no error, the given flag and data, and writes nothing. -/
def WritesNothing (i : Instr) (s : State) (flag : Bool) (data : Nat) : Prop :=
  ∃ t, exec i s = .next t ∧ SameRegs s t ∧ SameMemory s t ∧ SameLog s t ∧ SameHost s t ∧
    Responds s t 0#4 flag data

/-- `i` completes at `s` with no error and the given data, and the exchange buffer becomes `m`; nothing else is
written. -/
def WritesMemory (i : Instr) (s : State) (m : Memory) (data : Nat) : Prop :=
  ∃ t, exec i s = .next t ∧ t.xbuf = m ∧ SameRegs s t ∧ SameLog s t ∧ SameHost s t ∧ Responds s t 0#4 false data

/-- What a failure with kind `e` leaves (60_exceptions.md R380): nothing but the error log and the response. -/
def FailedWith (s t : State) (e : CmdError) : Prop :=
  SameRegs s t ∧ SameMemory s t ∧ SameHost s t ∧ t.lasterr = e.code ∧
    t.expected = e.expectedAfter s.expected ∧ t.found = e.foundAfter s.found ∧ Responds s t e.code false 0

/-- `i` fails at `s` with kind `e`. -/
def Fails (i : Instr) (s : State) (e : CmdError) : Prop := ∃ t, exec i s = .next t ∧ FailedWith s t e

/-! ### Where the checks of the command cycle stand (30_encoding.md R100) -/

/-- `i` is a command of opcode `op` and format `f` (30_encoding.md R98, R101): some word spells it, every word that does
has that opcode and no bit set outside the opcode and the fields of the format, and a word of that opcode with such
a bit set is answered with `IllegalCommand`. -/
def Spelt (i : Instr) (op : BitVec 8) (f : Format) : Prop :=
  (∃ cw cdata, decode cw cdata = .instr i) ∧
  (∀ cw cdata, decode cw cdata = .instr i → opcodeOf cw = op ∧ cw &&& ~~~(maskOp ||| f.used) = 0#64) ∧
  ∀ (s : State) (cw cdata : Word64) (rest : List HostEvent), s.pending = .command cw cdata :: rest →
    opcodeOf cw = op → cw &&& ~~~(maskOp ||| f.used) ≠ 0#64 →
    ∃ t, step s = .next t ∧ FailedWith { s with pending := rest } t .illegalCommand

/-- Stage 2 for a command with a BitWidth in `imm`: `WidthOutOfRange` outside `1 .. MAX_WIDTH`, else `P` of the
width. -/
def WidthChecked (i : Instr) (s : State) (imm : Imm) (P : Nat → Prop) : Prop :=
  (imm.toNat = 0 ∨ s.cfg.maxWidth < imm.toNat → Fails i s .widthOutOfRange) ∧
  (1 ≤ imm.toNat → imm.toNat ≤ s.cfg.maxWidth → P imm.toNat)

/-- Stage 3 for a one-source command: `EmptyRegister` if the source is EMPTY, else `P` of its value. -/
def OneSource (i : Instr) (s : State) (rs1 : RegNo) (P : ApInt → Prop) : Prop :=
  (s.readX rs1 = none → Fails i s .emptyRegister) ∧ ∀ a, s.readX rs1 = some a → P a

/-- Stages 3 and 4 for a two-source command: `EmptyRegister` if a source is EMPTY, `WidthMismatch` if the BitWidths
differ, else `P` of the two values. -/
def TwoSource (i : Instr) (s : State) (rs1 rs2 : RegNo) (P : ApInt → ApInt → Prop) : Prop :=
  (s.readX rs1 = none ∨ s.readX rs2 = none → Fails i s .emptyRegister) ∧
  ∀ a b, s.readX rs1 = some a → s.readX rs2 = some b →
    (a.w ≠ b.w → Fails i s (.widthMismatch a.w b.w)) ∧ (a.w = b.w → P a b)

/-- As `TwoSource`, then `DivisionByZero` for a zero divisor (42_arithmetic.md R208). -/
def Division (i : Instr) (s : State) (rs1 rs2 : RegNo) (P : ApInt → ApInt → Prop) : Prop :=
  TwoSource i s rs1 rs2 fun a b => (b.u = 0 → Fails i s .divisionByZero) ∧ (b.u ≠ 0 → P a b)

/-! ### Whole runs and pairs of states -/

/-- The state of the block after reset (10_state.md R45). -/
def State.AtReset (s : State) : Prop :=
  (∀ r, s.readX r = none) ∧ s.xlen = 0 ∧ s.lasterr = 0#4 ∧ s.expected = 0#32 ∧ s.found = 0#32 ∧
  s.statusReg 0 = some s.cfg.digitBits.bits ∧ s.statusReg 1 = some s.cfg.maxWidth ∧ s.statusReg 2 = some 16 ∧
  s.statusReg 3 = some (s.cfg.maxWidth + 1) ∧ s.statusReg 8 = some 0

/-- The state after one command is presented to a block in state `s` (30_encoding.md R91), without the host's list of
what it presents next. -/
def afterCommand (s : State) (cmd : Word64 × Word64) : State :=
  match decode cmd.1 cmd.2 with
  | .illegal _ => s.raise .illegalCommand
  | .instr i =>
    match exec i s with
    | .next t => t
    | .fault _ => s
    | .refused _ => s

/-- The code of the latest command that failed since the last CLRERR, 0 if none has (10_state.md R35), from the commands
and their responses, the latest first. -/
def latestFailure : List ((Word64 × Word64) × Response) → BitVec 4
  | [] => 0#4
  | (cmd, r) :: older =>
    if r.err ≠ 0#4 then r.err
    else if decode cmd.1 cmd.2 = .instr .clrerr then 0#4
    else latestFailure older

/-- Two states that differ at most in the error log. -/
def AgreeButLog (s s' : State) : Prop :=
  s.cfg = s'.cfg ∧ s.x = s'.x ∧ s.xbuf = s'.xbuf ∧ s.pending = s'.pending ∧ s.responses = s'.responses

/-- Two states that differ at most in the Digit size of their configurations. -/
def AgreeButDigits (s s' : State) : Prop := s' = { s with cfg := { s.cfg with digitBits := s'.cfg.digitBits } }

/-- The words of a value are canonical (10_state.md R23): exactly `nwords(w)` Digits, no bit above `topmask(w)` in the top
word. -/
def Canonical (D : Nat) (a : ApInt) : Prop :=
  (a.words D).length = nwords D a.w ∧ (∀ d ∈ a.words D, d < base D) ∧
    ((a.words D).getLast?).getD 0 &&& (2 ^ D - 1 - topmask D a.w) = 0

/-- The reserved opcodes, as 30_encoding.md R99 lists them. -/
def ReservedOpcode (n : Nat) : Prop :=
  n = 0x00 ∨ (0x06 ≤ n ∧ n ≤ 0x0F) ∨ (0x1A ≤ n ∧ n ≤ 0x1F) ∨ n = 0x27 ∨ (0x2C ≤ n ∧ n ≤ 0x2F) ∨
  (0x34 ≤ n ∧ n ≤ 0x37) ∨ (0x3D ≤ n ∧ n ≤ 0x3F) ∨ n = 0x42 ∨ n = 0x43 ∨ (0x47 ≤ n ∧ n ≤ 0x4F) ∨
  (0x52 ≤ n ∧ n ≤ 0xFF)

/-- A character that is a valid digit for a radix (45_convert_radix.md R321). -/
def ValidDigit (radix : Nat) (c : Digit) : Prop := ∃ v, digitval c = some v ∧ v < radix

/-- The number a digit string stands for: `V = V * radix + dv` from the left (45_convert_radix.md R322). -/
def textValue (radix : Nat) (cs : List Digit) : Nat := cs.foldl (fun V c => V * radix + (digitval c).getD 0) 0

/-- `cs` is the digit string of `m` (45_convert_radix.md R323): `0` for zero, else digits of the radix in lower case, with
no leading `0`, that stand for `m`. -/
def IsDigitsOf (radix m : Nat) (cs : List Digit) : Prop :=
  (m = 0 → cs = [0x30]) ∧
  (m ≠ 0 → (∀ c ∈ cs, ValidDigit radix c ∧ ¬(0x41 ≤ c ∧ c ≤ 0x5A)) ∧ (∃ c, cs.head? = some c ∧ c ≠ 0x30) ∧
    textValue radix cs = m)

end Machine

end Sys2Proof
end

