-- ==== Sys2Proof/Certificates/Slice0/Obligations.lean ====
section
/-! DEFINITION. The statements about the model, from the numbered rules of spec/. Each docstring names the rules or
sections it formalises. A command's frame is in `WritesReg`, `WritesNothing`, `WritesMemory` and `FailedWith` of
Sys2Proof/Safety.lean; its spelling and the `IllegalCommand` its opcode can raise in `Spelt`. -/

open Sys2Proof Sys2Proof.Machine

/-- O1. After reset registers are EMPTY, XLEN and the error log 0, status registers constant; the model's own fields
stay (its choice, log entries 1 to 4). Rests on 10_state.md section 6 (R45), 70_reset_and_hazards.md section 1
(R410, R411), log entry 4. -/
def Obligations.ResetLeavesTheResetState : Prop :=
  (∀ c : Cfg, (State.resetWith c).AtReset) ∧
  ∀ (s : State) (rest : List HostEvent), s.pending = .reset :: rest →
    ∃ t, step s = .next t ∧ t.AtReset ∧ t.cfg = s.cfg ∧ t.pending = rest ∧ t.responses = s.responses

/-- O2. The reset state meets the invariant, in the default configuration (the model's choice, log entry 1) and in every
legal one. Formalises 10_state.md section 6, 10_state.md section 2. -/
def Obligations.ResetMeetsTheInvariant : Prop :=
  State.reset.Inv ∧ State.reset.cfg = { digitBits := .d64, maxWidth := 4096 } ∧
  ∀ c : Cfg, c.WF → (State.resetWith c).Inv

/-- O3. Every step from a state that meets the invariant answers a next state that meets it, with canonical registers.
Formalises R23. -/
def Obligations.StepKeepsTheInvariant : Prop :=
  ∀ s : State, s.Inv → ∃ t, step s = .next t ∧ t.Inv ∧
    ∀ r a, t.readX r = some a → Canonical t.cfg.digitBits.bits a

/-- O4. A step takes what the host presents next and is exec of the instruction its two words decode to. Formalises
20_memory.md section 3, 30_encoding.md section 5. -/
def Obligations.StepRunsTheDecodedInstruction : Prop :=
  (∀ s : State, s.pending = [] → step s = .next s) ∧
  (∀ (s : State) (cw cdata : Word64) (rest : List HostEvent) (i : Instr),
    s.pending = .command cw cdata :: rest → decode cw cdata = .instr i →
    step s = exec i { s with pending := rest }) ∧
  ∀ (s : State) (nbits w : Nat) (i : Instr), decodeTableWord nbits w = some i →
    step (s.withFetchWord nbits w) = exec i s

/-- O5. The state after a sequence of commands is the left fold of the step function over it; errors do not end the run.
Formalises R70, R431. -/
def Obligations.RunIsTheLeftFold : Prop :=
  ∀ (s : State) (cmds : List (Word64 × Word64)), s.pending = cmds.map (fun c => .command c.1 c.2) →
    ∃ t : State, Host.Core.run Sys2Proof.core cmds.length s = .next t ∧
      t = cmds.foldl afterCommand { s with pending := [] } ∧ t.pending = [] ∧
      t.responses.length = s.responses.length + cmds.length ∧ s.responses <+: t.responses

/-- O6. Every one of the 2^128 command inputs is answered with exactly one response. Formalises R90, R91. -/
def Obligations.EveryCommandIsAnsweredOnce : Prop :=
  ∀ (s : State) (cw cdata : Word64) (rest : List HostEvent), s.pending = .command cw cdata :: rest →
    ∃ t r, step s = .next t ∧ t.responses = s.responses ++ [r] ∧ t.pending = rest ∧ t.cfg = s.cfg ∧
      ((∀ i, decode cw cdata ≠ .instr i) → r.err = 9#4)

/-- O7. A response's flag, data and error code are only what the command may produce. Formalises R371. -/
def Obligations.ResponseFieldsAndErrorCodes : Prop :=
  (∀ e f, (CmdError.widthMismatch e f).code = 1#4) ∧ CmdError.invalidWidthArgument.code = 2#4 ∧
  CmdError.divisionByZero.code = 3#4 ∧ CmdError.invalidWordCount.code = 4#4 ∧ CmdError.invalidRadix.code = 5#4 ∧
  CmdError.invalidDigitForRadix.code = 6#4 ∧ CmdError.emptyString.code = 7#4 ∧ CmdError.valueOutOfRange.code = 8#4 ∧
  CmdError.illegalCommand.code = 9#4 ∧ CmdError.emptyRegister.code = 10#4 ∧ CmdError.widthOutOfRange.code = 11#4 ∧
  CmdError.exchangeIndex.code = 12#4 ∧
  (∀ (i : Instr) (s t : State), exec i s = .next t →
    ∃ r, t.responses = s.responses ++ [r] ∧ r.err.toNat ≤ 12 ∧
      (r.flag = true → i.givesFlag = true) ∧ (r.data ≠ 0#64 → i.givesData = true) ∧
      (r.err ≠ 0#4 → r.flag = false ∧ r.data = 0#64) ∧
      (r.err = 1#4 → i.src2.isSome = true) ∧
      (r.err = 2#4 → ∃ rd rs1 imm, i = .trunc rd rs1 imm ∨ i = .zext rd rs1 imm ∨ i = .sext rd rs1 imm) ∧
      (r.err = 3#4 → i.isDivision = true) ∧
      (r.err = 4#4 → ∃ rd imm, i = .fromwords rd imm) ∧
      (r.err = 5#4 → (∃ rd sgn radix imm, i = .parse rd sgn radix imm) ∨ ∃ rs1 sgn radix, i = .format rs1 sgn radix) ∧
      (r.err = 6#4 ∨ r.err = 7#4 → ∃ rd sgn radix imm, i = .parse rd sgn radix imm) ∧
      (r.err = 8#4 → (∃ rs1 sgn pw, i = .toprim rs1 sgn pw) ∨ ∃ rd sgn radix imm, i = .parse rd sgn radix imm) ∧
      (r.err = 9#4 → ∃ imm, i = .rdsr imm ∧ 8 < imm.toNat) ∧
      (r.err = 10#4 → i.src1.isSome = true) ∧
      (r.err = 11#4 → i.widthImm.isSome = true) ∧
      (r.err = 12#4 → (∃ v, i = .xpush v) ∨ ∃ imm, i = .xread imm)) ∧
  ∀ (s : State) (cw cdata : Word64) (rest : List HostEvent), s.pending = .command cw cdata :: rest →
    (∀ i, decode cw cdata ≠ .instr i) →
    ∃ t, step s = .next t ∧ t.responses = s.responses ++ [{ err := 9#4, flag := false, data := 0#64 }]

/-- O8. A failing command changes nothing but the error log and answers its code with flag and data 0. Formalises R380,
R381. -/
def Obligations.FailureChangesOnlyTheErrorLog : Prop :=
  ∀ (s t : State) (cw cdata : Word64) (rest : List HostEvent) (r : Response),
    s.pending = .command cw cdata :: rest → step s = .next t → t.responses = s.responses ++ [r] → r.err ≠ 0#4 →
    ∃ e : CmdError, e.code = r.err ∧ FailedWith { s with pending := rest } t e ∧
      ∀ x y, e = .widthMismatch x y → ∃ i r1 r2 a b, decode cw cdata = .instr i ∧ i.src1 = some r1 ∧
        i.src2 = some r2 ∧ s.readX r1 = some a ∧ s.readX r2 = some b ∧ x = a.w ∧ y = b.w ∧
        (s.Inv → t.expected.toNat = a.w ∧ t.found.toNat = b.w)

/-- O9. Every failing command writes its code to LASTERR, CLRERR sets it to 0, every other success leaves it. Formalises
R35. -/
def Obligations.LasterrHoldsTheLatestFailure : Prop :=
  (∀ (s t : State) (cw cdata : Word64) (rest : List HostEvent) (r : Response),
    s.pending = .command cw cdata :: rest → step s = .next t → t.responses = s.responses ++ [r] →
    t.lasterr = if r.err ≠ 0#4 then r.err else if decode cw cdata = .instr .clrerr then 0#4 else s.lasterr) ∧
  ∀ (c : Cfg) (cmds : List (Word64 × Word64)) (t : State), t = cmds.foldl afterCommand (State.resetWith c) →
    t.lasterr = latestFailure (cmds.zip t.responses).reverse

/-- O10. EXPECTED and FOUND take the two BitWidths of a WidthMismatch, CLRERR sets both to 0, nothing else changes them.
Formalises R36. -/
def Obligations.ExpectedAndFoundHoldTheLatestMismatch : Prop :=
  ∀ (s t : State) (cw cdata : Word64) (rest : List HostEvent) (r : Response), s.Inv →
    s.pending = .command cw cdata :: rest → step s = .next t → t.responses = s.responses ++ [r] →
    (r.err = 1#4 → ∃ i r1 r2 a b, decode cw cdata = .instr i ∧ i.src1 = some r1 ∧ i.src2 = some r2 ∧
      s.readX r1 = some a ∧ s.readX r2 = some b ∧ t.expected.toNat = a.w ∧ t.found.toNat = b.w) ∧
    (decode cw cdata = .instr .clrerr → t.expected = 0#32 ∧ t.found = 0#32) ∧
    (r.err ≠ 1#4 → decode cw cdata ≠ .instr .clrerr → t.expected = s.expected ∧ t.found = s.found)

/-- O11. Two states that differ only in the error log stay so, and only RDSR can tell them apart. Formalises R384. -/
def Obligations.ErrorLogIsReadOnlyByRdsr : Prop :=
  ∀ (i : Instr) (s s' : State), AgreeButLog s s' →
    ∃ t t', exec i s = .next t ∧ exec i s' = .next t' ∧ t.cfg = t'.cfg ∧ t.x = t'.x ∧ t.xbuf = t'.xbuf ∧
      t.pending = t'.pending ∧
      ((∀ imm, i = .rdsr imm → imm.toNat < 5 ∨ 7 < imm.toNat) → t.responses = t'.responses)

/-- O12. A command writes no value register but its destination; a copy is independent of its source. Formalises R25. -/
def Obligations.RegistersAreIndependent : Prop :=
  (∀ (i : Instr) (s t : State) (r : RegNo), exec i s = .next t → i.dest ≠ some r → t.readX r = s.readX r) ∧
  ∀ (s : State) (rd rs1 : RegNo) (a : ApInt), s.readX rs1 = some a →
    ∃ t, exec (.copy rd rs1) s = .next t ∧ t.readX rd = some a ∧ t.readX rs1 = some a

/-- O13. A register becomes VALID, EMPTY or changes BitWidth only as the destination of a command that completes.
Formalises R26, R28. -/
def Obligations.RegisterLifecycleAndWidths : Prop :=
  (∀ (s t : State) (rest : List HostEvent) (r : RegNo), s.pending = .reset :: rest → step s = .next t →
    t.readX r = none) ∧
  ∀ (i : Instr) (s t : State) (x : Response), exec i s = .next t → t.responses = s.responses ++ [x] →
    (∀ r, t.readX r ≠ s.readX r → i.dest = some r ∧ x.err = 0#4) ∧
    (∀ r, s.readX r ≠ none → t.readX r = none → i = .drop r) ∧
    ∀ rd, i.dest = some rd → x.err = 0#4 → i ≠ .drop rd →
      ∃ v, t.readX rd = some v ∧ (∀ imm, i.widthImm = some imm → v.w = imm.toNat) ∧
        (i.widthImm = none → ∃ q a, i.src1 = some q ∧ s.readX q = some a ∧ v.w = a.w) ∧
        ∀ q b, i.src2 = some q → s.readX q = some b → v.w = b.w

/-- O14. The eleven reading commands leave every register unchanged, and repeating one gives the same response.
Formalises R67. -/
def Obligations.ReadersHaveNoSideEffects : Prop :=
  ∀ (i : Instr) (s t t' : State), i.isReader = true → exec i s = .next t → exec i t = .next t' →
    SameRegs s t ∧ (∃ r, t.responses = s.responses ++ [r] ∧ t'.responses = t.responses ++ [r]) ∧ t'.xbuf = t.xbuf ∧
    ((∀ a, i ≠ .towords a) → (∀ a sgn radix, i ≠ .format a sgn radix) → t.xbuf = s.xbuf)

/-- O15. The destination register does not change the result: a command in place computes what it computes elsewhere.
Formalises R420. -/
def Obligations.AliasingIsSafe : Prop :=
  ∀ (i : Instr) (s t t' : State) (rd q : RegNo), i.dest = some rd → exec i s = .next t →
    exec (i.withDest q) s = .next t' →
    ∃ r, t.responses = s.responses ++ [r] ∧ t'.responses = s.responses ++ [r] ∧
      (r.err = 0#4 → t'.readX q = t.readX rd) ∧ (r.err ≠ 0#4 → t' = t)

/-- O16. Only the word view and the status registers depend on the Digit size. Formalises 10_state.md section 2,
00_scope.md section 4, 91_not_in_source.md N29. -/
def Obligations.DigitSizeIsInvisible : Prop :=
  ∀ (i : Instr) (s s' : State), AgreeButDigits s s' → i.seesDigits = false →
    ∃ t t', exec i s = .next t ∧ exec i s' = .next t' ∧ AgreeButDigits t t' ∧
      t'.cfg.digitBits = s'.cfg.digitBits

/-- O17. WidthOutOfRange, EmptyRegister, WidthMismatch, DivisionByZero: raised exactly when they should, in this order.
Formalises R372, R374, R379, R388. -/
def Obligations.ChecksComeInOrder : Prop :=
  ∀ (i : Instr) (s t : State) (r : Response), s.Inv → exec i s = .next t → t.responses = s.responses ++ [r] →
    (r.err = 11#4 ↔ ∃ imm, i.widthImm = some imm ∧ (imm.toNat = 0 ∨ s.cfg.maxWidth < imm.toNat)) ∧
    (r.err = 10#4 ↔ (∀ imm, i.widthImm = some imm → 1 ≤ imm.toNat ∧ imm.toNat ≤ s.cfg.maxWidth) ∧
      ∃ q, (i.src1 = some q ∨ i.src2 = some q) ∧ s.readX q = none) ∧
    (r.err = 1#4 ↔ ∃ r1 r2 a b, i.src1 = some r1 ∧ i.src2 = some r2 ∧ s.readX r1 = some a ∧ s.readX r2 = some b ∧
      a.w ≠ b.w) ∧
    (∀ r1 r2 a b, i.src1 = some r1 → i.src2 = some r2 → s.readX r1 = some a → s.readX r2 = some b → a.w ≠ b.w →
      t.expected.toNat = a.w ∧ t.found.toNat = b.w) ∧
    (r.err = 3#4 ↔ i.isDivision = true ∧ ∃ r1 r2 a b, i.src1 = some r1 ∧ i.src2 = some r2 ∧ s.readX r1 = some a ∧
      s.readX r2 = some b ∧ a.w = b.w ∧ b.u = 0)

/-- O18. Every field of the command word stands at its bit position, unsigned and unscaled. Formalises R94, R97. -/
def Obligations.FieldsStandWhereTheEncodingPutsThem : Prop :=
  (∀ cw cdata : Word64,
    (opcodeOf cw).toNat = cw.toNat % 256 ∧
    (Fields.ofWords cw cdata).rd.val = cw.toNat / 2 ^ 8 % 16 ∧
    (Fields.ofWords cw cdata).rs1.val = cw.toNat / 2 ^ 12 % 16 ∧
    (Fields.ofWords cw cdata).rs2.val = cw.toNat / 2 ^ 16 % 16 ∧
    ((Fields.ofWords cw cdata).sgn = .signed ↔ cw.toNat / 2 ^ 20 % 2 = 1) ∧
    PW (Fields.ofWords cw cdata).pw = 8 * 2 ^ (cw.toNat / 2 ^ 21 % 4) ∧
    (Fields.ofWords cw cdata).radix.toNat = cw.toNat / 2 ^ 24 % 256 ∧
    (Fields.ofWords cw cdata).imm.toNat = cw.toNat / 2 ^ 32 ∧
    (Fields.ofWords cw cdata).cdata = cdata) ∧
  ∀ (op : BitVec 8) (f : Fields),
    f.pack op = op.setWidth 64 ||| BitVec.ofNat 64 f.rd <<< 8 ||| BitVec.ofNat 64 f.rs1 <<< 12 |||
      BitVec.ofNat 64 f.rs2 <<< 16 ||| f.sgn.toBit.setWidth 64 <<< 20 ||| f.pw.toCode.setWidth 64 <<< 21 |||
      f.radix.setWidth 64 <<< 24 ||| f.imm.setWidth 64 <<< 32

/-- O19. Decoding the encoding of any well-formed instruction gives the instruction back. Formalises 30_encoding.md
section 4, 30_encoding.md section 2. -/
def Obligations.DecodeEncodeRoundTrip : Prop :=
  ∀ i : Instr, i.wellFormed = true → decode (encode i).1 (encode i).2 = .instr i

/-- O20. Every command word has one meaning: a decoded instruction is well-formed and encodes to the same word.
Formalises 30_encoding.md section 4, 30_encoding.md section 2. -/
def Obligations.EncodeDecodeRoundTrip : Prop :=
  ∀ (cw cdata : Word64) (i : Instr), decode cw cdata = .instr i →
    i.wellFormed = true ∧ (encode i).1 = cw ∧
    (encode i).2 = if opcodeOf cw = 0x04#8 ∨ opcodeOf cw = 0x10#8 then cdata else 0#64

/-- O21. A command word is accepted iff it is in a row of the opcode table (and RDSR's index is at most 8). Formalises
R101. -/
def Obligations.DecodeAcceptsExactlyTheOpcodeTable : Prop :=
  (∀ cw cdata : Word64, (∃ i, decode cw cdata = .instr i) ↔
    (∃ row ∈ opcodeTable, cw &&& row.2.2 = row.2.1) ∧
    ¬((opcodeOf cw).toNat = 0x01 ∧ 8 < (cw.extractLsb' 32 32).toNat)) ∧
  (∀ (cw cdata : Word64) (i : Instr), decode cw cdata = .instr i →
    ∃ row ∈ opcodeTable, cw &&& row.2.2 = row.2.1 ∧ row.2.1 = i.opcode.setWidth 64) ∧
  (∀ row ∈ opcodeTable, ∃ f build, opcodeRow row.2.1.toNat = some (f, build) ∧ row.2.2 = ~~~f.used) ∧
  (∀ (cw cw' cdata cdata' : Word64) (i : Instr), decode cw cdata = .instr i → decode cw' cdata' = .instr i →
    cw = cw') ∧
  ∀ (s : State) (cw cdata : Word64) (rest : List HostEvent), s.pending = .command cw cdata :: rest →
    (∀ i, decode cw cdata ≠ .instr i) →
    ∃ t, step s = .next t ∧ FailedWith { s with pending := rest } t .illegalCommand

/-- O22. A reserved opcode, a set unused bit or a reserved status index fails with IllegalCommand and changes only the
error log. Formalises R99, R387. -/
def Obligations.ReservedAndIllegalWordsFail : Prop :=
  (∀ (s : State) (cw cdata : Word64) (rest : List HostEvent), s.pending = .command cw cdata :: rest →
    ReservedOpcode (opcodeOf cw).toNat ∨ (∀ row ∈ opcodeTable, cw &&& row.2.2 ≠ row.2.1) ∨
      ((opcodeOf cw).toNat = 0x01 ∧ 8 < (cw.extractLsb' 32 32).toNat) →
    ∃ t, step s = .next t ∧ FailedWith { s with pending := rest } t .illegalCommand) ∧
  (∀ n : BitVec 8, ReservedOpcode n.toNat ↔ opcodeRow n.toNat = none) ∧
  ∀ cdata : Word64, decode 0#64 cdata = .illegal (.reservedOpcode 0#8)

/-- O23. Only FROMPRIM and XPUSH read the data word, and only its low bits. Formalises R95. -/
def Obligations.CdataIsIgnoredWhereUnused : Prop :=
  (∀ cw c c' : Word64, opcodeOf cw ≠ 0x04#8 → opcodeOf cw ≠ 0x10#8 → decode cw c = decode cw c') ∧
  (∀ (s : State) (v v' : Word64), v.toNat % 2 ^ s.cfg.digitBits.bits = v'.toNat % 2 ^ s.cfg.digitBits.bits →
    exec (.xpush v) s = exec (.xpush v') s) ∧
  ∀ (s : State) (rd : RegNo) (sgn : Signedness) (pw : PrimWidth) (imm : Imm) (v v' : Word64),
    v.toNat % 2 ^ PW pw = v'.toNat % 2 ^ PW pw →
    exec (.fromprim rd sgn pw imm v) s = exec (.fromprim rd sgn pw imm v') s

/-- O24. Command words written out from the encoding decode to the commands they stand for. Formalises 30_encoding.md
section 2, 30_encoding.md section 4. -/
def Obligations.WordsWrittenOutDecode : Prop :=
  decode 0x0000000000021320 0 = .instr (.add 3 1 2) ∧
  decode 0x0000001000100110 0xC8 = .instr (.fromprim 1 .signed .p8 16 0xC8) ∧
  decode 0x0000000500000001 0 = .instr (.rdsr 5) ∧
  decode 0x0000000100000005 0 = .instr (.xread 1) ∧
  decode 0x0000004600001219 0 = .instr (.sext 2 1 70) ∧
  decode 0x000000090000123C 0 = .instr (.ror 2 1 9) ∧
  decode 0x0000000000021041 0 = .instr (.scmp 1 2) ∧
  decode 0x0000000024101051 0 = .instr (.format 1 .signed 36) ∧
  decode 0x000000080A100150 0 = .instr (.parse 1 .signed 10 8)

/-- O25. XCLR empties XBUF, XPUSH appends one Digit, XREAD reads one entry; ExchangeIndex when full or beyond XLEN.
Formalises R354, R355, R356, R389. -/
def Obligations.ExchangeBufferCommands : Prop :=
  (Spelt .xclr 0x03 .Z ∧ (∀ v, Spelt (.xpush v) 0x04 .ZD) ∧ ∀ imm, Spelt (.xread imm) 0x05 .I) ∧
  ∀ s : State,
    WritesMemory .xclr s [] 0 ∧
    (∀ v : Word64, (s.xlen = s.cfg.maxWidth + 1 → Fails (.xpush v) s .exchangeIndex) ∧
      (s.xlen < s.cfg.maxWidth + 1 →
        WritesMemory (.xpush v) s (s.xbuf ++ [v.toNat % 2 ^ s.cfg.digitBits.bits]) 0)) ∧
    ∀ imm : Imm, (s.xlen ≤ imm.toNat → Fails (.xread imm) s .exchangeIndex) ∧
      (s.Inv → imm.toNat < s.xlen →
        ∃ d, Memory.entry s.xbuf imm.toNat = some d ∧ WritesNothing (.xread imm) s false d)

/-- O26. RDSR answers the nine status registers modulo 2^32 or fails for a reserved index; CLRERR clears the error log.
Formalises R37, R358, R359. -/
def Obligations.StatusCommands : Prop :=
  (∀ imm : Imm, imm.toNat ≤ 8 → Spelt (.rdsr imm) 0x01 .I) ∧ Spelt .clrerr 0x02 .Z ∧
  (∀ cw cdata : Word64, opcodeOf cw = 0x01#8 → 8 < (cw.extractLsb' 32 32).toNat →
    ∀ i, decode cw cdata ≠ .instr i) ∧
  ∀ s : State,
    (∀ imm : Imm, 8 < imm.toNat → Fails (.rdsr imm) s .illegalCommand) ∧
    WritesNothing (.rdsr 0) s false s.cfg.digitBits.bits ∧
    WritesNothing (.rdsr 1) s false (s.cfg.maxWidth % 2 ^ 32) ∧
    WritesNothing (.rdsr 2) s false 16 ∧
    WritesNothing (.rdsr 3) s false ((s.cfg.maxWidth + 1) % 2 ^ 32) ∧
    WritesNothing (.rdsr 4) s false (s.xlen % 2 ^ 32) ∧
    WritesNothing (.rdsr 5) s false s.lasterr.toNat ∧
    WritesNothing (.rdsr 6) s false s.expected.toNat ∧
    WritesNothing (.rdsr 7) s false s.found.toNat ∧
    (∃ v, v < 2 ^ 16 ∧ (∀ r : RegNo, v.testBit r.val = (s.readX r).isSome) ∧
      WritesNothing (.rdsr 8) s false v) ∧
    ∃ t, exec .clrerr s = .next t ∧ t.lasterr = 0#4 ∧ t.expected = 0#32 ∧ t.found = 0#32 ∧
      SameRegs s t ∧ SameMemory s t ∧ SameHost s t ∧ Responds s t 0#4 false 0

/-- O27. FROMWORDS writes the sum of the words times powers of BASE modulo 2^w, or fails with InvalidWordCount.
Formalises R350, R375. -/
def Obligations.FromwordsBuildsTheValue : Prop :=
  (∀ rd imm, Spelt (.fromwords rd imm) 0x12 .DI) ∧
  ∀ (s : State) (rd : RegNo) (imm : Imm), s.Inv →
    WidthChecked (.fromwords rd imm) s imm fun w =>
      (s.xlen ≠ nwords s.cfg.digitBits.bits w → Fails (.fromwords rd imm) s .invalidWordCount) ∧
      (s.xlen = nwords s.cfg.digitBits.bits w → ∃ v : ApInt, v.w = w ∧
        v.u = ((List.range s.xlen).map fun k => s.xbuf.getD k 0 * 2 ^ (s.cfg.digitBits.bits * k)).sum % 2 ^ w ∧
        v.words s.cfg.digitBits.bits = maskTop s.cfg.digitBits.bits w s.xbuf ∧
        WritesReg (.fromwords rd imm) s rd (some v) false)

/-- O28. TOWORDS replaces XBUF by the words of the value and answers its BitWidth; FROMWORDS then reproduces the value.
Formalises R352. -/
def Obligations.TowordsExposesTheWords : Prop :=
  (∀ rs1, Spelt (.towords rs1) 0x13 .S) ∧
  ∀ (s : State) (rs1 : RegNo), s.Inv →
    OneSource (.towords rs1) s rs1 fun a => ∃ m : Memory,
      m.length = nwords s.cfg.digitBits.bits a.w ∧
      (∀ k, k < m.length → Memory.entry m k =
        some (a.u / 2 ^ (s.cfg.digitBits.bits * k) % 2 ^ s.cfg.digitBits.bits)) ∧
      WritesMemory (.towords rs1) s m a.w ∧
      ∀ (t : State) (rd : RegNo), exec (.towords rs1) s = .next t →
        WritesReg (.fromwords rd (BitVec.ofNat 32 a.w)) t rd (some a) false

/-- O29. Entry k of XBUF after TOWORDS and before FROMWORDS holds bits k*D + D - 1 .. k*D of the value. Formalises R61. -/
def Obligations.WordOrderIsLeastSignificantFirst : Prop :=
  (∀ (s t : State) (rs1 : RegNo) (a : ApInt), s.readX rs1 = some a → exec (.towords rs1) s = .next t →
    ∀ k d j, Memory.entry t.xbuf k = some d → j < s.cfg.digitBits.bits →
      d.testBit j = a.u.testBit (k * s.cfg.digitBits.bits + j)) ∧
  ∀ (s : State) (rd : RegNo) (imm : Imm), s.Inv → 1 ≤ imm.toNat → imm.toNat ≤ s.cfg.maxWidth →
    s.xlen = nwords s.cfg.digitBits.bits imm.toNat →
    ∃ t v, exec (.fromwords rd imm) s = .next t ∧ t.readX rd = some v ∧
      (∀ k d j, Memory.entry s.xbuf k = some d → j < s.cfg.digitBits.bits →
        k * s.cfg.digitBits.bits + j < imm.toNat →
        v.u.testBit (k * s.cfg.digitBits.bits + j) = d.testBit j) ∧
      ∀ j, imm.toNat ≤ j → v.u.testBit j = false

/-- O30. GETW answers the BitWidth, COPY writes an equal value, DROP empties a register. Formalises R160, R161, R162. -/
def Obligations.GetwCopyDrop : Prop :=
  (∀ rd rs1, Spelt (.getw rs1) 0x14 .S ∧ Spelt (.copy rd rs1) 0x15 .DS ∧ Spelt (.drop rd) 0x16 .D) ∧
  ∀ (s : State) (rd rs1 : RegNo), s.Inv →
    OneSource (.getw rs1) s rs1 (fun a => WritesNothing (.getw rs1) s false a.w) ∧
    OneSource (.copy rd rs1) s rs1 (fun a => WritesReg (.copy rd rs1) s rd (some a) false) ∧
    WritesReg (.drop rd) s rd none false

/-- O31. TRUNC keeps the low bits, ZEXT pads with zeros, SEXT with sign copies; equal width copies; wrong direction
fails. Formalises R154, R163, R164, R165, R373. -/
def Obligations.ResizeCommands : Prop :=
  (∀ rd rs1 imm, Spelt (.trunc rd rs1 imm) 0x17 .DSI ∧ Spelt (.zext rd rs1 imm) 0x18 .DSI ∧
    Spelt (.sext rd rs1 imm) 0x19 .DSI) ∧
  ∀ (s : State) (rd rs1 : RegNo) (imm : Imm), s.Inv →
    (WidthChecked (.trunc rd rs1 imm) s imm fun w => OneSource (.trunc rd rs1 imm) s rs1 fun a =>
      (a.w < w → Fails (.trunc rd rs1 imm) s .invalidWidthArgument) ∧
      (w ≤ a.w → ∃ v : ApInt, v.w = w ∧ v.u = a.u % 2 ^ w ∧ (w = a.w → v = a) ∧
        v.words s.cfg.digitBits.bits = truncWords s.cfg.digitBits.bits w (a.words s.cfg.digitBits.bits) ∧
        WritesReg (.trunc rd rs1 imm) s rd (some v) false)) ∧
    (WidthChecked (.zext rd rs1 imm) s imm fun w => OneSource (.zext rd rs1 imm) s rs1 fun a =>
      (w < a.w → Fails (.zext rd rs1 imm) s .invalidWidthArgument) ∧
      (a.w ≤ w → ∃ v : ApInt, v.w = w ∧ v.u = a.u ∧ (w = a.w → v = a) ∧
        v.words s.cfg.digitBits.bits = zextWords s.cfg.digitBits.bits w (a.words s.cfg.digitBits.bits) ∧
        WritesReg (.zext rd rs1 imm) s rd (some v) false)) ∧
    (WidthChecked (.sext rd rs1 imm) s imm fun w => OneSource (.sext rd rs1 imm) s rs1 fun a =>
      (w < a.w → Fails (.sext rd rs1 imm) s .invalidWidthArgument) ∧
      (a.w ≤ w → ∃ v : ApInt, v.w = w ∧ (w = a.w → v = a) ∧
        v.u = (if a.u.testBit (a.w - 1) then a.u + 2 ^ w - 2 ^ a.w else a.u) ∧ (v.u : Int) = a.sint % 2 ^ w ∧
        v.words s.cfg.digitBits.bits =
          sextWords s.cfg.digitBits.bits a.w w a.signBit (a.words s.cfg.digitBits.bits) ∧
        WritesReg (.sext rd rs1 imm) s rd (some v) false))

/-- O32. ZEXT after TRUNC keeps the low bits and zeroes above; SEXT preserves the signed value and is ZEXT for sign bit
0. Formalises R166. -/
def Obligations.ResizeProperties : Prop :=
  (∀ (s : State) (rt rd rs1 : RegNo) (a : ApInt) (imm : Imm), s.Inv → s.readX rs1 = some a → 1 ≤ imm.toNat →
    imm.toNat ≤ a.w →
    ∃ t, exec (.trunc rt rs1 imm) s = .next t ∧
      WritesReg (.zext rd rt (BitVec.ofNat 32 a.w)) t rd (some { w := a.w, u := a.u % 2 ^ imm.toNat }) false) ∧
  ∀ (s : State) (rd rs1 : RegNo) (a : ApInt) (imm : Imm), s.Inv → s.readX rs1 = some a → a.w ≤ imm.toNat →
    imm.toNat ≤ s.cfg.maxWidth →
    ∃ t v, exec (.sext rd rs1 imm) s = .next t ∧ t.readX rd = some v ∧ v.sint = a.sint ∧
      (a.signBit = false → exec (.zext rd rs1 imm) s = .next t)

/-- O33. Masking the top word with topmask(w) is reduction modulo 2^w and leaves the other words. Formalises R150, R151. -/
def Obligations.CanonicalisationMasksTheTopWord : Prop :=
  (∀ (D : DigitBits) (w : Nat) (ds : List Digit) (d : Digit), 1 ≤ w → (ds ++ [d]).length = nwords D.bits w →
    (∀ e ∈ ds ++ [d], e < base D.bits) →
    maskTop D.bits w (ds ++ [d]) = ds ++ [d &&& topmask D.bits w] ∧
    valueOf D.bits (maskTop D.bits w (ds ++ [d])) = (canon w (valueOf D.bits (ds ++ [d]))).u) ∧
  (∀ (D : DigitBits) (w : Nat), 1 ≤ w →
    w ≤ nwords D.bits w * D.bits ∧ (nwords D.bits w - 1) * D.bits < w) ∧
  topmask 64 1 = 0x1 ∧ topmask 64 7 = 0x7F ∧ topmask 64 64 = 0xFFFFFFFFFFFFFFFF ∧ topmask 64 65 = 0x1 ∧
  topmask 64 4096 = 0xFFFFFFFFFFFFFFFF

/-- O34. FROMPRIM truncates the primitive to the BitWidth or extends it as its signedness flag says; it never fails on
its value. Formalises R310. -/
def Obligations.FromprimBuildsTheValue : Prop :=
  (∀ rd sgn pw imm v, Spelt (.fromprim rd sgn pw imm v) 0x10 .PI) ∧
  ∀ (s : State) (rd : RegNo) (sgn : Signedness) (pw : PrimWidth) (imm : Imm) (v : Word64),
    WidthChecked (.fromprim rd sgn pw imm v) s imm fun w => ∃ r : ApInt, r.w = w ∧
      WritesReg (.fromprim rd sgn pw imm v) s rd (some r) false ∧
      (w ≤ PW pw → r.u = v.toNat % 2 ^ PW pw % 2 ^ w) ∧
      (PW pw < w → sgn = .unsigned → r.u = v.toNat % 2 ^ PW pw) ∧
      (PW pw < w → sgn = .signed → r.u =
        if (v.toNat % 2 ^ PW pw).testBit (PW pw - 1) then v.toNat % 2 ^ PW pw + 2 ^ w - 2 ^ PW pw
        else v.toNat % 2 ^ PW pw)

/-- O35. TOPRIM answers the value if it fits the primitive type in the reading asked for, else ValueOutOfRange.
Formalises R311. -/
def Obligations.ToprimAnswersTheValueOrFails : Prop :=
  (∀ rs1 sgn pw, Spelt (.toprim rs1 sgn pw) 0x11 .PO) ∧
  ∀ (s : State) (rs1 : RegNo) (pw : PrimWidth), s.Inv →
    (OneSource (.toprim rs1 .unsigned pw) s rs1 fun a =>
      (2 ^ PW pw ≤ a.u → Fails (.toprim rs1 .unsigned pw) s .valueOutOfRange) ∧
      (a.u < 2 ^ PW pw → WritesNothing (.toprim rs1 .unsigned pw) s false a.u) ∧
      (a.w ≤ PW pw → WritesNothing (.toprim rs1 .unsigned pw) s false a.u)) ∧
    (OneSource (.toprim rs1 .signed pw) s rs1 fun a =>
      (a.sint < -(2 ^ (PW pw - 1)) ∨ 2 ^ (PW pw - 1) ≤ a.sint →
        Fails (.toprim rs1 .signed pw) s .valueOutOfRange) ∧
      (-(2 ^ (PW pw - 1)) ≤ a.sint → a.sint < 2 ^ (PW pw - 1) →
        WritesNothing (.toprim rs1 .signed pw) s false (a.sint % 2 ^ PW pw).toNat) ∧
      (a.w ≤ PW pw → WritesNothing (.toprim rs1 .signed pw) s false (a.sint % 2 ^ PW pw).toNat))

/-- O36. Characters 0-9, a-z and A-Z have digit values 0 to 35, every other entry value none; FORMAT writes lower case.
Formalises R321. -/
def Obligations.DigitCharactersHaveTheirValues : Prop :=
  (∀ c : Digit, (0x30 ≤ c → c ≤ 0x39 → digitval c = some (c - 0x30)) ∧
    (0x61 ≤ c → c ≤ 0x7A → digitval c = some (c - 0x61 + 10)) ∧
    (0x41 ≤ c → c ≤ 0x5A → digitval c = some (c - 0x41 + 10)) ∧
    (¬(0x30 ≤ c ∧ c ≤ 0x39) → ¬(0x61 ≤ c ∧ c ≤ 0x7A) → ¬(0x41 ≤ c ∧ c ≤ 0x5A) → digitval c = none)) ∧
  (∀ (radix : Nat) (c : Digit), ValidDigit radix c ↔ digitval c ≠ none ∧ (digitval c).getD 0 < radix) ∧
  (∀ v, v < 36 → digitval (digitChar v) = some v ∧ ¬(0x41 ≤ digitChar v ∧ digitChar v ≤ 0x5A)) ∧
  minusChar = 0x2D

/-- O37. PARSE: the checks in order, then the value of the digit string, negated after an accepted minus sign; range
errors are rejected. Formalises R322, R326, R377, R378. -/
def Obligations.ParseReadsTheText : Prop :=
  (∀ rd sgn radix imm, Spelt (.parse rd sgn radix imm) 0x50 .TI) ∧
  ∀ (s : State) (rd : RegNo) (sgn : Signedness) (radix : BitVec 8) (imm : Imm) (neg : Bool) (rest : List Digit),
    neg = (decide (sgn = .signed) && decide (Memory.entry s.xbuf 0 = some 0x2D)) →
    rest = (if neg then s.xbuf.drop 1 else s.xbuf) →
    WidthChecked (.parse rd sgn radix imm) s imm fun w =>
      (radix.toNat < 2 ∨ 36 < radix.toNat → Fails (.parse rd sgn radix imm) s .invalidRadix) ∧
      (2 ≤ radix.toNat → radix.toNat ≤ 36 →
        (s.xlen = 0 → Fails (.parse rd sgn radix imm) s .emptyString) ∧
        (s.xlen ≠ 0 →
          (rest = [] ∨ (∃ c ∈ rest, ¬ValidDigit radix.toNat c) →
            Fails (.parse rd sgn radix imm) s .invalidDigitForRadix) ∧
          (rest ≠ [] → (∀ c ∈ rest, ValidDigit radix.toNat c) →
            ((sgn = .unsigned ∧ 2 ^ w - 1 < textValue radix.toNat rest) ∨
              (sgn = .signed ∧ neg = false ∧ 2 ^ (w - 1) - 1 < textValue radix.toNat rest) ∨
              (neg = true ∧ 2 ^ (w - 1) < textValue radix.toNat rest) →
              Fails (.parse rd sgn radix imm) s .valueOutOfRange) ∧
            (sgn = .unsigned → textValue radix.toNat rest ≤ 2 ^ w - 1 →
              WritesReg (.parse rd sgn radix imm) s rd (some { w := w, u := textValue radix.toNat rest }) false) ∧
            (sgn = .signed → neg = false → textValue radix.toNat rest ≤ 2 ^ (w - 1) - 1 →
              WritesReg (.parse rd sgn radix imm) s rd (some { w := w, u := textValue radix.toNat rest }) false) ∧
            (neg = true → textValue radix.toNat rest ≤ 2 ^ (w - 1) →
              WritesReg (.parse rd sgn radix imm) s rd
                (some { w := w, u := (2 ^ w - textValue radix.toNat rest) % 2 ^ w }) false))))

/-- O38. FORMAT replaces XBUF by the shortest digit string of the value, with a minus sign for a negative signed
reading. Formalises R323. -/
def Obligations.FormatWritesTheShortestText : Prop :=
  (∀ rs1 sgn radix, Spelt (.format rs1 sgn radix) 0x51 .TO) ∧
  ∀ (s : State) (rs1 : RegNo) (sgn : Signedness) (radix : BitVec 8), s.Inv →
    OneSource (.format rs1 sgn radix) s rs1 fun a =>
      (radix.toNat < 2 ∨ 36 < radix.toNat → Fails (.format rs1 sgn radix) s .invalidRadix) ∧
      (2 ≤ radix.toNat → radix.toNat ≤ 36 → ∃ text cs : List Digit,
        (sgn = .signed → a.u.testBit (a.w - 1) = true →
          text = 0x2D :: cs ∧ IsDigitsOf radix.toNat (2 ^ a.w - a.u) cs) ∧
        (sgn = .unsigned ∨ a.u.testBit (a.w - 1) = false → text = cs ∧ IsDigitsOf radix.toNat a.u cs) ∧
        text.length ≤ a.w + 1 ∧ text.length ≤ s.cfg.maxWidth + 1 ∧
        WritesMemory (.format rs1 sgn radix) s text text.length)

/-- O39. PARSE of what FORMAT wrote, with the same radix and signedness at the value's BitWidth, gives the value back.
Formalises R327. -/
def Obligations.ParseAfterFormatRoundTrip : Prop :=
  ∀ (s : State) (rs1 rd : RegNo) (sgn : Signedness) (radix : BitVec 8) (a : ApInt), s.Inv → s.readX rs1 = some a →
    2 ≤ radix.toNat → radix.toNat ≤ 36 →
    ∃ t, exec (.format rs1 sgn radix) s = .next t ∧
      WritesReg (.parse rd sgn radix (BitVec.ofNat 32 a.w)) t rd (some a) false

/-- O40. ADD, ADDCO and MUL write the sum or product modulo 2^w; ADDCO reports the carry out of bit w-1. Formalises
R201, R202, R207. -/
def Obligations.AddAddcoMul : Prop :=
  (∀ rd rs1 rs2, Spelt (.add rd rs1 rs2) 0x20 .DSS ∧ Spelt (.addco rd rs1 rs2) 0x21 .DSS ∧
    Spelt (.mul rd rs1 rs2) 0x26 .DSS) ∧
  ∀ (s : State) (rd rs1 rs2 : RegNo),
    (TwoSource (.add rd rs1 rs2) s rs1 rs2 fun a b =>
      WritesReg (.add rd rs1 rs2) s rd (some { w := a.w, u := (a.u + b.u) % 2 ^ a.w }) false) ∧
    (TwoSource (.addco rd rs1 rs2) s rs1 rs2 fun a b =>
      WritesReg (.addco rd rs1 rs2) s rd (some { w := a.w, u := (a.u + b.u) % 2 ^ a.w })
        (decide (2 ^ a.w ≤ a.u + b.u))) ∧
    (TwoSource (.mul rd rs1 rs2) s rs1 rs2 fun a b =>
      WritesReg (.mul rd rs1 rs2) s rd (some { w := a.w, u := a.u * b.u % 2 ^ a.w }) false)

/-- O41. SUB and SUBBO write the difference modulo 2^w; SUBBO reports the borrow; (a + b) - b is a. Formalises R203,
R204. -/
def Obligations.SubSubbo : Prop :=
  (∀ rd rs1 rs2, Spelt (.sub rd rs1 rs2) 0x22 .DSS ∧ Spelt (.subbo rd rs1 rs2) 0x23 .DSS) ∧
  (∀ (s : State) (rd rs1 rs2 : RegNo), s.Inv →
    (TwoSource (.sub rd rs1 rs2) s rs1 rs2 fun a b => ∃ v : ApInt, v.w = a.w ∧
      (v.u : Int) = ((a.u : Int) - b.u) % 2 ^ a.w ∧ WritesReg (.sub rd rs1 rs2) s rd (some v) false) ∧
    (TwoSource (.subbo rd rs1 rs2) s rs1 rs2 fun a b => ∃ v : ApInt, v.w = a.w ∧
      (v.u : Int) = ((a.u : Int) - b.u) % 2 ^ a.w ∧
      WritesReg (.subbo rd rs1 rs2) s rd (some v) (decide (a.u < b.u)))) ∧
  ∀ (s : State) (rt rd rs1 rs2 : RegNo) (a b : ApInt), s.Inv → rt ≠ rs2 → s.readX rs1 = some a →
    s.readX rs2 = some b → a.w = b.w →
    ∃ t, exec (.add rt rs1 rs2) s = .next t ∧ WritesReg (.sub rd rt rs2) t rd (some a) false

/-- O42. NEG writes the two's-complement negation; UMAG writes the magnitude |sint| and reports the sign. Formalises
R205, R206. -/
def Obligations.NegUmag : Prop :=
  (∀ rd rs1, Spelt (.neg rd rs1) 0x24 .DS ∧ Spelt (.umag rd rs1) 0x25 .DS) ∧
  ∀ (s : State) (rd rs1 : RegNo), s.Inv →
    (OneSource (.neg rd rs1) s rs1 fun a => ∃ v : ApInt, v.w = a.w ∧ v.u = (2 ^ a.w - a.u) % 2 ^ a.w ∧
      v.u = (2 ^ a.w - 1 - a.u + 1) % 2 ^ a.w ∧ (v.u : Int) = -a.sint % 2 ^ a.w ∧
      WritesReg (.neg rd rs1) s rd (some v) false) ∧
    (OneSource (.umag rd rs1) s rs1 fun a => ∃ v : ApInt, v.w = a.w ∧
      v.u = (if a.u.testBit (a.w - 1) then (2 ^ a.w - a.u) % 2 ^ a.w else a.u) ∧ v.u = a.sint.natAbs ∧
      WritesReg (.umag rd rs1) s rd (some v) (a.u.testBit (a.w - 1)))

/-- O43. UDIV and UREM write the unsigned quotient and remainder; DivisionByZero after the width test. Formalises R208,
R209. -/
def Obligations.UdivUrem : Prop :=
  (∀ rd rs1 rs2, Spelt (.udiv rd rs1 rs2) 0x28 .DSS ∧ Spelt (.urem rd rs1 rs2) 0x29 .DSS) ∧
  ∀ (s : State) (rd rs1 rs2 : RegNo), s.Inv →
    (Division (.udiv rd rs1 rs2) s rs1 rs2 fun a b =>
      WritesReg (.udiv rd rs1 rs2) s rd (some { w := a.w, u := a.u / b.u }) false) ∧
    (Division (.urem rd rs1 rs2) s rs1 rs2 fun a b =>
      WritesReg (.urem rd rs1 rs2) s rd (some { w := a.w, u := a.u % b.u }) false ∧ a.u % b.u < b.u ∧
        a.u = a.u / b.u * b.u + a.u % b.u)

/-- O44. SDIV rounds toward zero and SREM takes the sign of the dividend, for every pair of values; the division
identity holds. Formalises R210, R211. -/
def Obligations.SdivSrem : Prop :=
  (∀ rd rs1 rs2, Spelt (.sdiv rd rs1 rs2) 0x2A .DSS ∧ Spelt (.srem rd rs1 rs2) 0x2B .DSS) ∧
  ∀ (s : State) (rd rs1 rs2 : RegNo), s.Inv →
    (Division (.sdiv rd rs1 rs2) s rs1 rs2 fun a b =>
      ∃ (v r : ApInt) (ma mb : Nat), v.w = a.w ∧ r.w = a.w ∧
        ma = (if a.u.testBit (a.w - 1) then 2 ^ a.w - a.u else a.u) ∧
        mb = (if b.u.testBit (a.w - 1) then 2 ^ a.w - b.u else b.u) ∧
        v.u = (if a.u.testBit (a.w - 1) = b.u.testBit (a.w - 1) then ma / mb % 2 ^ a.w
          else (2 ^ a.w - ma / mb) % 2 ^ a.w) ∧
        r.u = (if a.u.testBit (a.w - 1) then (2 ^ a.w - ma % mb) % 2 ^ a.w else ma % mb) ∧
        (v.u : Int) = a.sint.tdiv b.sint % 2 ^ a.w ∧ r.sint = a.sint.tmod b.sint ∧
        r.sint.natAbs < b.sint.natAbs ∧ (v.u * b.u + r.u) % 2 ^ a.w = a.u ∧
        WritesReg (.sdiv rd rs1 rs2) s rd (some v) false ∧ WritesReg (.srem rd rs1 rs2) s rd (some r) false) ∧
    (Division (.srem rd rs1 rs2) s rs1 rs2 fun a b => ∃ r : ApInt, r.w = a.w ∧ r.sint = a.sint.tmod b.sint ∧
      WritesReg (.srem rd rs1 rs2) s rd (some r) false)

/-- O45. AND, OR, XOR and NOT act bit by bit, word by word; NOT masks the top word. Formalises R250, R251, R252, R253,
R254. -/
def Obligations.BitwiseCommands : Prop :=
  (∀ rd rs1 rs2, Spelt (.and rd rs1 rs2) 0x30 .DSS ∧ Spelt (.or rd rs1 rs2) 0x31 .DSS ∧
    Spelt (.xor rd rs1 rs2) 0x32 .DSS ∧ Spelt (.not rd rs1) 0x33 .DS) ∧
  ∀ (s : State) (rd rs1 rs2 : RegNo), s.Inv →
    (TwoSource (.and rd rs1 rs2) s rs1 rs2 fun a b => ∃ v : ApInt, v.w = a.w ∧ v.u = a.u &&& b.u ∧
      (∀ k, v.u.testBit k = (a.u.testBit k && b.u.testBit k)) ∧
      v.words s.cfg.digitBits.bits =
        List.zipWith (· &&& ·) (a.words s.cfg.digitBits.bits) (b.words s.cfg.digitBits.bits) ∧
      WritesReg (.and rd rs1 rs2) s rd (some v) false) ∧
    (TwoSource (.or rd rs1 rs2) s rs1 rs2 fun a b => ∃ v : ApInt, v.w = a.w ∧ v.u = a.u ||| b.u ∧
      (∀ k, v.u.testBit k = (a.u.testBit k || b.u.testBit k)) ∧
      v.words s.cfg.digitBits.bits =
        List.zipWith (· ||| ·) (a.words s.cfg.digitBits.bits) (b.words s.cfg.digitBits.bits) ∧
      WritesReg (.or rd rs1 rs2) s rd (some v) false) ∧
    (TwoSource (.xor rd rs1 rs2) s rs1 rs2 fun a b => ∃ v : ApInt, v.w = a.w ∧ v.u = a.u ^^^ b.u ∧
      (∀ k, v.u.testBit k = (a.u.testBit k != b.u.testBit k)) ∧
      v.words s.cfg.digitBits.bits =
        List.zipWith (· ^^^ ·) (a.words s.cfg.digitBits.bits) (b.words s.cfg.digitBits.bits) ∧
      WritesReg (.xor rd rs1 rs2) s rd (some v) false) ∧
    (OneSource (.not rd rs1) s rs1 fun a => ∃ v : ApInt, v.w = a.w ∧ v.u = 2 ^ a.w - 1 - a.u ∧
      (∀ k, k < a.w → v.u.testBit k = !a.u.testBit k) ∧
      v.words s.cfg.digitBits.bits = notWords s.cfg.digitBits.bits a.w (a.words s.cfg.digitBits.bits) ∧
      WritesReg (.not rd rs1) s rd (some v) false)

/-- O46. SHL, LSHR and ASHR shift by any amount; an amount of at least w leaves 0, or all ones for ASHR of a negative
value. Formalises R255, R256, R257. -/
def Obligations.ShiftCommands : Prop :=
  (∀ rd rs1 imm, Spelt (.shl rd rs1 imm) 0x38 .DSI ∧ Spelt (.lshr rd rs1 imm) 0x39 .DSI ∧
    Spelt (.ashr rd rs1 imm) 0x3A .DSI) ∧
  (∀ (s : State) (rd rs1 : RegNo) (imm : Imm), s.Inv →
    (OneSource (.shl rd rs1 imm) s rs1 fun a => ∃ v : ApInt, v.w = a.w ∧ v.u = a.u * 2 ^ imm.toNat % 2 ^ a.w ∧
      (a.w ≤ imm.toNat → v.u = 0) ∧ WritesReg (.shl rd rs1 imm) s rd (some v) false) ∧
    (OneSource (.lshr rd rs1 imm) s rs1 fun a => ∃ v : ApInt, v.w = a.w ∧ v.u = a.u / 2 ^ imm.toNat ∧
      (a.w ≤ imm.toNat → v.u = 0) ∧ WritesReg (.lshr rd rs1 imm) s rd (some v) false) ∧
    (OneSource (.ashr rd rs1 imm) s rs1 fun a => ∃ v : ApInt, v.w = a.w ∧
      (v.u : Int) = a.sint / 2 ^ imm.toNat % 2 ^ a.w ∧
      (a.w ≤ imm.toNat → v.u = if a.u.testBit (a.w - 1) then 2 ^ a.w - 1 else 0) ∧
      v.words s.cfg.digitBits.bits =
        ashrWords s.cfg.digitBits.bits a.w imm.toNat a.signBit (a.words s.cfg.digitBits.bits) ∧
      WritesReg (.ashr rd rs1 imm) s rd (some v) false)) ∧
  ∀ (s : State) (rt rd rs1 : RegNo) (imm : Imm) (a : ApInt), s.Inv → s.readX rs1 = some a →
    ∃ t, exec (.lshr rt rs1 imm) s = .next t ∧
      WritesReg (.shl rd rt imm) t rd
        (some { w := a.w, u := if imm.toNat < a.w then a.u - a.u % 2 ^ imm.toNat else 0 }) false

/-- O47. ROL moves bit k to bit (k + n) mod w and ROR to bit (k - n) mod w, over w bits. Formalises R258, R259. -/
def Obligations.RotateCommands : Prop :=
  (∀ rd rs1 imm, Spelt (.rol rd rs1 imm) 0x3B .DSI ∧ Spelt (.ror rd rs1 imm) 0x3C .DSI) ∧
  ∀ (s : State) (rd rs1 : RegNo) (imm : Imm), s.Inv →
    (OneSource (.rol rd rs1 imm) s rs1 fun a => ∃ v : ApInt, v.w = a.w ∧ v.u < 2 ^ a.w ∧
      (∀ k, k < a.w → v.u.testBit ((k + imm.toNat) % a.w) = a.u.testBit k) ∧
      v.u = (if imm.toNat % a.w = 0 then a.u
        else a.u * 2 ^ (imm.toNat % a.w) % 2 ^ a.w ||| a.u / 2 ^ (a.w - imm.toNat % a.w)) ∧
      v.words s.cfg.digitBits.bits =
        rolWords s.cfg.digitBits.bits a.w imm.toNat (a.words s.cfg.digitBits.bits) ∧
      WritesReg (.rol rd rs1 imm) s rd (some v) false) ∧
    (OneSource (.ror rd rs1 imm) s rs1 fun a => ∃ v : ApInt, v.w = a.w ∧ v.u < 2 ^ a.w ∧
      (∀ k, k < a.w → v.u.testBit k = a.u.testBit ((k + imm.toNat) % a.w)) ∧
      v.u = (if imm.toNat % a.w = 0 then a.u
        else a.u / 2 ^ (imm.toNat % a.w) ||| a.u * 2 ^ (a.w - imm.toNat % a.w) % 2 ^ a.w) ∧
      exec (.ror rd rs1 imm) s = exec (.rol rd rs1 (BitVec.ofNat 32 (a.w - imm.toNat % a.w))) s ∧
      WritesReg (.ror rd rs1 imm) s rd (some v) false)

/-- O48. No shift or rotate amount is an error: shifts by w or more empty the value, rotates reduce the amount modulo w.
Formalises R271. -/
def Obligations.AnyAmountIsLegal : Prop :=
  ∀ (s : State) (rd rs1 : RegNo) (imm : Imm) (a : ApInt), s.Inv → s.readX rs1 = some a →
    (∃ v, WritesReg (.shl rd rs1 imm) s rd (some v) false) ∧
    (∃ v, WritesReg (.lshr rd rs1 imm) s rd (some v) false) ∧
    (∃ v, WritesReg (.ashr rd rs1 imm) s rd (some v) false) ∧
    (∃ v, WritesReg (.rol rd rs1 imm) s rd (some v) false) ∧
    (∃ v, WritesReg (.ror rd rs1 imm) s rd (some v) false) ∧
    (a.w ≤ imm.toNat →
      WritesReg (.shl rd rs1 imm) s rd (some { w := a.w, u := 0 }) false ∧
      WritesReg (.lshr rd rs1 imm) s rd (some { w := a.w, u := 0 }) false ∧
      WritesReg (.ashr rd rs1 imm) s rd (some { w := a.w, u := if a.signBit then 2 ^ a.w - 1 else 0 }) false) ∧
    exec (.rol rd rs1 imm) s = exec (.rol rd rs1 (BitVec.ofNat 32 (imm.toNat % a.w))) s ∧
    exec (.ror rd rs1 imm) s = exec (.ror rd rs1 (BitVec.ofNat 32 (imm.toNat % a.w))) s

/-- O49. UCMP and SCMP answer 0 Less, 1 Equal, 2 Greater in the unsigned and the signed reading. Formalises R290, R291,
R292. -/
def Obligations.CompareCommands : Prop :=
  (∀ rs1 rs2, Spelt (.ucmp rs1 rs2) 0x40 .SS ∧ Spelt (.scmp rs1 rs2) 0x41 .SS) ∧
  ∀ (s : State) (rs1 rs2 : RegNo), s.Inv →
    (TwoSource (.ucmp rs1 rs2) s rs1 rs2 fun a b =>
      (a.u < b.u → WritesNothing (.ucmp rs1 rs2) s false 0) ∧
      (a.u = b.u → WritesNothing (.ucmp rs1 rs2) s false 1) ∧
      (b.u < a.u → WritesNothing (.ucmp rs1 rs2) s false 2) ∧
      ucmpWords (a.words s.cfg.digitBits.bits) (b.words s.cfg.digitBits.bits) =
        (if a.u < b.u then .lt else if a.u = b.u then .eq else .gt)) ∧
    (TwoSource (.scmp rs1 rs2) s rs1 rs2 fun a b =>
      (a.sint < b.sint → WritesNothing (.scmp rs1 rs2) s false 0) ∧
      (a.sint = b.sint → WritesNothing (.scmp rs1 rs2) s false 1) ∧
      (b.sint < a.sint → WritesNothing (.scmp rs1 rs2) s false 2) ∧
      (a.signBit = true → b.signBit = false → a.sint < b.sint) ∧
      (a.signBit = b.signBit → (a.sint < b.sint ↔ a.u < b.u)))

/-- O50. ISZERO, ISONES and SIGN answer the zero, all-ones and sign tests in the flag. Formalises R293, R294, R295. -/
def Obligations.TestCommands : Prop :=
  (∀ rs1, Spelt (.iszero rs1) 0x44 .S ∧ Spelt (.isones rs1) 0x45 .S ∧ Spelt (.sign rs1) 0x46 .S) ∧
  ∀ (s : State) (rs1 : RegNo), s.Inv →
    (OneSource (.iszero rs1) s rs1 fun a => WritesNothing (.iszero rs1) s (decide (a.u = 0)) 0 ∧
      isZeroWords (a.words s.cfg.digitBits.bits) = decide (a.u = 0)) ∧
    (OneSource (.isones rs1) s rs1 fun a => WritesNothing (.isones rs1) s (decide (a.u = 2 ^ a.w - 1)) 0 ∧
      isOnesWords s.cfg.digitBits.bits a.w (a.words s.cfg.digitBits.bits) = decide (a.u = 2 ^ a.w - 1)) ∧
    (OneSource (.sign rs1) s rs1 fun a => WritesNothing (.sign rs1) s (a.u.testBit (a.w - 1)) 0 ∧
      signWords s.cfg.digitBits.bits a.w (a.words s.cfg.digitBits.bits) = a.u.testBit (a.w - 1) ∧
      (a.u.testBit (a.w - 1) = true ↔ a.sint < 0))

/-- O51. The Digit primitives: wrapping operations, add with carry, subtract with borrow, widening multiply, two-by-one
division. Formalises R131, R132, R133, R134, R135. -/
def Obligations.DigitPrimitives : Prop :=
  ∀ (D : DigitBits) (a b c : Nat), a < 2 ^ D.bits → b < 2 ^ D.bits → c ≤ 1 →
    dadd D.bits a b = (a + b) % 2 ^ D.bits ∧
    (dsub D.bits a b : Int) = ((a : Int) - b) % 2 ^ D.bits ∧
    dmul D.bits a b = a * b % 2 ^ D.bits ∧
    ddiv a 0 = none ∧ (b ≠ 0 → ddiv a b = some (a / b)) ∧
    dadc D.bits a b c = ((a + b + c) % 2 ^ D.bits, if 2 ^ D.bits ≤ a + b + c then 1 else 0) ∧
    ((dsbb D.bits a b c).1 : Int) = ((a : Int) - b - c) % 2 ^ D.bits ∧
    (dsbb D.bits a b c).2 = (if (a : Int) - b - c < 0 then 1 else 0) ∧
    dmulw D.bits a b = (a * b / 2 ^ D.bits, a * b % 2 ^ D.bits) ∧
    (∀ y z, y < 2 ^ D.bits → z < 2 ^ D.bits → a * b + y + z ≤ (2 ^ D.bits) ^ 2 - 1) ∧
    (∀ hi lo d, hi < 2 ^ D.bits → lo < 2 ^ D.bits → d < 2 ^ D.bits →
      (d = 0 → ddiv2 D.bits hi lo d = none) ∧
      (d ≠ 0 → ddiv2 D.bits hi lo d =
        some ((hi * 2 ^ D.bits + lo) / d % 2 ^ D.bits, (hi * 2 ^ D.bits + lo) % d)) ∧
      (hi < d → (hi * 2 ^ D.bits + lo) / d < 2 ^ D.bits))

/-- O52. Ripple-carry addition of the words gives the words of the sum modulo 2^w and the carry out of bit w-1.
Formalises R220. -/
def Obligations.RippleAdditionIsTheSum : Prop :=
  ∀ (D : DigitBits) (w a b : Nat), 1 ≤ w → a < 2 ^ w → b < 2 ^ w →
    addWords D.bits w (ApInt.words D.bits { w := w, u := a }) (ApInt.words D.bits { w := w, u := b }) =
      (ApInt.words D.bits { w := w, u := (a + b) % 2 ^ w }, decide (2 ^ w ≤ a + b)) ∧
    (w % D.bits ≠ 0 →
      (rippleAdd D.bits (ApInt.words D.bits { w := w, u := a }) (ApInt.words D.bits { w := w, u := b }) 0).2 = 0)

/-- O53. Ripple-borrow subtraction of the words gives the words of the difference modulo 2^w and the borrow. Formalises
R221. -/
def Obligations.RippleSubtractionIsTheDifference : Prop :=
  ∀ (D : DigitBits) (w a b : Nat), 1 ≤ w → a < 2 ^ w → b < 2 ^ w →
    subWords D.bits w (ApInt.words D.bits { w := w, u := a }) (ApInt.words D.bits { w := w, u := b }) =
      (ApInt.words D.bits { w := w, u := (((a : Int) - b) % 2 ^ w).toNat }, decide (a < b))

/-- O54. Schoolbook multiplication truncated to n words gives the words of the product modulo 2^w. Formalises R222. -/
def Obligations.SchoolbookMultiplicationIsTheProduct : Prop :=
  ∀ (D : DigitBits) (w a b : Nat), 1 ≤ w → a < 2 ^ w → b < 2 ^ w →
    mulWords D.bits w (ApInt.words D.bits { w := w, u := a }) (ApInt.words D.bits { w := w, u := b }) =
      ApInt.words D.bits { w := w, u := a * b % 2 ^ w }

/-- O55. Division by a one-word divisor, Digit by Digit from the top, gives the quotient's words and the remainder.
Formalises R223. -/
def Obligations.SingleWordDivisionIsTheQuotient : Prop :=
  ∀ (D : DigitBits) (w a d : Nat), 1 ≤ w → a < 2 ^ w → 0 < d → d < 2 ^ D.bits →
    divSmall D.bits d (ApInt.words D.bits { w := w, u := a }) =
      (ApInt.words D.bits { w := w, u := a / d }, a % d) ∧ a % d < d

/-- O56. Knuth Algorithm D as transcribed (log entry 18) gives the quotient's and remainder's words for every multi-word
divisor. Rests on 42_arithmetic.md section 3 (R224 and its informative listing), log entry 18. -/
def Obligations.LongDivisionIsTheQuotient : Prop :=
  ∀ (D : DigitBits) (w a b : Nat), 1 ≤ w → a < 2 ^ w → b < 2 ^ w → 2 ^ D.bits ≤ b →
    padTo (nwords D.bits w)
        (knuthD D.bits (ApInt.words D.bits { w := w, u := a }) (ApInt.words D.bits { w := w, u := b })).1 =
      ApInt.words D.bits { w := w, u := a / b } ∧
    padTo (nwords D.bits w)
        (knuthD D.bits (ApInt.words D.bits { w := w, u := a }) (ApInt.words D.bits { w := w, u := b })).2 =
      ApInt.words D.bits { w := w, u := a % b }

/-- O57. Signed division of the words by magnitudes and negation (multi-word divisors: log entry 18) gives the words of
SDIV's and SREM's results. Rests on 42_arithmetic.md section 3 (R225), log entry 18. -/
def Obligations.SignedDivisionAtWordLevel : Prop :=
  ∀ (D : DigitBits) (a b : ApInt), 1 ≤ a.w → a.w = b.w → a.u < 2 ^ a.w → b.u < 2 ^ b.w → b.u ≠ 0 →
    negWords D.bits a.w (a.words D.bits) = ApInt.words D.bits { w := a.w, u := (2 ^ a.w - a.u) % 2 ^ a.w } ∧
    sdivWords D.bits a.w a.signBit b.signBit (a.words D.bits) (b.words D.bits) =
      (ApInt.words D.bits { w := a.w, u := (a.sint.tdiv b.sint % 2 ^ a.w).toNat },
        ApInt.words D.bits { w := a.w, u := (a.sint.tmod b.sint % 2 ^ a.w).toNat })

/-- O58. The word-and-bit shifter gives the words of the shifted value, left and right, for every amount. Formalises
R270. -/
def Obligations.WordShifterIsTheShift : Prop :=
  ∀ (D : DigitBits) (w a n : Nat), 1 ≤ w → a < 2 ^ w →
    shlDatapath D.bits w n (ApInt.words D.bits { w := w, u := a }) =
      ApInt.words D.bits { w := w, u := a * 2 ^ n % 2 ^ w } ∧
    lshrDatapath D.bits w n (ApInt.words D.bits { w := w, u := a }) =
      ApInt.words D.bits { w := w, u := a / 2 ^ n }

/-- O59. Word-level parse accumulation overflows iff the number is 2^w or more, else holds its words; the range checks
follow. Formalises R324. -/
def Obligations.ParseAccumulationIsTheNumber : Prop :=
  ∀ (D : DigitBits) (w radix V : Nat) (dvs : List Nat) (acc : List Digit) (ov : Bool), 1 ≤ w → 2 ≤ radix →
    radix ≤ 36 → (∀ d ∈ dvs, d < radix) → V = dvs.foldl (fun v d => v * radix + d) 0 →
    accumulate D.bits w radix dvs (List.replicate (nwords D.bits w) 0) false = (acc, ov) →
    (ov = true ↔ 2 ^ w ≤ V) ∧ (ov = false → acc = ApInt.words D.bits { w := w, u := V }) ∧
    (parseInRange .unsigned false w V = true ↔ ov = false) ∧
    (parseInRange .signed false w V = true ↔ ov = false ∧ signWords D.bits w acc = false) ∧
    (parseInRange .signed true w V = true ↔ ov = false ∧
      (signWords D.bits w acc = false ∨ acc = ApInt.words D.bits { w := w, u := 2 ^ (w - 1) }))

/-- O60. Word-level digit extraction by repeated one-word division gives FORMAT's digit string. Formalises R325. -/
def Obligations.FormatExtractionIsTheDigitString : Prop :=
  ∀ (D : DigitBits) (w m radix : Nat), 1 ≤ w → m < 2 ^ w → 2 ≤ radix → radix ≤ 36 →
    formatWords D.bits radix w (ApInt.words D.bits { w := w, u := m }) = digits m radix ∧
    IsDigitsOf radix m (formatWords D.bits radix w (ApInt.words D.bits { w := w, u := m }))
end

