-- ==== Sys2Proof/Laws/State.lean ====
section
/-! SUPPORT. One lemma per field and update of the state, so that no later proof unfolds a record update. -/

namespace Sys2Proof.Machine

section
variable (s : State) (e : CmdError) (f : Effect) (r : RegNo) (v : Option ApInt) (rest : List HostEvent)

@[simp] theorem State.raise_cfg : (s.raise e).cfg = s.cfg := rfl
@[simp] theorem State.raise_x : (s.raise e).x = s.x := rfl
@[simp] theorem State.raise_xbuf : (s.raise e).xbuf = s.xbuf := rfl
@[simp] theorem State.raise_lasterr : (s.raise e).lasterr = e.code := rfl
@[simp] theorem State.raise_expected : (s.raise e).expected = e.expectedAfter s.expected := rfl
@[simp] theorem State.raise_found : (s.raise e).found = e.foundAfter s.found := rfl
@[simp] theorem State.raise_pending : (s.raise e).pending = s.pending := rfl
@[simp] theorem State.raise_responses :
    (s.raise e).responses = s.responses ++ [{ err := e.code, flag := false, data := 0#64 }] := rfl

@[simp] theorem State.commit_cfg : (s.commit f).cfg = s.cfg := rfl
@[simp] theorem State.commit_x : (s.commit f).x = f.regsAfter s.x := rfl
@[simp] theorem State.commit_xbuf : (s.commit f).xbuf = f.xbuf.getD s.xbuf := rfl
@[simp] theorem State.commit_lasterr :
    (s.commit f).lasterr = if f.clearLog then 0#4 else s.lasterr := rfl
@[simp] theorem State.commit_expected :
    (s.commit f).expected = if f.clearLog then 0#32 else s.expected := rfl
@[simp] theorem State.commit_found :
    (s.commit f).found = if f.clearLog then 0#32 else s.found := rfl
@[simp] theorem State.commit_pending : (s.commit f).pending = s.pending := rfl
@[simp] theorem State.commit_responses :
    (s.commit f).responses = s.responses ++ [{ err := 0#4, flag := f.flag, data := f.data }] := rfl

@[simp] theorem State.applyReset_cfg : s.applyReset.cfg = s.cfg := rfl
@[simp] theorem State.applyReset_x : s.applyReset.x = Vector.replicate 16 none := rfl
@[simp] theorem State.applyReset_xbuf : s.applyReset.xbuf = [] := rfl
@[simp] theorem State.applyReset_lasterr : s.applyReset.lasterr = 0#4 := rfl
@[simp] theorem State.applyReset_expected : s.applyReset.expected = 0#32 := rfl
@[simp] theorem State.applyReset_found : s.applyReset.found = 0#32 := rfl
@[simp] theorem State.applyReset_pending : s.applyReset.pending = s.pending := rfl
@[simp] theorem State.applyReset_responses : s.applyReset.responses = s.responses := rfl

@[simp] theorem State.writeX_cfg : (s.writeX r v).cfg = s.cfg := rfl
@[simp] theorem State.writeX_xbuf : (s.writeX r v).xbuf = s.xbuf := rfl
@[simp] theorem State.writeX_lasterr : (s.writeX r v).lasterr = s.lasterr := rfl
@[simp] theorem State.writeX_expected : (s.writeX r v).expected = s.expected := rfl
@[simp] theorem State.writeX_found : (s.writeX r v).found = s.found := rfl
@[simp] theorem State.writeX_pending : (s.writeX r v).pending = s.pending := rfl
@[simp] theorem State.writeX_responses : (s.writeX r v).responses = s.responses := rfl

@[simp] theorem State.setPending_cfg : ({ s with pending := rest } : State).cfg = s.cfg := rfl
@[simp] theorem State.setPending_readX : ({ s with pending := rest } : State).readX r = s.readX r := rfl
@[simp] theorem State.setPending_xbuf : ({ s with pending := rest } : State).xbuf = s.xbuf := rfl
@[simp] theorem State.setPending_xlen : ({ s with pending := rest } : State).xlen = s.xlen := rfl

@[simp] theorem State.raise_xlen : (s.raise e).xlen = s.xlen := rfl
@[simp] theorem State.writeX_xlen : (s.writeX r v).xlen = s.xlen := rfl
@[simp] theorem State.applyReset_xlen : s.applyReset.xlen = 0 := rfl

end

end Sys2Proof.Machine
end

