-- ==== Sys2Proof/Laws/Ops.lean ====
section
/-! SUPPORT. What each shared operation can do, said once: the registers, the two ways a command ends, and the
checks of 30_encoding.md R100. -/

namespace Sys2Proof.Machine

/-! ### Registers -/

@[simp] theorem readX_writeX_same (s : State) (r : RegNo) (v : Option ApInt) : (s.writeX r v).readX r = v := by
  simp [State.readX, State.writeX]

theorem readX_writeX_of_ne {s : State} {r q : RegNo} {v : Option ApInt} (h : q ≠ r) :
    (s.writeX r v).readX q = s.readX q := by
  have h' : ¬ (r : Nat) = q := fun e => h (Fin.ext e.symm)
  simp [State.readX, State.writeX, h']

@[simp] theorem readX_raise (s : State) (e : CmdError) (r : RegNo) : (s.raise e).readX r = s.readX r := rfl

@[simp] theorem readX_applyReset (s : State) (r : RegNo) : s.applyReset.readX r = none := by
  simp [State.readX, State.applyReset]

@[simp] theorem readX_resetWith (c : Cfg) (r : RegNo) : (State.resetWith c).readX r = none := by
  simp [State.readX, State.resetWith]

/-- What register `r` holds after an effect. -/
theorem readX_commit (s : State) (f : Effect) (r : RegNo) :
    (s.commit f).readX r = match f.reg with
      | none => s.readX r
      | some (rd, v) => if r = rd then v else s.readX r := by
  unfold State.readX
  rw [State.commit_x]
  unfold Effect.regsAfter
  cases h : f.reg with
  | none => rfl
  | some p =>
    obtain ⟨rd, v⟩ := p
    by_cases e : r = rd
    · subst e; simp
    · have h' : ¬ (rd : Nat) = r := fun q => e (Fin.ext q.symm)
      simp [h', e]

/-! ### The two ways a command ends -/

@[simp] theorem finish_error (s : State) (e : CmdError) : s.finish (.error e) = .next (s.raise e) := rfl

@[simp] theorem finish_ok (s : State) (f : Effect) : s.finish (.ok f) = .next (s.commit f) := rfl

/-- A command that ends has raised, or has written its effect. -/
theorem finish_next {s t : State} {r : Except CmdError Effect} (h : s.finish r = .next t) :
    (∃ e, r = .error e ∧ t = s.raise e) ∨ (∃ f, r = .ok f ∧ t = s.commit f) := by
  cases r with
  | error e => simp only [finish_error, Host.Outcome.next.injEq] at h; exact .inl ⟨e, rfl, h.symm⟩
  | ok f => simp only [finish_ok, Host.Outcome.next.injEq] at h; exact .inr ⟨f, rfl, h.symm⟩

/-- A raised error leaves what 60_exceptions.md R380 says. -/
theorem failedWith_raise (s : State) (e : CmdError) : FailedWith s (s.raise e) e :=
  ⟨fun _ => rfl, ⟨rfl, fun _ => rfl⟩, ⟨rfl, rfl⟩, rfl, rfl, rfl, 0#64, rfl, rfl⟩

/-- A raised error leaves XBUF, the configuration and the host's lists as they are. -/
theorem sameMemory_raise (s : State) (e : CmdError) : SameMemory s (s.raise e) := ⟨rfl, fun _ => rfl⟩

/-- An effect that writes one register and nothing else. -/
theorem commit_reg (s : State) (rd : RegNo) (v : Option ApInt) (flag : Bool) (data : Word64) :
    let t := s.commit { reg := some (rd, v), flag := flag, data := data }
    t.readX rd = v ∧ SameRegsBut rd s t ∧ SameMemory s t ∧ SameLog s t ∧ SameHost s t ∧
      Responds s t 0#4 flag data.toNat := by
  refine ⟨?_, ?_, ⟨rfl, fun _ => rfl⟩, ⟨rfl, rfl, rfl⟩, ⟨rfl, rfl⟩, data, rfl, rfl⟩
  · simp [readX_commit]
  · intro r h; simp [readX_commit, h]

/-- An effect that writes nothing but its response. -/
theorem commit_answer (s : State) (flag : Bool) (data : Word64) :
    let t := s.commit { flag := flag, data := data }
    SameRegs s t ∧ SameMemory s t ∧ SameLog s t ∧ SameHost s t ∧ Responds s t 0#4 flag data.toNat :=
  ⟨fun r => by simp [readX_commit], ⟨rfl, fun _ => rfl⟩, ⟨rfl, rfl, rfl⟩, ⟨rfl, rfl⟩, data, rfl, rfl⟩

/-- An effect that replaces the exchange buffer and writes nothing else but its response. -/
theorem commit_memory (s : State) (m : Memory) (data : Word64) :
    let t := s.commit { xbuf := some m, data := data }
    t.xbuf = m ∧ SameRegs s t ∧ SameLog s t ∧ SameHost s t ∧ Responds s t 0#4 false data.toNat :=
  ⟨rfl, fun r => by simp [readX_commit], ⟨rfl, rfl, rfl⟩, ⟨rfl, rfl⟩, data, rfl, rfl⟩

/-! ### The checks -/

section
variable {s : State} {a b : ApInt} {r rs1 rs2 : RegNo} {e : CmdError} {c : Cfg} {imm : Imm} {w : Nat}

theorem source_ok : source s r = .ok a ↔ s.readX r = some a := by
  unfold source; cases s.readX r <;> simp

theorem source_error : source s r = .error e ↔ s.readX r = none ∧ e = .emptyRegister := by
  unfold source; cases s.readX r <;> simp [eq_comm]

theorem sameWidth_ok : sameWidth a b = .ok () ↔ a.w = b.w := by
  unfold sameWidth; split <;> simp_all

theorem sameWidth_error : sameWidth a b = .error e ↔ a.w ≠ b.w ∧ e = .widthMismatch a.w b.w := by
  unfold sameWidth; split <;> simp_all [eq_comm]

theorem sources_eq (s : State) (rs1 rs2 : RegNo) :
    sources s rs1 rs2 = match s.readX rs1, s.readX rs2 with
      | some a, some b => if a.w = b.w then .ok (a, b) else .error (.widthMismatch a.w b.w)
      | _, _ => .error .emptyRegister := by
  unfold sources source sameWidth
  cases s.readX rs1 <;> cases s.readX rs2 <;> simp only [bind, Except.bind, pure, Except.pure]
  split <;> split <;> simp_all

theorem sources_ok :
    sources s rs1 rs2 = .ok (a, b) ↔ s.readX rs1 = some a ∧ s.readX rs2 = some b ∧ a.w = b.w := by
  rw [sources_eq]
  cases s.readX rs1 <;> cases s.readX rs2 <;> simp only [reduceCtorEq, false_and, and_false, Option.some.injEq]
  split
  · simp only [Except.ok.injEq, Prod.mk.injEq]
    constructor
    · rintro ⟨rfl, rfl⟩; exact ⟨rfl, rfl, by assumption⟩
    · rintro ⟨rfl, rfl, -⟩; exact ⟨rfl, rfl⟩
  · simp only [reduceCtorEq, false_iff]
    rintro ⟨rfl, rfl, h⟩; contradiction

theorem sources_error :
    sources s rs1 rs2 = .error e ↔
      ((s.readX rs1 = none ∨ s.readX rs2 = none) ∧ e = .emptyRegister) ∨
      ∃ a b, s.readX rs1 = some a ∧ s.readX rs2 = some b ∧ a.w ≠ b.w ∧ e = .widthMismatch a.w b.w := by
  rw [sources_eq]
  cases s.readX rs1 with
  | none => simp [eq_comm]
  | some a =>
    cases s.readX rs2 with
    | none => simp [eq_comm]
    | some b =>
      simp only [reduceCtorEq, or_self, false_and, false_or, Option.some.injEq]
      split
      · simp only [reduceCtorEq, false_iff]
        rintro ⟨a', b', rfl, rfl, h, -⟩; contradiction
      · simp only [Except.error.injEq]
        constructor
        · rintro rfl; exact ⟨a, b, rfl, rfl, by assumption, rfl⟩
        · rintro ⟨a', b', rfl, rfl, -, rfl⟩; rfl

theorem divSources_ok :
    divSources s rs1 rs2 = .ok (a, b) ↔
      s.readX rs1 = some a ∧ s.readX rs2 = some b ∧ a.w = b.w ∧ b.u ≠ 0 := by
  unfold divSources
  cases h : sources s rs1 rs2 with
  | error e =>
    simp only [bind, Except.bind]
    constructor
    · intro h; cases h
    · rintro ⟨h1, h2, h3, _⟩; rw [sources_ok.2 ⟨h1, h2, h3⟩] at h; cases h
  | ok p =>
    obtain ⟨p, q⟩ := p
    obtain ⟨h1, h2, h3⟩ := sources_ok.1 h
    simp only [bind, Except.bind, h1, h2, Option.some.injEq]
    split
    · constructor
      · intro h; cases h
      · rintro ⟨-, rfl, -, h⟩; contradiction
    · simp only [Except.ok.injEq, Prod.mk.injEq]
      constructor
      · rintro ⟨rfl, rfl⟩; exact ⟨rfl, rfl, h3, by assumption⟩
      · rintro ⟨rfl, rfl, -, -⟩; exact ⟨rfl, rfl⟩

theorem divSources_error :
    divSources s rs1 rs2 = .error e ↔
      sources s rs1 rs2 = .error e ∨ ∃ a b, sources s rs1 rs2 = .ok (a, b) ∧ b.u = 0 ∧ e = .divisionByZero := by
  unfold divSources
  cases sources s rs1 rs2 with
  | error e' => simp [bind, Except.bind]
  | ok p =>
    obtain ⟨a, b⟩ := p
    simp only [bind, Except.bind, reduceCtorEq, false_or, Except.ok.injEq, Prod.mk.injEq]
    split
    · simp only [Except.error.injEq]
      constructor
      · rintro rfl; exact ⟨a, b, ⟨rfl, rfl⟩, by assumption, rfl⟩
      · rintro ⟨a', b', ⟨rfl, rfl⟩, -, rfl⟩; rfl
    · simp only [reduceCtorEq, false_iff]
      rintro ⟨a', b', ⟨rfl, rfl⟩, h, -⟩; contradiction

theorem widthField_ok : widthField c imm = .ok w ↔ w = imm.toNat ∧ 1 ≤ w ∧ w ≤ c.maxWidth := by
  unfold widthField
  split
  · simp only [reduceCtorEq, false_iff]; omega
  · simp only [Except.ok.injEq]; constructor <;> omega

theorem widthField_error :
    widthField c imm = .error e ↔ (imm.toNat = 0 ∨ c.maxWidth < imm.toNat) ∧ e = .widthOutOfRange := by
  unfold widthField; split <;> simp_all [eq_comm]

theorem radixField_ok {radix : BitVec 8} {n : Nat} :
    radixField radix = .ok n ↔ n = radix.toNat ∧ 2 ≤ n ∧ n ≤ 36 := by
  unfold radixField
  split
  · simp only [reduceCtorEq, false_iff]; omega
  · simp only [Except.ok.injEq]; constructor <;> omega

theorem radixField_error {radix : BitVec 8} :
    radixField radix = .error e ↔ (radix.toNat < 2 ∨ 36 < radix.toNat) ∧ e = .invalidRadix := by
  unfold radixField; split <;> simp_all [eq_comm]

end

/-- A canonicalised result is a legal value of its BitWidth (41_storage_width.md R151). -/
theorem canon_wf {c : Cfg} {w v : Nat} (h1 : 1 ≤ w) (h2 : w ≤ c.maxWidth) : (canon w v).WF c :=
  ⟨h1, h2, Nat.mod_lt _ (Nat.two_pow_pos w)⟩

end Sys2Proof.Machine
end

