-- ==== Sys2Proof/Laws/Inv.lean ====
section
/-! SUPPORT. The invariant as a computation, so that a concrete state can be shown to meet it. -/

namespace Sys2Proof.Machine

/-- Every clause of `State.Inv`, evaluated. -/
def State.invCheck (s : State) : Bool :=
  decide s.cfg.WF &&
  (List.finRange 16).all (fun r => match s.readX r with
    | none => true
    | some a => decide (a.WF s.cfg)) &&
  decide (Memory.WF s.cfg s.xbuf) &&
  decide (s.lasterr.toNat ≤ 12) &&
  decide ((s.expected = 0#32 ∧ s.found = 0#32) ∨
    (s.expected ≠ s.found ∧ 1 ≤ s.expected.toNat ∧ s.expected.toNat ≤ s.cfg.maxWidth ∧
      1 ≤ s.found.toNat ∧ s.found.toNat ≤ s.cfg.maxWidth)) &&
  s.responses.all fun r => decide (r.err.toNat ≤ 12 ∧ (r.err ≠ 0#4 → r.flag = false ∧ r.data = 0#64))

/-- A state that passes the check meets the invariant. -/
theorem inv_of_invCheck {s : State} (h : s.invCheck = true) : s.Inv := by
  simp only [State.invCheck, Bool.and_eq_true, decide_eq_true_eq, List.all_eq_true] at h
  obtain ⟨⟨⟨⟨⟨h1, h2⟩, h3⟩, h4⟩, h5⟩, h6⟩ := h
  refine ⟨h1, fun r a hr => ?_, h3, h4, h5, h6⟩
  have := h2 r (List.mem_finRange r)
  rw [hr] at this
  simpa using this

end Sys2Proof.Machine
end

