-- ==== Sys2Proof/Laws/Memory.lean ====
section
/-! SUPPORT. The exchange buffer: every memory operation keeps its canonical form, and reset's buffer has it. -/

namespace Sys2Proof.Machine

theorem base_pos (D : Nat) : 0 < base D := Nat.two_pow_pos D

theorem memory_wf_clear (c : Cfg) (m : Memory) : Memory.WF c (Memory.clear m) := by
  simp [Memory.clear, Memory.WF]

theorem memory_wf_append {c : Cfg} {m : Memory} {d : Digit} (h : Memory.WF c m) (hl : m.length < xcap c)
    (hd : d < base c.digitBits.bits) : Memory.WF c (Memory.append m d) := by
  refine ⟨by simp only [Memory.append, List.length_append, List.length_cons, List.length_nil]; omega, ?_⟩
  intro e he
  rcases List.mem_append.1 he with he | he
  · exact h.2 e he
  · rw [List.mem_singleton.1 he]; exact hd

theorem memory_wf_replace {c : Cfg} {m : Memory} {vals : List Digit} (hl : vals.length ≤ xcap c)
    (hd : ∀ d ∈ vals, d < base c.digitBits.bits) : Memory.WF c (Memory.replace m vals) := ⟨hl, hd⟩

/-- Every word of a value is a Digit. -/
theorem words_lt (D : Nat) (a : ApInt) : ∀ d ∈ a.words D, d < base D := by
  intro d hd
  obtain ⟨k, -, rfl⟩ := List.mem_map.1 hd
  exact Nat.mod_lt _ (base_pos D)

@[simp] theorem words_length (D : Nat) (a : ApInt) : (a.words D).length = nwords D a.w := by
  simp [ApInt.words]

/-- A value has at most as many words as bits. -/
theorem nwords_le {D w : Nat} (hD : 0 < D) : nwords D w ≤ w := by
  unfold nwords
  rcases Nat.eq_zero_or_pos w with rfl | hw
  · exact Nat.le_of_lt_succ ((Nat.div_lt_iff_lt_mul hD).2 (by omega))
  · obtain ⟨k, rfl⟩ : ∃ k, w = k + 1 := ⟨w - 1, by omega⟩
    have h : (k + 1 + D - 1) = k + D := by omega
    rw [h, Nat.add_div_right _ hD]
    exact Nat.succ_le_succ (Nat.div_le_self k D)

theorem DigitBits.bits_pos (d : DigitBits) : 0 < d.bits := by cases d <;> decide

theorem digitBits_ge (d : DigitBits) : 8 ≤ d.bits := by cases d <;> decide

/-- TOWORDS keeps the canonical form (46_host_exchange.md R352). -/
theorem memory_wf_words {c : Cfg} {m : Memory} {a : ApInt} (h : a.WF c) :
    Memory.WF c (Memory.replace m (a.words c.digitBits.bits)) := by
  refine memory_wf_replace ?_ (words_lt _ a)
  have h1 : nwords c.digitBits.bits a.w ≤ a.w := nwords_le (DigitBits.bits_pos _)
  have h2 := h.2.1
  simp only [words_length, xcap]; omega

/-- The characters FORMAT writes are below 128 (45_convert_radix.md R321). -/
theorem digitChar_lt {v : Nat} (h : v < 36) : digitChar v < 128 := by
  unfold digitChar
  split
  · exact (by omega : 0x30 + v < 128)
  · exact (by omega : 0x61 + (v - 10) < 128)

theorem digitsLoop_lt {radix : Nat} (hr : 2 ≤ radix) (hr' : radix ≤ 36) :
    ∀ (fuel m : Nat) (acc : List Digit), (∀ d ∈ acc, d < 128) → ∀ d ∈ digitsLoop radix fuel m acc, d < 128
  | 0, _, _, h => h
  | fuel + 1, m, acc, h => by
    unfold digitsLoop
    split
    · exact h
    · refine digitsLoop_lt hr hr' fuel _ _ ?_
      intro d hd
      rcases List.mem_cons.1 hd with rfl | hd
      · exact digitChar_lt (by have := Nat.mod_lt m (show 0 < radix by omega); omega)
      · exact h d hd

/-- The digit loop writes at most one digit for each doubling. -/
theorem digitsLoop_length {radix : Nat} (hr : 2 ≤ radix) :
    ∀ (fuel m k : Nat) (acc : List Digit), m < 2 ^ k → (digitsLoop radix fuel m acc).length ≤ k + acc.length
  | 0, _, _, _, _ => Nat.le_add_left _ _
  | fuel + 1, m, k, acc, h => by
    unfold digitsLoop
    split
    · exact Nat.le_add_left _ _
    · rename_i hm
      cases k with
      | zero => simp at h; omega
      | succ k =>
        have h2 : m / radix < 2 ^ k := by
          rw [Nat.div_lt_iff_lt_mul (by omega)]
          calc m < 2 ^ (k + 1) := h
            _ = 2 ^ k * 2 := pow_succ 2 k
            _ ≤ 2 ^ k * radix := Nat.mul_le_mul_left _ hr
        have := digitsLoop_length hr fuel (m / radix) k (digitChar (m % radix) :: acc) h2
        simp only [List.length_cons] at this
        omega

theorem digits_lt {m radix : Nat} (hr : 2 ≤ radix) (hr' : radix ≤ 36) : ∀ d ∈ digits m radix, d < 128 := by
  unfold digits
  split
  · intro d hd; rw [List.mem_singleton.1 hd]; decide
  · exact digitsLoop_lt hr hr' _ _ _ (by simp)

theorem digits_length {m radix k : Nat} (hr : 2 ≤ radix) (hk : 1 ≤ k) (h : m < 2 ^ k) :
    (digits m radix).length ≤ k := by
  unfold digits
  split
  · simpa using hk
  · simpa using digitsLoop_length hr m m k [] h

/-- A FORMAT text fits the exchange buffer: at most one digit per bit, and a sign (10_state.md R32). -/
theorem formatText_length {sgn : Signedness} {radix : Nat} {a : ApInt} (hr : 2 ≤ radix) (hw : 1 ≤ a.w)
    (hu : a.u < 2 ^ a.w) : (formatText sgn radix a).length ≤ a.w + 1 := by
  unfold formatText
  split
  · rename_i h
    have hpos : a.u ≠ 0 := by
      intro h0; simp [ApInt.signBit, h0] at h
    simp only [List.length_cons]
    have := digits_length (m := 2 ^ a.w - a.u) hr hw (by omega)
    omega
  · exact Nat.le_succ_of_le (digits_length hr hw hu)

/-- FORMAT keeps the canonical form (45_convert_radix.md R323). -/
theorem memory_wf_format {c : Cfg} {m : Memory} {sgn : Signedness} {radix : Nat} {a : ApInt} (h : a.WF c)
    (hr : 2 ≤ radix) (hr' : radix ≤ 36) : Memory.WF c (Memory.replace m (formatText sgn radix a)) := by
  have hl := formatText_length (sgn := sgn) hr h.1 h.2.2
  have hw := h.2.1
  refine memory_wf_replace (by simp only [xcap]; omega) ?_
  intro d hd
  have h128 : d < 128 := by
    unfold formatText at hd
    split at hd
    · rcases List.mem_cons.1 hd with rfl | hd
      · decide
      · exact digits_lt hr hr' d hd
    · exact digits_lt hr hr' d hd
  calc d < 2 ^ 7 := h128
    _ ≤ 2 ^ c.digitBits.bits := Nat.pow_le_pow_right (by decide) (by have := digitBits_ge c.digitBits; omega)

/-- Reset's buffer has the canonical form. -/
theorem memory_wf_reset (c : Cfg) : Memory.WF c (State.resetWith c).xbuf := by
  simp [State.resetWith, Memory.WF]

end Sys2Proof.Machine
end

