-- ==== Sys2Proof/Laws/PerInstr.lean ====
section
/-! SUPPORT. Per instruction: the encoder puts the instruction's opcode number of 30_encoding.md R98 into bits 7:0 of the
command word (R94), and that number is a row of the opcode map. -/

namespace Sys2Proof.Laws

/-- The low byte of a packed command word is its opcode. -/
theorem opcodeOf_pack (op : BitVec 8) (f : Fields) : opcodeOf (f.pack op) = op := by
  unfold opcodeOf Fields.pack
  rw [BitVec.extractLsb'_append_eq_right]

/-- The statement about one instruction. -/
def OpcodeByte.Statement (i : Instr) : Prop :=
  opcodeOf (encode i).1 = i.opcode ∧ (opcodeRow i.opcode.toNat).isSome = true

theorem OpcodeByte.rdsr : ∀ a, OpcodeByte.Statement (.rdsr a) := fun _ => ⟨opcodeOf_pack _ _, rfl⟩
theorem OpcodeByte.clrerr : OpcodeByte.Statement (.clrerr) := ⟨opcodeOf_pack _ _, rfl⟩
theorem OpcodeByte.xclr : OpcodeByte.Statement (.xclr) := ⟨opcodeOf_pack _ _, rfl⟩
theorem OpcodeByte.xpush : ∀ a, OpcodeByte.Statement (.xpush a) := fun _ => ⟨opcodeOf_pack _ _, rfl⟩
theorem OpcodeByte.xread : ∀ a, OpcodeByte.Statement (.xread a) := fun _ => ⟨opcodeOf_pack _ _, rfl⟩
theorem OpcodeByte.fromprim : ∀ a b c d e, OpcodeByte.Statement (.fromprim a b c d e) := fun _ _ _ _ _ => ⟨opcodeOf_pack _ _, rfl⟩
theorem OpcodeByte.toprim : ∀ a b c, OpcodeByte.Statement (.toprim a b c) := fun _ _ _ => ⟨opcodeOf_pack _ _, rfl⟩
theorem OpcodeByte.fromwords : ∀ a b, OpcodeByte.Statement (.fromwords a b) := fun _ _ => ⟨opcodeOf_pack _ _, rfl⟩
theorem OpcodeByte.towords : ∀ a, OpcodeByte.Statement (.towords a) := fun _ => ⟨opcodeOf_pack _ _, rfl⟩
theorem OpcodeByte.getw : ∀ a, OpcodeByte.Statement (.getw a) := fun _ => ⟨opcodeOf_pack _ _, rfl⟩
theorem OpcodeByte.copy : ∀ a b, OpcodeByte.Statement (.copy a b) := fun _ _ => ⟨opcodeOf_pack _ _, rfl⟩
theorem OpcodeByte.drop : ∀ a, OpcodeByte.Statement (.drop a) := fun _ => ⟨opcodeOf_pack _ _, rfl⟩
theorem OpcodeByte.trunc : ∀ a b c, OpcodeByte.Statement (.trunc a b c) := fun _ _ _ => ⟨opcodeOf_pack _ _, rfl⟩
theorem OpcodeByte.zext : ∀ a b c, OpcodeByte.Statement (.zext a b c) := fun _ _ _ => ⟨opcodeOf_pack _ _, rfl⟩
theorem OpcodeByte.sext : ∀ a b c, OpcodeByte.Statement (.sext a b c) := fun _ _ _ => ⟨opcodeOf_pack _ _, rfl⟩
theorem OpcodeByte.add : ∀ a b c, OpcodeByte.Statement (.add a b c) := fun _ _ _ => ⟨opcodeOf_pack _ _, rfl⟩
theorem OpcodeByte.addco : ∀ a b c, OpcodeByte.Statement (.addco a b c) := fun _ _ _ => ⟨opcodeOf_pack _ _, rfl⟩
theorem OpcodeByte.sub : ∀ a b c, OpcodeByte.Statement (.sub a b c) := fun _ _ _ => ⟨opcodeOf_pack _ _, rfl⟩
theorem OpcodeByte.subbo : ∀ a b c, OpcodeByte.Statement (.subbo a b c) := fun _ _ _ => ⟨opcodeOf_pack _ _, rfl⟩
theorem OpcodeByte.neg : ∀ a b, OpcodeByte.Statement (.neg a b) := fun _ _ => ⟨opcodeOf_pack _ _, rfl⟩
theorem OpcodeByte.umag : ∀ a b, OpcodeByte.Statement (.umag a b) := fun _ _ => ⟨opcodeOf_pack _ _, rfl⟩
theorem OpcodeByte.mul : ∀ a b c, OpcodeByte.Statement (.mul a b c) := fun _ _ _ => ⟨opcodeOf_pack _ _, rfl⟩
theorem OpcodeByte.udiv : ∀ a b c, OpcodeByte.Statement (.udiv a b c) := fun _ _ _ => ⟨opcodeOf_pack _ _, rfl⟩
theorem OpcodeByte.urem : ∀ a b c, OpcodeByte.Statement (.urem a b c) := fun _ _ _ => ⟨opcodeOf_pack _ _, rfl⟩
theorem OpcodeByte.sdiv : ∀ a b c, OpcodeByte.Statement (.sdiv a b c) := fun _ _ _ => ⟨opcodeOf_pack _ _, rfl⟩
theorem OpcodeByte.srem : ∀ a b c, OpcodeByte.Statement (.srem a b c) := fun _ _ _ => ⟨opcodeOf_pack _ _, rfl⟩
theorem OpcodeByte.and : ∀ a b c, OpcodeByte.Statement (.and a b c) := fun _ _ _ => ⟨opcodeOf_pack _ _, rfl⟩
theorem OpcodeByte.or : ∀ a b c, OpcodeByte.Statement (.or a b c) := fun _ _ _ => ⟨opcodeOf_pack _ _, rfl⟩
theorem OpcodeByte.xor : ∀ a b c, OpcodeByte.Statement (.xor a b c) := fun _ _ _ => ⟨opcodeOf_pack _ _, rfl⟩
theorem OpcodeByte.not : ∀ a b, OpcodeByte.Statement (.not a b) := fun _ _ => ⟨opcodeOf_pack _ _, rfl⟩
theorem OpcodeByte.shl : ∀ a b c, OpcodeByte.Statement (.shl a b c) := fun _ _ _ => ⟨opcodeOf_pack _ _, rfl⟩
theorem OpcodeByte.lshr : ∀ a b c, OpcodeByte.Statement (.lshr a b c) := fun _ _ _ => ⟨opcodeOf_pack _ _, rfl⟩
theorem OpcodeByte.ashr : ∀ a b c, OpcodeByte.Statement (.ashr a b c) := fun _ _ _ => ⟨opcodeOf_pack _ _, rfl⟩
theorem OpcodeByte.rol : ∀ a b c, OpcodeByte.Statement (.rol a b c) := fun _ _ _ => ⟨opcodeOf_pack _ _, rfl⟩
theorem OpcodeByte.ror : ∀ a b c, OpcodeByte.Statement (.ror a b c) := fun _ _ _ => ⟨opcodeOf_pack _ _, rfl⟩
theorem OpcodeByte.ucmp : ∀ a b, OpcodeByte.Statement (.ucmp a b) := fun _ _ => ⟨opcodeOf_pack _ _, rfl⟩
theorem OpcodeByte.scmp : ∀ a b, OpcodeByte.Statement (.scmp a b) := fun _ _ => ⟨opcodeOf_pack _ _, rfl⟩
theorem OpcodeByte.iszero : ∀ a, OpcodeByte.Statement (.iszero a) := fun _ => ⟨opcodeOf_pack _ _, rfl⟩
theorem OpcodeByte.isones : ∀ a, OpcodeByte.Statement (.isones a) := fun _ => ⟨opcodeOf_pack _ _, rfl⟩
theorem OpcodeByte.sign : ∀ a, OpcodeByte.Statement (.sign a) := fun _ => ⟨opcodeOf_pack _ _, rfl⟩
theorem OpcodeByte.parse : ∀ a b c d, OpcodeByte.Statement (.parse a b c d) := fun _ _ _ _ => ⟨opcodeOf_pack _ _, rfl⟩
theorem OpcodeByte.format : ∀ a b c, OpcodeByte.Statement (.format a b c) := fun _ _ _ => ⟨opcodeOf_pack _ _, rfl⟩

end Sys2Proof.Laws
end

