-- ==== Sys2Proof/Laws/Step.lean ====
section
/-! SUPPORT. What a command and a step can do at all. -/

namespace Sys2Proof.Machine

/-- Every command ends through `finish`: it raises or writes one effect (30_encoding.md R100). -/
theorem exec_finish (i : Instr) (s : State) : ∃ r, exec i s = s.finish r := by
  cases i
  case clrerr => exact ⟨.ok { clearLog := true }, rfl⟩
  case xclr => exact ⟨.ok { xbuf := some (Memory.clear s.xbuf) }, rfl⟩
  case drop rd => exact ⟨.ok { reg := some (rd, none) }, rfl⟩
  all_goals exact ⟨_, rfl⟩

/-- A command that answers a next state has raised an error kind or written an effect. -/
theorem exec_cases {i : Instr} {s t : State} (h : exec i s = .next t) :
    (∃ e, t = s.raise e) ∨ (∃ f, t = s.commit f) := by
  obtain ⟨r, hr⟩ := exec_finish i s
  rw [hr] at h
  rcases finish_next h with ⟨e, -, rfl⟩ | ⟨f, -, rfl⟩
  · exact .inl ⟨e, rfl⟩
  · exact .inr ⟨f, rfl⟩

theorem step_idle {s : State} (h : s.pending = []) : step s = .next s := by
  unfold step; rw [h]

theorem step_reset {s : State} {rest : List HostEvent} (h : s.pending = .reset :: rest) :
    step s = .next ({ s with pending := rest } : State).applyReset := by
  unfold step; rw [h]

theorem step_instr {s : State} {rest : List HostEvent} {cw cdata : Word64} {i : Instr}
    (h : s.pending = .command cw cdata :: rest) (hd : decode cw cdata = .instr i) :
    step s = exec i { s with pending := rest } := by
  unfold step; rw [h]; simp only [hd]

theorem step_illegal {s : State} {rest : List HostEvent} {cw cdata : Word64} {e : DecodeError}
    (h : s.pending = .command cw cdata :: rest) (hd : decode cw cdata = .illegal e) :
    step s = .next (({ s with pending := rest } : State).raise .illegalCommand) := by
  unfold step; rw [h]; simp only [hd]

/-- Everything one step can do. -/
theorem step_cases {s t : State} (h : step s = .next t) :
    (s.pending = [] ∧ t = s) ∨
    (∃ rest, s.pending = .reset :: rest ∧ t = ({ s with pending := rest } : State).applyReset) ∨
    (∃ cw cdata rest e, s.pending = .command cw cdata :: rest ∧ t = ({ s with pending := rest } : State).raise e) ∨
    (∃ cw cdata rest f, s.pending = .command cw cdata :: rest ∧ t = ({ s with pending := rest } : State).commit f) := by
  cases hp : s.pending with
  | nil => rw [step_idle hp] at h; cases h; exact .inl ⟨rfl, rfl⟩
  | cons ev rest =>
    cases ev with
    | reset => rw [step_reset hp] at h; cases h; exact .inr (.inl ⟨rest, rfl, rfl⟩)
    | command cw cdata =>
      cases hd : decode cw cdata with
      | illegal e => rw [step_illegal hp hd] at h; cases h; exact .inr (.inr (.inl ⟨cw, cdata, rest, _, rfl, rfl⟩))
      | instr i =>
        rw [step_instr hp hd] at h
        rcases exec_cases h with ⟨e, rfl⟩ | ⟨f, rfl⟩
        · exact .inr (.inr (.inl ⟨cw, cdata, rest, e, rfl, rfl⟩))
        · exact .inr (.inr (.inr ⟨cw, cdata, rest, f, rfl, rfl⟩))

end Sys2Proof.Machine
end

