-- ==== Sys2Proof/Tests/Slice0.lean ====
section
/-! SUPPORT. Tests: well-formedness, the decoder on words written out from the encoding (30_encoding.md R94, R98), one
step of each command on the examples of the rules, and states and operands that meet the hypotheses of each
statement. -/

namespace Sys2Proof.Tests

open Sys2Proof.Machine

/-! ### Helpers -/

/-- A block of 64-bit Digits and MAX_WIDTH 4096 (unless said otherwise) holding the given `(register, w, u)` and XBUF. -/
def st (regs : List (RegNo × Nat × Nat)) (xbuf : List Nat) (d : DigitBits := .d64) : State :=
  regs.foldl (fun s r => s.writeX r.1 (some { w := r.2.1, u := r.2.2 }))
    { State.resetWith { digitBits := d, maxWidth := 4096 } with xbuf := xbuf }

/-- The state after a command. -/
def after (i : Instr) (s : State) : State :=
  match exec i s with
  | .next t => t
  | .fault _ => s
  | .refused _ => s

/-- The state after a step. -/
def afterStep (s : State) : State :=
  match step s with
  | .next t => t
  | .fault _ => s
  | .refused _ => s

theorem exec_after (i : Instr) (s : State) : exec i s = .next (after i s) := by
  obtain ⟨r, h⟩ := exec_finish i s
  unfold after
  rw [h]
  cases r <;> rfl

theorem step_afterStep (s : State) : step s = .next (afterStep s) := by
  unfold afterStep step
  cases s.pending with
  | nil => rfl
  | cons ev rest =>
    cases ev with
    | reset => rfl
    | command cw cdata =>
      simp only
      cases decode cw cdata with
      | illegal e => rfl
      | instr i => simp only [exec_after]

/-- What register `r` holds after a command. -/
def reg (i : Instr) (s : State) (r : RegNo) : Option (Nat × Nat) := ((after i s).readX r).map fun a => (a.w, a.u)

/-- The response of a command. -/
def rsp (i : Instr) (s : State) : Option (Nat × Bool × Nat) :=
  ((after i s).responses.getLast?).map fun r => (r.err.toNat, r.flag, r.data.toNat)

/-- XBUF after a command. -/
def buf (i : Instr) (s : State) : List Nat := (after i s).xbuf

/-- The codes of a text's characters. -/
def text (cs : List Char) : List Nat := cs.map Char.toNat

/-! ### Well-formedness: the one check refuses an ill-formed term (30_encoding.md R100 stage 1) -/

theorem test_wellFormed_rdsr_8 : (Instr.rdsr 8).wellFormed = true := by decide
theorem test_wellFormed_rdsr_9_refused : (Instr.rdsr 9).wellFormed = false := by decide
theorem test_decode_rdsr_9_refused : decode 0x0000000900000001 0 = .illegal (.reservedStatusIndex 9) := by decide
theorem test_decode_all_zero_refused : decode 0 0 = .illegal (.reservedOpcode 0) := by decide
theorem test_decode_unused_field_refused : decode 0x0000000100021320 0 = .illegal (.unusedFieldSet 0x20) := by decide
theorem test_decode_bit23_refused : decode 0x0000000800800110 0 = .illegal (.unusedFieldSet 0x10) := by decide
theorem test_decodeTableWord : decodeTableWord 64 0x0000000000021320 = some (.add 3 1 2) := by decide
theorem test_decodeTableWord_cdata :
    decodeTableWord 128 0x00000000000000C80000001000100110 = some (.fromprim 1 .signed .p8 16 0xC8) := by decide

/-! ### Decoding: one word for each row, its fields shifted into place by hand (R94, R98) -/

theorem test_decode_rdsr : decode 0x0000000500000001 0x0 = .instr (.rdsr 5) := by decide
theorem test_decode_clrerr : decode 0x0000000000000002 0x0 = .instr (.clrerr) := by decide
theorem test_decode_xclr : decode 0x0000000000000003 0x0 = .instr (.xclr) := by decide
theorem test_decode_xpush : decode 0x0000000000000004 0xFEDCBA9876543210 = .instr (.xpush 0xFEDCBA9876543210) := by decide
theorem test_decode_xread : decode 0xFFFFFFFF00000005 0x0 = .instr (.xread 0xFFFFFFFF) := by decide
theorem test_decode_fromprim : decode 0x0000004600500910 0x80000000 = .instr (.fromprim 9 .signed .p32 70 0x80000000) := by decide
theorem test_decode_toprim : decode 0x000000000060C011 0x0 = .instr (.toprim 12 .unsigned .p64) := by decide
theorem test_decode_fromwords : decode 0x0000100000000F12 0x0 = .instr (.fromwords 15 4096) := by decide
theorem test_decode_towords : decode 0x0000000000003013 0x0 = .instr (.towords 3) := by decide
theorem test_decode_getw : decode 0x000000000000E014 0x0 = .instr (.getw 14) := by decide
theorem test_decode_copy : decode 0x000000000000A515 0x0 = .instr (.copy 5 10) := by decide
theorem test_decode_drop : decode 0x0000000000000716 0x0 = .instr (.drop 7) := by decide
theorem test_decode_trunc : decode 0x0000000800001217 0x0 = .instr (.trunc 2 1 8) := by decide
theorem test_decode_zext : decode 0x000000100000D218 0x0 = .instr (.zext 2 13 16) := by decide
theorem test_decode_sext : decode 0x0000004600001319 0x0 = .instr (.sext 3 1 70) := by decide
theorem test_decode_add : decode 0x0000000000021320 0x0 = .instr (.add 3 1 2) := by decide
theorem test_decode_addco : decode 0x0000000000021321 0x0 = .instr (.addco 3 1 2) := by decide
theorem test_decode_sub : decode 0x0000000000021322 0x0 = .instr (.sub 3 1 2) := by decide
theorem test_decode_subbo : decode 0x0000000000021323 0x0 = .instr (.subbo 3 1 2) := by decide
theorem test_decode_neg : decode 0x000000000000B424 0x0 = .instr (.neg 4 11) := by decide
theorem test_decode_umag : decode 0x000000000000B425 0x0 = .instr (.umag 4 11) := by decide
theorem test_decode_mul : decode 0x00000000000C5A26 0x0 = .instr (.mul 10 5 12) := by decide
theorem test_decode_udiv : decode 0x00000000000C5A28 0x0 = .instr (.udiv 10 5 12) := by decide
theorem test_decode_urem : decode 0x00000000000C5A29 0x0 = .instr (.urem 10 5 12) := by decide
theorem test_decode_sdiv : decode 0x00000000000C5A2A 0x0 = .instr (.sdiv 10 5 12) := by decide
theorem test_decode_srem : decode 0x00000000000C5A2B 0x0 = .instr (.srem 10 5 12) := by decide
theorem test_decode_and : decode 0x00000000000C5A30 0x0 = .instr (.and 10 5 12) := by decide
theorem test_decode_or : decode 0x00000000000C5A31 0x0 = .instr (.or 10 5 12) := by decide
theorem test_decode_xor : decode 0x00000000000C5A32 0x0 = .instr (.xor 10 5 12) := by decide
theorem test_decode_not : decode 0x0000000000008F33 0x0 = .instr (.not 15 8) := by decide
theorem test_decode_shl : decode 0x8000000100009638 0x0 = .instr (.shl 6 9 0x80000001) := by decide
theorem test_decode_lshr : decode 0x8000000100009639 0x0 = .instr (.lshr 6 9 0x80000001) := by decide
theorem test_decode_ashr : decode 0x800000010000963A 0x0 = .instr (.ashr 6 9 0x80000001) := by decide
theorem test_decode_rol : decode 0x800000010000963B 0x0 = .instr (.rol 6 9 0x80000001) := by decide
theorem test_decode_ror : decode 0x800000010000963C 0x0 = .instr (.ror 6 9 0x80000001) := by decide
theorem test_decode_ucmp : decode 0x0000000000014040 0x0 = .instr (.ucmp 4 1) := by decide
theorem test_decode_scmp : decode 0x0000000000014041 0x0 = .instr (.scmp 4 1) := by decide
theorem test_decode_iszero : decode 0x000000000000D044 0x0 = .instr (.iszero 13) := by decide
theorem test_decode_isones : decode 0x000000000000D045 0x0 = .instr (.isones 13) := by decide
theorem test_decode_sign : decode 0x000000000000D046 0x0 = .instr (.sign 13) := by decide
theorem test_decode_parse : decode 0x0000001024100150 0x0 = .instr (.parse 1 .signed 36 16) := by decide
theorem test_decode_format : decode 0x000000000A001051 0x0 = .instr (.format 1 .unsigned 10) := by decide

/-! ### One step of each command: the examples of the rules -/

theorem test_rdsr_digit_bits_after_reset : rsp (.rdsr 0) State.reset = some (0, false, 64) := by decide
theorem test_rdsr_valid : rsp (.rdsr 8) (st [(0, 8, 1), (15, 8, 0)] []) = some (0, false, 0x8001) := by decide
theorem test_clrerr : (after .clrerr { st [] [] with lasterr := 1, expected := 8, found := 16 }) =
    { st [] [] with responses := [{ err := 0, flag := false, data := 0 }] } := by decide
theorem test_xclr : buf .xclr (st [] [1, 2]) = [] := by decide
theorem test_xpush : buf (.xpush 0x1C8) (st [] [0x32] .d8) = [0x32, 0xC8] := by decide
set_option maxRecDepth 4000 in
theorem test_xpush_full : rsp (.xpush 1) { st [] (List.replicate 129 0) with cfg := { digitBits := .d8, maxWidth := 128 } } =
    some (12, false, 0) := by decide
theorem test_xread : rsp (.xread 1) (st [] [0xFFFFFFFFFFFFFFC8, 0x3F]) = some (0, false, 0x3F) := by decide
theorem test_xread_beyond : rsp (.xread 2) (st [] [0xFFFFFFFFFFFFFFC8, 0x3F]) = some (12, false, 0) := by decide
theorem test_fromprim_signed : reg (.fromprim 1 .signed .p32 70 0x80000000) (st [] []) 1 = some (70, 0x3FFFFFFFFF80000000) := by decide
theorem test_fromprim_truncates : reg (.fromprim 1 .signed .p64 4 0xFFFFFFFFFFFFFFF5) (st [] []) 1 = some (4, 0x5) := by decide
theorem test_toprim_signed : rsp (.toprim 1 .signed .p8) (st [(1, 16, 0xFFC8)] []) = some (0, false, 0xC8) := by decide
theorem test_toprim_out_of_range : rsp (.toprim 1 .signed .p8) (st [(1, 16, 0x00C8)] []) = some (8, false, 0) := by decide
theorem test_fromwords_masks : reg (.fromwords 1 70) (st [] [0xFFFFFFFFFFFFFFFF, 0xFF]) 1 = some (70, 0x3FFFFFFFFFFFFFFFFF) := by decide
theorem test_fromwords_count : rsp (.fromwords 1 129) (st [] [0xFFFFFFFFFFFFFFFF, 0xFF]) = some (4, false, 0) := by decide
theorem test_towords : buf (.towords 3) (st [(3, 70, 0x3FFFFFFFFFFFFFFFC8)] []) = [0xFFFFFFFFFFFFFFC8, 0x3F] := by decide
theorem test_towords_width : rsp (.towords 3) (st [(3, 70, 0x3FFFFFFFFFFFFFFFC8)] []) = some (0, false, 70) := by decide
theorem test_getw : rsp (.getw 3) (st [(3, 70, 5)] []) = some (0, false, 70) := by decide
theorem test_getw_empty : rsp (.getw 5) (st [(3, 70, 5)] []) = some (10, false, 0) := by decide
theorem test_copy : reg (.copy 5 1) (st [(1, 8, 0xC8)] []) 5 = some (8, 0xC8) := by decide
theorem test_drop : reg (.drop 5) (st [(5, 8, 0xC8)] []) 5 = none := by decide
theorem test_drop_empty : rsp (.drop 5) (st [] []) = some (0, false, 0) := by decide
theorem test_trunc : reg (.trunc 2 1 8) (st [(1, 16, 0xABCD)] []) 2 = some (8, 0xCD) := by decide
theorem test_trunc_wider : rsp (.trunc 2 1 17) (st [(1, 16, 0xABCD)] []) = some (2, false, 0) := by decide
theorem test_zext : reg (.zext 2 1 16) (st [(1, 8, 0xC8)] []) 2 = some (16, 0x00C8) := by decide
theorem test_zext_width_zero : rsp (.zext 2 1 0) (st [(1, 8, 0xC8)] []) = some (11, false, 0) := by decide
theorem test_sext : reg (.sext 3 1 70) (st [(1, 8, 0xC8)] []) 3 = some (70, 0x3FFFFFFFFFFFFFFFC8) := by decide
theorem test_sext_width_one : reg (.sext 3 1 8) (st [(1, 1, 1)] []) 3 = some (8, 0xFF) := by decide
theorem test_add_wraps : reg (.add 3 1 2) (st [(1, 8, 200), (2, 8, 100)] []) 3 = some (8, 44) := by decide
theorem test_add_in_place : reg (.add 1 1 1) (st [(1, 8, 100)] []) 1 = some (8, 200) := by decide
theorem test_addco_carry_below_word_top : rsp (.addco 3 1 2) (st [(1, 65, 2 ^ 65 - 1), (2, 65, 1)] []) = some (0, true, 0) := by decide
theorem test_addco_no_carry : rsp (.addco 3 1 2) (st [(1, 8, 100), (2, 8, 27)] []) = some (0, false, 0) := by decide
theorem test_sub_wraps : reg (.sub 3 1 2) (st [(1, 70, 5), (2, 70, 7)] []) 3 = some (70, 0x3FFFFFFFFFFFFFFFFE) := by decide
theorem test_sub_mismatch : rsp (.sub 3 1 2) (st [(1, 8, 5), (2, 16, 7)] []) = some (1, false, 0) := by decide
theorem test_subbo_borrow : rsp (.subbo 3 1 2) (st [(1, 8, 44), (2, 8, 100)] []) = some (0, true, 0) := by decide
theorem test_subbo_no_borrow : reg (.subbo 3 1 2) (st [(1, 8, 200), (2, 8, 100)] []) 3 = some (8, 100) := by decide
theorem test_neg : reg (.neg 2 1) (st [(1, 8, 0xC8)] []) 2 = some (8, 0x38) := by decide
theorem test_neg_most_negative : reg (.neg 2 1) (st [(1, 8, 0x80)] []) 2 = some (8, 0x80) := by decide
theorem test_umag : reg (.umag 2 1) (st [(1, 8, 0xC8)] []) 2 = some (8, 0x38) := by decide
theorem test_umag_flag : rsp (.umag 2 1) (st [(1, 8, 0x80)] []) = some (0, true, 0) := by decide
theorem test_mul_truncates : reg (.mul 3 1 2) (st [(1, 8, 200), (2, 8, 100)] []) 3 = some (8, 32) := by decide
theorem test_mul_128 : reg (.mul 3 1 2) (st [(1, 128, 2 ^ 64 + 3), (2, 128, 2 ^ 64 + 5)] []) 3 = some (128, 0x8000000000000000F) := by decide
theorem test_udiv : reg (.udiv 3 1 2) (st [(1, 128, 0xFEDCBA98765432100123456789ABCDEF), (2, 128, 0x10000000000000003)] []) 3 =
    some (128, 0xFEDCBA987654320D) := by decide
theorem test_udiv_by_zero : rsp (.udiv 3 1 2) (st [(1, 8, 0), (2, 8, 0)] []) = some (3, false, 0) := by decide
theorem test_urem : reg (.urem 3 1 2) (st [(1, 128, 0xFEDCBA98765432100123456789ABCDEF), (2, 128, 0x10000000000000003)] []) 3 =
    some (128, 0x048D159E26AF37C8) := by decide
theorem test_sdiv_toward_zero : reg (.sdiv 3 1 2) (st [(1, 8, 0xC8), (2, 8, 0x05)] []) 3 = some (8, 0xF5) := by decide
theorem test_sdiv_most_negative : reg (.sdiv 3 1 2) (st [(1, 8, 0x80), (2, 8, 0xFF)] []) 3 = some (8, 0x80) := by decide
theorem test_srem_sign_of_dividend : reg (.srem 3 1 2) (st [(1, 8, 0xC8), (2, 8, 0x05)] []) 3 = some (8, 0xFF) := by decide
theorem test_srem_positive : reg (.srem 3 1 2) (st [(1, 8, 0x38), (2, 8, 0xFB)] []) 3 = some (8, 0x01) := by decide
theorem test_and : reg (.and 3 1 2) (st [(1, 8, 200), (2, 8, 100)] []) 3 = some (8, 0x40) := by decide
theorem test_or : reg (.or 3 1 2) (st [(1, 8, 200), (2, 8, 100)] []) 3 = some (8, 0xEC) := by decide
theorem test_xor : reg (.xor 3 1 2) (st [(1, 8, 200), (2, 8, 100)] []) 3 = some (8, 0xAC) := by decide
theorem test_not_masks : reg (.not 2 1) (st [(1, 5, 0x0A)] []) 2 = some (5, 0x15) := by decide
theorem test_shl_across_words : reg (.shl 2 1 65) (st [(1, 128, 0x8000000000000001)] []) 2 = some (128, 0x20000000000000000) := by decide
theorem test_shl_by_largest : reg (.shl 2 1 0xFFFFFFFF) (st [(1, 8, 0xC8)] []) 2 = some (8, 0) := by decide
theorem test_lshr_across_words : reg (.lshr 2 1 1) (st [(1, 128, 0x80000000000000010000000000000003)] []) 2 =
    some (128, 0x40000000000000008000000000000001) := by decide
theorem test_lshr_by_width : reg (.lshr 2 1 128) (st [(1, 128, 2 ^ 128 - 1)] []) 2 = some (128, 0) := by decide
theorem test_ashr : reg (.ashr 2 1 68) (st [(1, 70, 2 ^ 69)] []) 2 = some (70, 0x3FFFFFFFFFFFFFFFFE) := by decide
theorem test_ashr_beyond_width : reg (.ashr 2 1 200) (st [(1, 8, 0xC8)] []) 2 = some (8, 0xFF) := by decide
theorem test_rol : reg (.rol 2 1 64) (st [(1, 70, 2 ^ 69 + 1)] []) 2 = some (70, 0x18000000000000000) := by decide
theorem test_rol_modulo_width : reg (.rol 2 1 9) (st [(1, 8, 0xC8)] []) 2 = some (8, 0x91) := by decide
theorem test_ror : reg (.ror 2 1 1) (st [(1, 70, 3)] []) 2 = some (70, 0x200000000000000001) := by decide
theorem test_ror_by_width : reg (.ror 2 1 8) (st [(1, 8, 0xC8)] []) 2 = some (8, 0xC8) := by decide
theorem test_ucmp : rsp (.ucmp 1 2) (st [(1, 128, 2 ^ 64), (2, 128, 2 ^ 64 - 1)] []) = some (0, false, 2) := by decide
theorem test_ucmp_equal : rsp (.ucmp 1 1) (st [(1, 8, 200), (2, 8, 100)] []) = some (0, false, 1) := by decide
theorem test_scmp : rsp (.scmp 1 2) (st [(1, 8, 200), (2, 8, 100)] []) = some (0, false, 0) := by decide
theorem test_scmp_both_negative : rsp (.scmp 1 2) (st [(1, 8, 0xC8), (2, 8, 0x80)] []) = some (0, false, 2) := by decide
theorem test_iszero : rsp (.iszero 1) (st [(1, 70, 0)] []) = some (0, true, 0) := by decide
theorem test_iszero_top_bit : rsp (.iszero 1) (st [(1, 70, 2 ^ 69)] []) = some (0, false, 0) := by decide
theorem test_isones : rsp (.isones 1) (st [(1, 5, 0x1F)] []) = some (0, true, 0) := by decide
theorem test_isones_not : rsp (.isones 1) (st [(1, 8, 0x7F)] []) = some (0, false, 0) := by decide
theorem test_sign : rsp (.sign 1) (st [(1, 8, 0xC8)] []) = some (0, true, 0) := by decide
theorem test_sign_not : rsp (.sign 1) (st [(1, 8, 0x2C)] []) = some (0, false, 0) := by decide
theorem test_parse_negative : reg (.parse 1 .signed 10 8) (st [] (text ['-', '1', '2', '8'])) 1 = some (8, 0x80) := by decide
theorem test_parse_out_of_range : rsp (.parse 1 .unsigned 10 4) (st [] (text ['1', '1', '1', '1'])) = some (8, false, 0) := by decide
theorem test_format_negative : buf (.format 1 .signed 2) (st [(1, 8, 0xC8)] []) = text ['-', '1', '1', '1', '0', '0', '0'] := by decide
theorem test_format_length : rsp (.format 1 .unsigned 36) (st [(1, 128, 2 ^ 128 - 1)] []) = some (0, false, 25) := by decide

/-! ### The remaining error kinds, the error log and a run (60_exceptions.md) -/

theorem test_radix_1 : rsp (.parse 1 .unsigned 1 8) (st [] (text ['1'])) = some (5, false, 0) := by decide
theorem test_lone_minus : rsp (.parse 1 .signed 10 8) (st [] (text ['-'])) = some (6, false, 0) := by decide
theorem test_empty_text : rsp (.parse 1 .unsigned 10 8) (st [] []) = some (7, false, 0) := by decide
theorem test_format_empty_before_radix : rsp (.format 1 .unsigned 37) (st [] []) = some (10, false, 0) := by decide
theorem test_mismatch_recorded :
    (after (.sub 3 1 2) (st [(1, 8, 5), (2, 16, 7)] [])).expected.toNat = 8 ∧
    (after (.sub 3 1 2) (st [(1, 8, 5), (2, 16, 7)] [])).found.toNat = 16 := by decide
theorem test_step_reserved_opcode :
    (afterStep { st [(1, 8, 5)] [] with pending := [.command 0x27 0] }) =
      { st [(1, 8, 5)] [] with lasterr := 9, responses := [{ err := 9, flag := false, data := 0 }] } := by decide
theorem test_step_withFetchWord :
    ((afterStep (State.reset.withFetchWord 128 0x00000000000000C80000001000100110)).readX 1) =
      some { w := 16, u := 0xFFC8 } := by decide
theorem test_asm_add : asmText (.add 3 1 2) = "add r3, r1, r2" := by decide
theorem test_asm_xwords : xwords [0xFF, 0x3F] = [.xclr, .xpush 0xFF, .xpush 0x3F] := by decide

/-! ### The word level: examples and traces of the spec (40_digit.md, 42_arithmetic.md, `D = 8`) -/

theorem test_digit_examples :
    dadd 8 200 100 = 44 ∧ dsub 8 3 5 = 254 ∧ dmul 8 16 16 = 0 ∧ ddiv 200 7 = some 28 ∧ dadc 8 255 0 1 = (0, 1) ∧
    dadc 8 200 100 0 = (44, 1) ∧ dsbb 8 44 100 0 = (200, 1) ∧ dsbb 8 0 0 1 = (255, 1) ∧ dmulw 8 200 100 = (78, 32) ∧
    ddiv2 8 1 44 7 = some (42, 6) := by decide
theorem test_digit_corners :
    dadc 8 255 255 1 = (255, 1) ∧ dsbb 8 0 255 1 = (0, 1) ∧ dmulw 8 255 255 = (254, 1) := by decide
theorem test_sext_words : sextWords 64 8 70 true [0xC8] = [0xFFFFFFFFFFFFFFC8, 0x3F] := by decide
theorem test_addWords_carry : addWords 64 65 [2 ^ 64 - 1, 1] [1, 0] = ([0, 0], true) := by decide

/-- Ripple traces of 97_test_vectors_derived_2.md section 2.13 (W10 to W12). -/
theorem test_trace_ripple :
    rippleAdd 8 [0xC8, 0xFF, 0x07] [0x64, 0x00, 0x00] 0 = ([0x2C, 0x00, 0x08], 0) ∧
    addWords 8 20 [0xFF, 0xFF, 0x0F] [0x01, 0x00, 0x00] = ([0, 0, 0], true) ∧
    subWords 8 20 [0, 0, 0] [1, 0, 0] = ([0xFF, 0xFF, 0x0F], true) := by decide
/-- Schoolbook trace (W13). -/
theorem test_trace_mul : mulWords 8 20 [0x45, 0x23, 0x01] [0x21, 0x03, 0x00] = [0xE5, 0x5A, 0x0F] := by decide
/-- Single-word divisor trace (W16). -/
theorem test_trace_divSmall : divSmall 8 7 [0xEF, 0xCD, 0xAB] = ([0x22, 0x8B, 0x18], 0x1) := by decide
/-- Multi-word divisor trace (W14, W15). -/
theorem test_trace_knuth : knuthD 8 [0xEF, 0xCD, 0xAB] [0xC3, 0x01, 0x00] = ([0x85, 0x61], [0xA0, 0x00]) := by decide
/-- Shift vectors (W17 to W20). -/
theorem test_trace_shifts :
    shlDatapath 8 20 11 [0xDE, 0xBC, 0x0A] = [0x00, 0xF0, 0x06] ∧
    lshrDatapath 8 20 11 [0xDE, 0xBC, 0x0A] = [0x57, 0x01, 0x00] ∧
    ashrWords 8 20 11 true [0xDE, 0xBC, 0x0A] = [0x57, 0xFF, 0x0F] ∧
    rolWords 8 20 11 [0xDE, 0xBC, 0x0A] = [0x5E, 0xF5, 0x06] := by decide

/-! ### Hypotheses of the statements are met, clause by clause, at boundary values -/

/-- Registers of several BitWidths (1, 8, 16, 70, MAX_WIDTH), r5 EMPTY, a text in XBUF, a mismatch in the error log. -/
def sA : State :=
  { st [(0, 8, 0), (1, 8, 200), (2, 8, 100), (3, 16, 0xABCD), (4, 8, 0x80), (6, 70, 2 ^ 69 + 1), (7, 1, 1),
      (8, 128, 2 ^ 128 - 1), (9, 8, 0xFF)] [0x2D, 0x35, 0x36] with
    cfg := { digitBits := .d64, maxWidth := 128 }, lasterr := 1, expected := 8, found := 16 }

/-- `sA` with these events presented. -/
def sP (evs : List HostEvent) : State := { sA with pending := evs }

/-- `sA` with this exchange buffer. -/
def sX (xbuf : List Nat) : State := { sA with xbuf := xbuf }

/-- The smallest block, its exchange buffer full. -/
def sFull : State := { st [] (List.replicate 129 7) with cfg := { digitBits := .d8, maxWidth := 128 } }

theorem sA_inv : sA.Inv := inv_of_invCheck (by decide)

theorem sP_inv (evs : List HostEvent) : (sP evs).Inv :=
  ⟨sA_inv.cfg, sA_inv.regs, sA_inv.mem, sA_inv.lasterr, sA_inv.widths, sA_inv.responses⟩

theorem sX_inv : (sX []).Inv ∧ (sX [1]).Inv ∧ (sX [1, 2]).Inv := ⟨inv_of_invCheck (by decide),
  inv_of_invCheck (by decide), inv_of_invCheck (by decide)⟩

set_option maxRecDepth 4000 in
theorem sFull_inv : sFull.Inv := inv_of_invCheck (by decide)

theorem test_witness_ResetLeavesTheResetState : (sP [.reset]).pending = .reset :: [] := rfl

theorem test_witness_ResetMeetsTheInvariant :
    (Cfg.mk .d8 128).WF ∧ (Cfg.mk .d64 (2 ^ 32 - 1)).WF := by decide

theorem test_witness_StepKeepsTheInvariant : (sP [.command 0x21320 0, .reset]).Inv ∧ (sP []).Inv :=
  ⟨sP_inv _, sP_inv _⟩

theorem test_witness_StepRunsTheDecodedInstruction :
    sA.pending = [] ∧ (sP [.command 0x21320 0]).pending = .command 0x21320 0 :: [] ∧
    decode 0x21320 0 = .instr (.add 3 1 2) ∧ decodeTableWord 64 0x21320 = some (.add 3 1 2) := by decide

theorem test_witness_RunIsTheLeftFold :
    (sP [.command 0x21320 0, .command 0 0]).pending =
      [((0x21320 : Word64), (0 : Word64)), (0, 0)].map (fun c => .command c.1 c.2) := rfl

theorem test_witness_EveryCommandIsAnsweredOnce :
    (sP [.command 0 0]).pending = .command 0 0 :: [] ∧ decode 0 0 = .illegal (.reservedOpcode 0) := by decide

theorem test_witness_ResponseFieldsAndErrorCodes :
    exec (.addco 5 9 9) sA = .next (after (.addco 5 9 9) sA) ∧ rsp (.addco 5 9 9) sA = some (0, true, 0) ∧
    rsp (.getw 8) sA = some (0, false, 128) ∧ rsp (.add 5 1 3) sA = some (1, false, 0) ∧
    rsp (.sext 5 3 8) sA = some (2, false, 0) ∧ rsp (.srem 5 1 0) sA = some (3, false, 0) ∧
    rsp (.fromwords 5 1) sA = some (4, false, 0) := by
  refine ⟨exec_after _ _, ?_⟩; decide

theorem test_witness_ResponseFieldsAndErrorCodes_5_to_12 :
    rsp (.format 1 .signed 37) sA = some (5, false, 0) ∧
    rsp (.parse 5 .unsigned 10 8) sA = some (6, false, 0) ∧ rsp (.parse 5 .signed 10 8) (sX []) = some (7, false, 0) ∧
    rsp (.parse 5 .signed 10 6) sA = some (8, false, 0) ∧ rsp (.rdsr 9) sA = some (9, false, 0) ∧
    rsp (.getw 5) sA = some (10, false, 0) ∧ rsp (.trunc 5 1 129) sA = some (11, false, 0) ∧
    rsp (.xread 3) sA = some (12, false, 0) := by decide

theorem test_witness_ResponseFieldsAndErrorCodes_illegal :
    (sP [.command 0x800110 0]).pending = .command 0x800110 0 :: [] ∧
    decode 0x800110 0 = .illegal (.unusedFieldSet 0x10) := by decide

theorem test_witness_FailureChangesOnlyTheErrorLog :
    (sP [.command 0x0132B 0]).pending = .command 0x0132B 0 :: [] ∧
    step (sP [.command 0x0132B 0]) = .next (afterStep (sP [.command 0x0132B 0])) ∧
    (afterStep (sP [.command 0x0132B 0])).responses =
      (sP [.command 0x0132B 0]).responses ++ [{ err := 3, flag := false, data := 0 }] ∧
    step (sP [.command 0x31520 0]) = .next (afterStep (sP [.command 0x31520 0])) ∧
    (afterStep (sP [.command 0x31520 0])).responses = sA.responses ++ [{ err := 1, flag := false, data := 0 }] ∧
    FailedWith (sP []) (afterStep (sP [.command 0x31520 0])) (.widthMismatch 8 16) ∧
    decode 0x31520 0 = .instr (.add 5 1 3) ∧ sA.readX 1 = some { w := 8, u := 200 } ∧
    sA.readX 3 = some { w := 16, u := 0xABCD } ∧ (sP [.command 0x31520 0]).Inv := by
  refine ⟨rfl, step_afterStep _, by decide, step_afterStep _, by decide, ?_, by decide, by decide, by decide, sP_inv _⟩
  exact failedWith_raise _ _

theorem test_witness_LasterrHoldsTheLatestFailure :
    step (sP [.command 0x27 0]) = .next (afterStep (sP [.command 0x27 0])) ∧
    (afterStep (sP [.command 0x27 0])).responses = sA.responses ++ [{ err := 9, flag := false, data := 0 }] ∧
    (afterStep (sP [.command 0x02 0])).responses = sA.responses ++ [{ err := 0, flag := false, data := 0 }] ∧
    (afterStep (sP [.command 0x03 0])).responses = sA.responses ++ [{ err := 0, flag := false, data := 0 }] := by
  refine ⟨step_afterStep _, ?_⟩; decide

theorem test_witness_LasterrHoldsTheLatestFailure_run :
    ([((0x27 : Word64), (0 : Word64)), (0x03, 0)].foldl afterCommand (State.resetWith Cfg.default)).lasterr = 9 ∧
    latestFailure ([((0x27 : Word64), (0 : Word64)), (0x03, 0)].zip
      ([((0x27 : Word64), (0 : Word64)), (0x03, 0)].foldl afterCommand (State.resetWith Cfg.default)).responses).reverse
      = 9 := by decide

theorem test_witness_ExpectedAndFoundHoldTheLatestMismatch :
    (sP [.command 0x31520 0]).Inv ∧ step (sP [.command 0x31520 0]) = .next (afterStep (sP [.command 0x31520 0])) ∧
    (afterStep (sP [.command 0x31520 0])).responses = sA.responses ++ [{ err := 1, flag := false, data := 0 }] ∧
    decode 0x31520 0 = .instr (.add 5 1 3) ∧ decode 0x02 0 = .instr .clrerr ∧
    (afterStep (sP [.command 0x0132B 0])).responses = sA.responses ++ [{ err := 3, flag := false, data := 0 }] := by
  refine ⟨sP_inv _, step_afterStep _, ?_⟩; decide

theorem test_witness_ErrorLogIsReadOnlyByRdsr :
    AgreeButLog sA { sA with lasterr := 3, expected := 0, found := 0 } ∧
    ((4 : Imm).toNat < 5 ∨ 7 < (4 : Imm).toNat) ∧ ((8 : Imm).toNat < 5 ∨ 7 < (8 : Imm).toNat) := by
  refine ⟨⟨rfl, rfl, rfl, rfl, rfl⟩, ?_⟩; decide

theorem test_witness_RegistersAreIndependent :
    exec (.add 5 1 2) sA = .next (after (.add 5 1 2) sA) ∧ (Instr.add 5 1 2).dest ≠ some 6 ∧
    (Instr.towords 6).dest ≠ some 6 ∧ sA.readX 1 = some { w := 8, u := 200 } := by
  refine ⟨exec_after _ _, ?_⟩; decide

theorem test_witness_RegisterLifecycleAndWidths :
    exec (.add 5 1 2) sA = .next (after (.add 5 1 2) sA) ∧
    (after (.add 5 1 2) sA).responses = sA.responses ++ [{ err := 0, flag := false, data := 0 }] ∧
    (after (.add 5 1 2) sA).readX 5 ≠ sA.readX 5 ∧ sA.readX 8 ≠ none ∧ (after (.drop 8) sA).readX 8 = none ∧
    (Instr.add 5 1 2).dest = some 5 ∧ (Instr.add 5 1 2).widthImm = none ∧ (Instr.add 5 1 2).src2 = some 2 ∧
    (Instr.zext 5 1 128).widthImm = some 128 := by
  refine ⟨exec_after _ _, ?_⟩; decide

theorem test_witness_RegisterLifecycleAndWidths_reset :
    (sP [.reset]).pending = .reset :: [] ∧ step (sP [.reset]) = .next (afterStep (sP [.reset])) :=
  ⟨rfl, step_afterStep _⟩

theorem test_witness_ReadersHaveNoSideEffects :
    (Instr.format 8 .signed 2).isReader = true ∧ (Instr.xread 2).isReader = true ∧
    exec (.xread 2) sA = .next (after (.xread 2) sA) ∧
    exec (.xread 2) (after (.xread 2) sA) = .next (after (.xread 2) (after (.xread 2) sA)) :=
  ⟨rfl, rfl, exec_after _ _, exec_after _ _⟩

theorem test_witness_AliasingIsSafe :
    (Instr.add 1 1 2).dest = some 1 ∧ (Instr.add 1 1 2).withDest 5 = .add 5 1 2 ∧
    exec (.add 1 1 2) sA = .next (after (.add 1 1 2) sA) ∧ exec (.add 5 1 2) sA = .next (after (.add 5 1 2) sA) ∧
    rsp (.add 1 1 2) sA = some (0, false, 0) ∧ rsp (.add 1 1 3) sA = some (1, false, 0) := by
  refine ⟨rfl, rfl, exec_after _ _, exec_after _ _, ?_⟩; decide

theorem test_witness_DigitSizeIsInvisible :
    AgreeButDigits sA { sA with cfg := { digitBits := .d8, maxWidth := 128 } } ∧
    (Instr.mul 5 6 6).seesDigits = false := ⟨rfl, rfl⟩

theorem test_witness_ChecksComeInOrder :
    sA.Inv ∧ exec (.sdiv 5 1 3) sA = .next (after (.sdiv 5 1 3) sA) ∧
    (after (.sdiv 5 1 3) sA).responses = sA.responses ++ [{ err := 1, flag := false, data := 0 }] ∧
    (Instr.sdiv 5 1 3).src1 = some 1 ∧ (Instr.sdiv 5 1 3).src2 = some 3 ∧
    rsp (.trunc 5 5 0) sA = some (11, false, 0) ∧ rsp (.trunc 5 5 1) sA = some (10, false, 0) ∧
    rsp (.trunc 5 5 128) sA = some (10, false, 0) ∧ rsp (.trunc 5 5 129) sA = some (11, false, 0) ∧
    rsp (.udiv 5 3 0) sA = some (1, false, 0) ∧ rsp (.udiv 5 1 0) sA = some (3, false, 0) := by
  refine ⟨sA_inv, exec_after _ _, ?_⟩; decide

theorem test_witness_DecodeEncodeRoundTrip :
    (Instr.rdsr 8).wellFormed = true ∧ (Instr.parse 15 .signed 255 0xFFFFFFFF).wellFormed = true := by decide

theorem test_witness_EncodeDecodeRoundTrip :
    decode 0x04 0xFF = .instr (.xpush 0xFF) ∧ decode 0x03 0xFF = .instr .xclr := by decide

theorem test_witness_DecodeAcceptsExactlyTheOpcodeTable :
    decode 0x03 0xFF = .instr .xclr ∧ decode 0x03 0 = .instr .xclr ∧
    (sP [.command 0x103 0]).pending = .command 0x103 0 :: [] ∧ decode 0x103 0 = .illegal (.unusedFieldSet 0x03) := by
  decide

theorem test_witness_ReservedAndIllegalWordsFail :
    ReservedOpcode (opcodeOf 0x52).toNat ∧ ReservedOpcode (opcodeOf 0x27).toNat ∧ ReservedOpcode (opcodeOf 0).toNat ∧
    (∀ row ∈ opcodeTable, (0x0000000000800110 : Word64) &&& row.2.2 ≠ row.2.1) ∧
    (opcodeOf 0x0000000900000001).toNat = 0x01 ∧
    8 < ((0x0000000900000001 : Word64).extractLsb' 32 32).toNat := by
  refine ⟨?_, ?_, ?_, ?_⟩ <;> first | decide | (unfold ReservedOpcode; decide)

theorem test_witness_CdataIsIgnoredWhereUnused :
    opcodeOf 0x05 ≠ 0x04#8 ∧ opcodeOf 0x05 ≠ 0x10#8 ∧
    (0x1C8 : Word64).toNat % 2 ^ DigitBits.d8.bits = (0xC8 : Word64).toNat % 2 ^ DigitBits.d8.bits ∧
    (0x1C8 : Word64).toNat % 2 ^ PW .p8 = (0xC8 : Word64).toNat % 2 ^ PW .p8 := by decide

set_option maxRecDepth 4000 in
theorem test_witness_ExchangeBufferCommands :
    sFull.xlen = sFull.cfg.maxWidth + 1 ∧ sA.xlen < sA.cfg.maxWidth + 1 ∧ sA.xlen ≤ (3 : Imm).toNat ∧ sA.Inv ∧
    (2 : Imm).toNat < sA.xlen := by
  refine ⟨?_, ?_, ?_, sA_inv, ?_⟩ <;> decide

theorem test_witness_StatusCommands :
    (8 : Imm).toNat ≤ 8 ∧ 8 < (9 : Imm).toNat ∧ opcodeOf 0x0000000900000001 = 0x01#8 ∧
    8 < ((0x0000000900000001 : Word64).extractLsb' 32 32).toNat := by decide

theorem test_witness_FromwordsBuildsTheValue :
    sA.Inv ∧ (sX [1]).Inv ∧ (sX [1, 2]).Inv ∧ (0 : Imm).toNat = 0 ∧ sA.cfg.maxWidth < (129 : Imm).toNat ∧
    1 ≤ (1 : Imm).toNat ∧ (128 : Imm).toNat ≤ sA.cfg.maxWidth ∧ sA.xlen ≠ nwords sA.cfg.digitBits.bits 128 ∧
    (sX [1, 2]).xlen = nwords sA.cfg.digitBits.bits 65 ∧ (sX [1, 2]).xlen = nwords sA.cfg.digitBits.bits 128 ∧
    (sX [1]).xlen = nwords sA.cfg.digitBits.bits 1 ∧ (sX [1]).xlen = nwords sA.cfg.digitBits.bits 64 := by
  refine ⟨sA_inv, sX_inv.2.1, sX_inv.2.2, ?_⟩; decide

theorem test_witness_TowordsExposesTheWords :
    sA.Inv ∧ sA.readX 5 = none ∧ sA.readX 8 = some { w := 128, u := 2 ^ 128 - 1 } ∧
    sA.readX 7 = some { w := 1, u := 1 } ∧ exec (.towords 7) sA = .next (after (.towords 7) sA) := by
  refine ⟨sA_inv, ?_, ?_, ?_, exec_after _ _⟩ <;> decide

theorem test_witness_WordOrderIsLeastSignificantFirst :
    sA.readX 6 = some { w := 70, u := 2 ^ 69 + 1 } ∧ exec (.towords 6) sA = .next (after (.towords 6) sA) ∧
    Memory.entry (after (.towords 6) sA).xbuf 1 = some 0x20 ∧ 63 < sA.cfg.digitBits.bits ∧ (sX [1, 2]).Inv ∧
    1 ≤ (70 : Imm).toNat ∧ (70 : Imm).toNat ≤ (sX [1, 2]).cfg.maxWidth ∧
    (sX [1, 2]).xlen = nwords (sX [1, 2]).cfg.digitBits.bits (70 : Imm).toNat ∧
    Memory.entry (sX [1, 2]).xbuf 1 = some 2 ∧ 1 * 64 + 5 < (70 : Imm).toNat ∧ (70 : Imm).toNat ≤ 70 := by
  refine ⟨by decide, exec_after _ _, by decide, by decide, sX_inv.2.2, ?_⟩; decide

theorem test_witness_GetwCopyDrop :
    sA.Inv ∧ sA.readX 5 = none ∧ sA.readX 8 = some { w := 128, u := 2 ^ 128 - 1 } := by
  refine ⟨sA_inv, ?_⟩; decide

theorem test_witness_ResizeCommands :
    sA.Inv ∧ (0 : Imm).toNat = 0 ∧ sA.cfg.maxWidth < (129 : Imm).toNat ∧ sA.readX 5 = none ∧
    sA.readX 1 = some { w := 8, u := 200 } ∧ 1 ≤ (1 : Imm).toNat ∧ (128 : Imm).toNat ≤ sA.cfg.maxWidth ∧
    8 < (9 : Imm).toNat ∧ (8 : Imm).toNat ≤ 8 ∧ (7 : Imm).toNat < 8 := by
  refine ⟨sA_inv, ?_⟩; decide

theorem test_witness_ResizeProperties :
    sA.Inv ∧ sA.readX 1 = some { w := 8, u := 200 } ∧ 1 ≤ (1 : Imm).toNat ∧ (8 : Imm).toNat ≤ 8 ∧
    8 ≤ (128 : Imm).toNat ∧ (128 : Imm).toNat ≤ sA.cfg.maxWidth ∧ sA.readX 2 = some { w := 8, u := 100 } ∧
    ApInt.signBit { w := 8, u := 100 } = false := by
  refine ⟨sA_inv, ?_⟩; decide

theorem test_witness_CanonicalisationMasksTheTopWord :
    1 ≤ 70 ∧ ([5] ++ [0xFF]).length = nwords DigitBits.d64.bits 70 ∧
    (∀ e ∈ [5] ++ [0xFF], e < base DigitBits.d64.bits) ∧ ([] ++ [0xFF]).length = nwords DigitBits.d8.bits 1 ∧
    ([] ++ [0xFF]).length = nwords DigitBits.d8.bits 8 := by decide

theorem test_witness_FromprimBuildsTheValue :
    (0 : Imm).toNat = 0 ∧ sA.cfg.maxWidth < (129 : Imm).toNat ∧ 1 ≤ (1 : Imm).toNat ∧
    (128 : Imm).toNat ≤ sA.cfg.maxWidth ∧ (8 : Imm).toNat ≤ PW .p8 ∧ PW .p8 < (9 : Imm).toNat := by decide

theorem test_witness_ToprimAnswersTheValueOrFails :
    sA.Inv ∧ sA.readX 5 = none ∧ sA.readX 3 = some { w := 16, u := 0xABCD } ∧ 2 ^ PW .p8 ≤ 0xABCD ∧
    0xABCD < 2 ^ PW .p16 ∧ 16 ≤ PW .p16 ∧ ApInt.sint { w := 16, u := 0xABCD } < -(2 ^ (PW .p8 - 1)) ∧
    -(2 ^ (PW .p8 - 1)) ≤ ApInt.sint { w := 8, u := 0x80 } ∧ ApInt.sint { w := 8, u := 0x80 } < 2 ^ (PW .p8 - 1) ∧
    (2 : Int) ^ (PW .p8 - 1) ≤ ApInt.sint { w := 16, u := 0x0080 } := by
  refine ⟨sA_inv, ?_⟩; decide

theorem test_witness_DigitCharactersHaveTheirValues :
    digitval 0x2F = none ∧ digitval 0x30 = some 0 ∧ digitval 0x39 = some 9 ∧ digitval 0x3A = none ∧
    digitval 0x40 = none ∧ digitval 0x41 = some 10 ∧ digitval 0x5A = some 35 ∧ digitval 0x5B = none ∧
    digitval 0x60 = none ∧ digitval 0x61 = some 10 ∧ digitval 0x7A = some 35 ∧ digitval 0x7B = none ∧
    digitval 0x1FF = none := by decide

theorem validDigit_iff (radix : Nat) (c : Digit) (v : Nat) (h : digitval c = some v) :
    ValidDigit radix c ↔ v < radix := by
  unfold ValidDigit; simp [h]

theorem test_witness_ParseReadsTheText :
    true = (decide (Signedness.signed = .signed) && decide (Memory.entry sA.xbuf 0 = some 0x2D)) ∧
    [0x35, 0x36] = (if true then sA.xbuf.drop 1 else sA.xbuf) ∧ (0 : Imm).toNat = 0 ∧
    sA.cfg.maxWidth < (129 : Imm).toNat ∧ 1 ≤ (1 : Imm).toNat ∧ (128 : Imm).toNat ≤ sA.cfg.maxWidth ∧
    (1 : BitVec 8).toNat < 2 ∧ 36 < (37 : BitVec 8).toNat ∧ 2 ≤ (2 : BitVec 8).toNat ∧ (36 : BitVec 8).toNat ≤ 36 ∧
    (sX []).xlen = 0 ∧ sA.xlen ≠ 0 ∧ digitval 0x35 = some 5 ∧ digitval 0x36 = some 6 ∧ textValue 10 [0x35, 0x36] = 56 ∧
    56 ≤ 2 ^ (7 - 1) ∧ 2 ^ (6 - 1) < 56 ∧ 56 ≤ 2 ^ 6 - 1 ∧ 2 ^ 5 - 1 < 56 ∧ 56 ≤ 2 ^ (7 - 1) - 1 ∧
    2 ^ (6 - 1) - 1 < 56 := by decide

theorem test_witness_ParseReadsTheText_digits :
    (∀ c ∈ [0x35, 0x36], ValidDigit 10 c) ∧ (∃ c ∈ [0x35, 0x36], ¬ValidDigit 6 c) := by
  constructor
  · intro c hc
    rcases List.mem_cons.1 hc with rfl | hc
    · exact (validDigit_iff 10 0x35 5 (by decide)).2 (by decide)
    · rw [List.mem_singleton.1 hc]; exact (validDigit_iff 10 0x36 6 (by decide)).2 (by decide)
  · exact ⟨0x36, by decide, fun h => absurd ((validDigit_iff 6 0x36 6 (by decide)).1 h) (by decide)⟩

theorem test_witness_FormatWritesTheShortestText :
    sA.Inv ∧ sA.readX 5 = none ∧ sA.readX 4 = some { w := 8, u := 0x80 } ∧ (1 : BitVec 8).toNat < 2 ∧
    36 < (37 : BitVec 8).toNat ∧ 2 ≤ (2 : BitVec 8).toNat ∧ (36 : BitVec 8).toNat ≤ 36 ∧
    (0x80 : Nat).testBit (8 - 1) = true ∧ (100 : Nat).testBit (8 - 1) = false := by
  refine ⟨sA_inv, ?_⟩; decide

theorem test_witness_ParseAfterFormatRoundTrip :
    sA.Inv ∧ sA.readX 4 = some { w := 8, u := 0x80 } ∧ sA.readX 8 = some { w := 128, u := 2 ^ 128 - 1 } ∧
    2 ≤ (2 : BitVec 8).toNat ∧ (36 : BitVec 8).toNat ≤ 36 := by
  refine ⟨sA_inv, ?_⟩; decide

/-- The operands of every two-source command: an EMPTY one, two BitWidths, one BitWidth (8, 1 and MAX_WIDTH), a zero
divisor. -/
theorem test_witness_two_sources :
    sA.Inv ∧ sA.readX 5 = none ∧ sA.readX 1 = some { w := 8, u := 200 } ∧ sA.readX 3 = some { w := 16, u := 0xABCD } ∧
    sA.readX 2 = some { w := 8, u := 100 } ∧ sA.readX 7 = some { w := 1, u := 1 } ∧
    sA.readX 8 = some { w := 128, u := 2 ^ 128 - 1 } ∧ sA.readX 0 = some { w := 8, u := 0 } := by
  refine ⟨sA_inv, ?_⟩; decide

theorem test_witness_AddAddcoMul :
    sA.readX 5 = none ∧ sA.readX 1 = some { w := 8, u := 200 } ∧ sA.readX 3 = some { w := 16, u := 0xABCD } ∧ 8 ≠ 16 ∧
    sA.readX 2 = some { w := 8, u := 100 } ∧ 2 ^ 8 ≤ 200 + 100 := by decide

theorem test_witness_SubSubbo :
    sA.Inv ∧ sA.readX 5 = none ∧ sA.readX 1 = some { w := 8, u := 200 } ∧ sA.readX 2 = some { w := 8, u := 100 } ∧
    sA.readX 3 = some { w := 16, u := 0xABCD } ∧ (5 : RegNo) ≠ 2 := by
  refine ⟨sA_inv, ?_⟩; decide

theorem test_witness_NegUmag :
    sA.Inv ∧ sA.readX 5 = none ∧ sA.readX 4 = some { w := 8, u := 0x80 } ∧ sA.readX 7 = some { w := 1, u := 1 } := by
  refine ⟨sA_inv, ?_⟩; decide

theorem test_witness_UdivUrem :
    sA.Inv ∧ sA.readX 5 = none ∧ sA.readX 1 = some { w := 8, u := 200 } ∧ sA.readX 3 = some { w := 16, u := 0xABCD } ∧
    sA.readX 0 = some { w := 8, u := 0 } ∧ sA.readX 2 = some { w := 8, u := 100 } ∧ 100 ≠ 0 := by
  refine ⟨sA_inv, ?_⟩; decide

theorem test_witness_SdivSrem :
    sA.Inv ∧ sA.readX 5 = none ∧ sA.readX 4 = some { w := 8, u := 0x80 } ∧ sA.readX 9 = some { w := 8, u := 0xFF } ∧
    sA.readX 3 = some { w := 16, u := 0xABCD } ∧ sA.readX 0 = some { w := 8, u := 0 } ∧ 0xFF ≠ 0 := by
  refine ⟨sA_inv, ?_⟩; decide

theorem test_witness_BitwiseCommands :
    sA.Inv ∧ sA.readX 5 = none ∧ sA.readX 1 = some { w := 8, u := 200 } ∧ sA.readX 3 = some { w := 16, u := 0xABCD } ∧
    sA.readX 2 = some { w := 8, u := 100 } ∧ 7 < 8 := by
  refine ⟨sA_inv, ?_⟩; decide

theorem test_witness_ShiftCommands :
    sA.Inv ∧ sA.readX 5 = none ∧ sA.readX 6 = some { w := 70, u := 2 ^ 69 + 1 } ∧ 70 ≤ (70 : Imm).toNat ∧
    ¬(70 ≤ (69 : Imm).toNat) ∧ 70 ≤ (0xFFFFFFFF : Imm).toNat := by
  refine ⟨sA_inv, ?_⟩; decide

theorem test_witness_RotateCommands :
    sA.Inv ∧ sA.readX 5 = none ∧ sA.readX 6 = some { w := 70, u := 2 ^ 69 + 1 } ∧ (70 : Imm).toNat % 70 = 0 ∧
    (71 : Imm).toNat % 70 ≠ 0 ∧ 69 < 70 := by
  refine ⟨sA_inv, ?_⟩; decide

theorem test_witness_AnyAmountIsLegal :
    sA.Inv ∧ sA.readX 8 = some { w := 128, u := 2 ^ 128 - 1 } ∧ 128 ≤ (128 : Imm).toNat ∧
    128 ≤ (0xFFFFFFFF : Imm).toNat := by
  refine ⟨sA_inv, ?_⟩; decide

theorem test_witness_CompareCommands :
    sA.Inv ∧ sA.readX 5 = none ∧ sA.readX 1 = some { w := 8, u := 200 } ∧ sA.readX 2 = some { w := 8, u := 100 } ∧
    sA.readX 3 = some { w := 16, u := 0xABCD } ∧ 100 < 200 ∧
    ApInt.sint { w := 8, u := 200 } < ApInt.sint { w := 8, u := 100 } ∧ ApInt.signBit { w := 8, u := 200 } = true ∧
    ApInt.signBit { w := 8, u := 100 } = false := by
  refine ⟨sA_inv, ?_⟩; decide

theorem test_witness_TestCommands :
    sA.Inv ∧ sA.readX 5 = none ∧ sA.readX 0 = some { w := 8, u := 0 } ∧ sA.readX 9 = some { w := 8, u := 0xFF } := by
  refine ⟨sA_inv, ?_⟩; decide

theorem test_witness_DigitPrimitives :
    0 < 2 ^ DigitBits.d8.bits ∧ 255 < 2 ^ DigitBits.d8.bits ∧ (0 : Nat) ≤ 1 ∧ (1 : Nat) ≤ 1 ∧ 6 < 7 ∧ (7 : Nat) ≠ 0 := by
  decide

/-- Values of the word-level statements: BitWidth 1, a BitWidth below, at and above a Digit. -/
theorem test_witness_word_level :
    1 ≤ 1 ∧ 1 < 2 ^ 1 ∧ 0 < 2 ^ 1 ∧ 1 ≤ 20 ∧ 0xFFFFF < 2 ^ 20 ∧ 20 % DigitBits.d8.bits ≠ 0 ∧ 24 % DigitBits.d8.bits = 0 ∧
    0x1C3 < 2 ^ 20 ∧ 2 ^ DigitBits.d8.bits ≤ 0x1C3 ∧ 2 ^ DigitBits.d8.bits ≤ 0x100 ∧ 0 < 7 ∧ 255 < 2 ^ DigitBits.d8.bits := by
  decide

theorem test_witness_SignedDivisionAtWordLevel :
    1 ≤ ApInt.w { w := 8, u := 0x80 } ∧ ApInt.w { w := 8, u := 0x80 } = ApInt.w { w := 8, u := 0xFF } ∧
    (0x80 : Nat) < 2 ^ 8 ∧ (0xFF : Nat) < 2 ^ 8 ∧ (0xFF : Nat) ≠ 0 := by decide

theorem test_witness_ParseAccumulationIsTheNumber :
    2 ≤ 10 ∧ 10 ≤ 36 ∧ (∀ d ∈ [2, 5, 6], d < 10) ∧ 256 = [2, 5, 6].foldl (fun v d => v * 10 + d) 0 ∧
    accumulate DigitBits.d8.bits 8 10 [2, 5, 6] (List.replicate (nwords DigitBits.d8.bits 8) 0) false = ([0], true) ∧
    accumulate DigitBits.d8.bits 8 10 [2, 5, 5] (List.replicate (nwords DigitBits.d8.bits 8) 0) false =
      ([255], false) := by decide

theorem test_witness_FormatExtractionIsTheDigitString :
    formatWords DigitBits.d8.bits 2 8 (ApInt.words DigitBits.d8.bits { w := 8, u := 0x80 }) = digits 0x80 2 ∧
    0x80 < 2 ^ 8 ∧ 2 ≤ 2 ∧ 36 ≤ 36 := by decide

end Sys2Proof.Tests
end

/-! SUPPORT. What a command can do at all: the errors it can raise and the effects it can write, said once for all 42
commands (30_encoding.md R100), with what each effect keeps of the invariant. -/

namespace Sys2Proof.Machine

/-! ### The errors and the effects of a command -/

/-- The BitWidth of the value a completing command writes (10_state.md R26): the one in `imm` if the command takes one,
else the first source's; with two sources it is also the second's. -/
def HasResultWidth (i : Instr) (s : State) (w : Nat) : Prop :=
  (∀ imm, i.widthImm = some imm → w = imm.toNat) ∧
  (i.widthImm = none → ∃ q a, i.src1 = some q ∧ s.readX q = some a ∧ w = a.w) ∧
  ∀ q b, i.src2 = some q → s.readX q = some b → w = b.w

/-- `i` can raise `e` at `s`: a WidthMismatch carries the two different BitWidths of the command's sources
(60_exceptions.md R372); the other kinds carry nothing. -/
def CanRaise (i : Instr) (s : State) (e : CmdError) : Prop :=
  ∀ x y, e = .widthMismatch x y → ∃ r1 r2 a b, i.src1 = some r1 ∧ i.src2 = some r2 ∧
    s.readX r1 = some a ∧ s.readX r2 = some b ∧ a.w ≠ b.w ∧ x = a.w ∧ y = b.w

/-- The five kinds of effect a command `i` can write at `s`, each with what makes it legal. -/
inductive CanWrite (i : Instr) (s : State) : Effect → Prop
  | value {rd : RegNo} {v : ApInt} {flag : Bool} (dest : i.dest = some rd) (width : HasResultWidth i s v.w)
      (wf : s.Inv → v.WF s.cfg) : CanWrite i s { reg := some (rd, some v), flag := flag }
  | empty {rd : RegNo} (drop : i = .drop rd) : CanWrite i s { reg := some (rd, none) }
  | memory {m : Memory} {data : Word64} (dest : i.dest = none) (ne : i ≠ .clrerr) (wf : s.Inv → Memory.WF s.cfg m) :
      CanWrite i s { xbuf := some m, data := data }
  | answer {flag : Bool} {data : Word64} (dest : i.dest = none) (ne : i ≠ .clrerr) :
      CanWrite i s { flag := flag, data := data }
  | clearLog (clrerr : i = .clrerr) : CanWrite i s { clearLog := true }

/-- What `i` can end with at `s`. -/
def CanEnd (i : Instr) (s : State) : Except CmdError Effect → Prop
  | .error e => CanRaise i s e
  | .ok f => CanWrite i s f

section
variable {i : Instr} {s : State} {rd rs1 rs2 : RegNo} {imm : Imm}

theorem canRaise_of_ne {e : CmdError} (h : ∀ x y, e ≠ .widthMismatch x y) : CanRaise i s e :=
  fun x y he => absurd he (h x y)

theorem canRaise_sources {e : CmdError} (h1 : i.src1 = some rs1) (h2 : i.src2 = some rs2)
    (h : sources s rs1 rs2 = .error e) : CanRaise i s e := by
  rcases sources_error.1 h with ⟨-, rfl⟩ | ⟨a, b, ha, hb, hab, rfl⟩
  · exact canRaise_of_ne nofun
  · intro x y he
    cases he
    exact ⟨rs1, rs2, a, b, h1, h2, ha, hb, hab, rfl, rfl⟩

/-! ### One rule per check of the command cycle -/

section
variable {α : Type} {x : Except CmdError α} {g : α → Except CmdError Effect}

theorem canEnd_bind (he : ∀ e, x = .error e → CanRaise i s e) (hg : ∀ a, x = .ok a → CanEnd i s (g a)) :
    CanEnd i s (x >>= g) := by
  cases x with
  | error e => exact he e rfl
  | ok a => exact hg a rfl

theorem canEnd_ite {c : Prop} [Decidable c] {r r' : Except CmdError Effect} (h : c → CanEnd i s r)
    (h' : ¬c → CanEnd i s r') : CanEnd i s (if c then r else r') := by
  split
  · exact h ‹_›
  · exact h' ‹_›

end

theorem canEnd_widthField {g : Nat → Except CmdError Effect}
    (hg : 1 ≤ imm.toNat → imm.toNat ≤ s.cfg.maxWidth → CanEnd i s (g imm.toNat)) :
    CanEnd i s (widthField s.cfg imm >>= g) := by
  refine canEnd_bind (fun e he => ?_) fun w hw => ?_
  · obtain ⟨-, rfl⟩ := widthField_error.1 he
    exact canRaise_of_ne nofun
  · obtain ⟨rfl, h1, h2⟩ := widthField_ok.1 hw
    exact hg h1 h2

theorem canEnd_source {g : ApInt → Except CmdError Effect} (hg : ∀ a, s.readX rs1 = some a → CanEnd i s (g a)) :
    CanEnd i s (source s rs1 >>= g) := by
  refine canEnd_bind (fun e he => ?_) fun a ha => hg a (source_ok.1 ha)
  obtain ⟨-, rfl⟩ := source_error.1 he
  exact canRaise_of_ne nofun

theorem canEnd_sources {g : ApInt × ApInt → Except CmdError Effect} (h1 : i.src1 = some rs1) (h2 : i.src2 = some rs2)
    (hg : ∀ a b, s.readX rs1 = some a → s.readX rs2 = some b → a.w = b.w → CanEnd i s (g (a, b))) :
    CanEnd i s (sources s rs1 rs2 >>= g) := by
  refine canEnd_bind (fun e he => canRaise_sources h1 h2 he) fun ⟨a, b⟩ h => ?_
  obtain ⟨ha, hb, hab⟩ := sources_ok.1 h
  exact hg a b ha hb hab

theorem canEnd_divSources {g : ApInt × ApInt → Except CmdError Effect} (h1 : i.src1 = some rs1)
    (h2 : i.src2 = some rs2)
    (hg : ∀ a b, s.readX rs1 = some a → s.readX rs2 = some b → a.w = b.w → CanEnd i s (g (a, b))) :
    CanEnd i s (divSources s rs1 rs2 >>= g) := by
  refine canEnd_bind (fun e he => ?_) fun ⟨a, b⟩ h => ?_
  · rcases divSources_error.1 he with he | ⟨-, -, -, -, rfl⟩
    · exact canRaise_sources h1 h2 he
    · exact canRaise_of_ne nofun
  · obtain ⟨ha, hb, hab, -⟩ := divSources_ok.1 h
    exact hg a b ha hb hab

theorem canEnd_radixField {radix : BitVec 8} {g : Nat → Except CmdError Effect}
    (hg : 2 ≤ radix.toNat → radix.toNat ≤ 36 → CanEnd i s (g radix.toNat)) : CanEnd i s (radixField radix >>= g) := by
  refine canEnd_bind (fun e he => ?_) fun n hn => ?_
  · obtain ⟨-, rfl⟩ := radixField_error.1 he
    exact canRaise_of_ne nofun
  · obtain ⟨rfl, h1, h2⟩ := radixField_ok.1 hn
    exact hg h1 h2

/-! ### The value a completing command writes -/

theorem canWrite_of_imm {v : Nat} {flag : Bool} (hd : i.dest = some rd) (hi : i.widthImm = some imm)
    (h2 : i.src2 = none) (hl : 1 ≤ imm.toNat) (hu : imm.toNat ≤ s.cfg.maxWidth) :
    CanWrite i s { writes rd imm.toNat v with flag := flag } := by
  refine .value hd ⟨?_, ?_, ?_⟩ fun _ => canon_wf hl hu
  · intro imm' h; rw [hi] at h; cases h; rfl
  · simp [hi]
  · simp [h2]

theorem canWrite_of_source {a v : ApInt} {flag : Bool} (hd : i.dest = some rd) (hi : i.widthImm = none)
    (h1 : i.src1 = some rs1) (h2 : i.src2 = none) (ha : s.readX rs1 = some a) (hw : v.w = a.w)
    (hv : a.WF s.cfg → v.WF s.cfg) : CanWrite i s { reg := some (rd, some v), flag := flag } := by
  refine .value hd ⟨?_, fun _ => ⟨rs1, a, h1, ha, hw⟩, ?_⟩ fun h => hv (h.regs rs1 a ha)
  · simp [hi]
  · simp [h2]

theorem canWrite_of_sources {a b : ApInt} {v : Nat} {flag : Bool} (hd : i.dest = some rd) (hi : i.widthImm = none)
    (h1 : i.src1 = some rs1) (h2 : i.src2 = some rs2) (ha : s.readX rs1 = some a) (hb : s.readX rs2 = some b)
    (hab : a.w = b.w) : CanWrite i s { writes rd a.w v with flag := flag } := by
  refine .value hd ⟨?_, fun _ => ⟨rs1, a, h1, ha, rfl⟩, ?_⟩ fun h => ?_
  · simp [hi]
  · intro q b' hq hb'
    rw [h2] at hq; cases hq
    rw [hb] at hb'; cases hb'
    exact hab
  · obtain ⟨h1, h2, -⟩ := h.regs rs1 a ha
    exact canon_wf h1 h2

end

/-! ### The errors of the conversions -/

theorem parseDigits_error {radix : Nat} {e : CmdError} :
    ∀ {cs : List Digit} {V : Nat}, parseDigits radix cs V = .error e → e = .invalidDigitForRadix
  | [], _, h => nomatch h
  | c :: cs, V, h => by
    unfold parseDigits at h
    split at h
    · cases h; rfl
    · split at h
      · cases h; rfl
      · exact parseDigits_error h

theorem parseMagnitude_error {radix : Nat} {neg : Bool} {t : List Digit} {e : CmdError}
    (h : parseMagnitude radix neg t = .error e) : e = .invalidDigitForRadix := by
  unfold parseMagnitude at h
  generalize (if neg then t.drop 1 else t) = rest at h
  dsimp only at h
  split at h
  · cases h; rfl
  · exact parseDigits_error h

theorem primOf_error {sgn : Signedness} {pw : PrimWidth} {a : ApInt} {e : CmdError}
    (h : primOf sgn pw a = .error e) : e = .valueOutOfRange := by
  unfold primOf at h
  cases sgn <;> dsimp only at h <;> split at h <;> cases h <;> rfl

/-- The kinds PARSE raises on its text (45_convert_radix.md R322). -/
theorem parseText_error {w : Nat} {sgn : Signedness} {radix : BitVec 8} {t : List Digit} {e : CmdError}
    (h : parseText w sgn radix t = .error e) :
    e = .invalidRadix ∨ e = .emptyString ∨ e = .invalidDigitForRadix ∨ e = .valueOutOfRange := by
  unfold parseText at h
  cases hr : radixField radix with
  | error e' =>
    rw [hr] at h; cases h
    exact .inl (radixField_error.1 hr).2
  | ok r =>
    rw [hr] at h
    simp only [bind, Except.bind] at h
    split at h
    · cases h; exact .inr (.inl rfl)
    · cases hm : parseMagnitude r (leadingMinus sgn t) t with
      | error e' =>
        rw [hm] at h; cases h
        exact .inr (.inr (.inl (parseMagnitude_error hm)))
      | ok V =>
        rw [hm] at h
        dsimp only at h
        split at h <;> cases h
        exact .inr (.inr (.inr rfl))

/-! ### Every command -/

/-- Every command ends through `finish`, with an error it can raise or an effect it can write. -/
theorem exec_canEnd (i : Instr) (s : State) : ∃ r, exec i s = s.finish r ∧ CanEnd i s r := by
  cases i with
  | rdsr imm =>
    refine ⟨_, rfl, ?_⟩
    split
    · exact canRaise_of_ne nofun
    · exact .answer rfl nofun
  | clrerr => exact ⟨.ok { clearLog := true }, rfl, .clearLog rfl⟩
  | xclr => exact ⟨.ok { xbuf := some (Memory.clear s.xbuf) }, rfl, .memory rfl nofun fun _ => memory_wf_clear _ _⟩
  | xpush v =>
    exact ⟨_, rfl, canEnd_ite
      (fun hl => .memory rfl nofun fun h => memory_wf_append h.mem hl (Nat.mod_lt _ (base_pos _)))
      fun _ => canRaise_of_ne nofun⟩
  | xread imm =>
    refine ⟨_, rfl, ?_⟩
    split
    · exact .answer rfl nofun
    · exact canRaise_of_ne nofun
  | fromprim rd sgn pw imm v =>
    exact ⟨_, rfl, canEnd_widthField fun hl hu => canWrite_of_imm rfl rfl rfl hl hu⟩
  | fromwords rd imm =>
    exact ⟨_, rfl, canEnd_widthField fun hl hu => canEnd_ite (fun _ => canRaise_of_ne nofun)
      fun _ => canWrite_of_imm rfl rfl rfl hl hu⟩
  | parse rd sgn radix imm =>
    refine ⟨_, rfl, canEnd_widthField fun hl hu => canEnd_bind (fun e he => ?_)
      fun v _ => canWrite_of_imm rfl rfl rfl hl hu⟩
    rcases parseText_error he with rfl | rfl | rfl | rfl <;> exact canRaise_of_ne nofun
  | toprim rs1 sgn pw =>
    refine ⟨_, rfl, canEnd_source fun a _ => canEnd_bind (fun e he => ?_) fun v _ => .answer rfl nofun⟩
    obtain rfl := primOf_error he
    exact canRaise_of_ne nofun
  | towords rs1 =>
    exact ⟨_, rfl, canEnd_source fun a ha => .memory rfl nofun fun h => memory_wf_words (h.regs rs1 a ha)⟩
  | format rs1 sgn radix =>
    exact ⟨_, rfl, canEnd_source fun a ha => canEnd_radixField fun hl hu =>
      .memory rfl nofun fun h => memory_wf_format (h.regs rs1 a ha) hl hu⟩
  | drop rd => exact ⟨.ok { reg := some (rd, none) }, rfl, .empty rfl⟩
  | copy rd rs1 => exact ⟨_, rfl, canEnd_source fun a ha => canWrite_of_source rfl rfl rfl rfl ha rfl id⟩
  | trunc rd rs1 imm | zext rd rs1 imm | sext rd rs1 imm =>
    exact ⟨_, rfl, canEnd_widthField fun hl hu => canEnd_source fun a _ => canEnd_ite (fun _ => canRaise_of_ne nofun)
      fun _ => canWrite_of_imm rfl rfl rfl hl hu⟩
  | neg rd rs1 | umag rd rs1 | not rd rs1 | shl rd rs1 imm | lshr rd rs1 imm | ashr rd rs1 imm | rol rd rs1 imm
  | ror rd rs1 imm =>
    exact ⟨_, rfl, canEnd_source fun a ha =>
      canWrite_of_source rfl rfl rfl rfl ha rfl fun h => canon_wf h.1 h.2.1⟩
  | add rd rs1 rs2 | addco rd rs1 rs2 | sub rd rs1 rs2 | subbo rd rs1 rs2 | mul rd rs1 rs2 | and rd rs1 rs2
  | or rd rs1 rs2 | xor rd rs1 rs2 =>
    exact ⟨_, rfl, canEnd_sources rfl rfl fun a b ha hb hab => canWrite_of_sources rfl rfl rfl rfl ha hb hab⟩
  | udiv rd rs1 rs2 | urem rd rs1 rs2 | sdiv rd rs1 rs2 | srem rd rs1 rs2 =>
    exact ⟨_, rfl, canEnd_divSources rfl rfl fun a b ha hb hab => canWrite_of_sources rfl rfl rfl rfl ha hb hab⟩
  | ucmp rs1 rs2 | scmp rs1 rs2 =>
    exact ⟨_, rfl, canEnd_sources rfl rfl fun a b _ _ _ => .answer rfl nofun⟩
  | getw rs1 | iszero rs1 | isones rs1 | sign rs1 =>
    exact ⟨_, rfl, canEnd_source fun a _ => .answer rfl nofun⟩

/-- Everything a command can do: raise, with a legal error, or write, with a legal effect. -/
theorem exec_next {i : Instr} {s t : State} (h : exec i s = .next t) :
    (∃ e, CanRaise i s e ∧ t = s.raise e) ∨ ∃ f, CanWrite i s f ∧ t = s.commit f := by
  obtain ⟨r, hr, hc⟩ := exec_canEnd i s
  rw [hr] at h
  rcases finish_next h with ⟨e, rfl, rfl⟩ | ⟨f, rfl, rfl⟩
  · exact .inl ⟨e, hc, rfl⟩
  · exact .inr ⟨f, hc, rfl⟩

/-- Every command answers a next state (60_exceptions.md R380, R384). -/
theorem exec_total (i : Instr) (s : State) : ∃ t, exec i s = .next t := by
  obtain ⟨r, hr, -⟩ := exec_canEnd i s
  rw [hr]
  cases r with
  | error e => exact ⟨_, finish_error s e⟩
  | ok f => exact ⟨_, finish_ok s f⟩

theorem afterCommand_illegal {s : State} {cmd : Word64 × Word64} {e : DecodeError}
    (h : decode cmd.1 cmd.2 = .illegal e) : afterCommand s cmd = s.raise .illegalCommand := by
  unfold afterCommand; rw [h]

theorem afterCommand_instr {s t : State} {cmd : Word64 × Word64} {i : Instr} (h : decode cmd.1 cmd.2 = .instr i)
    (ht : exec i s = .next t) : afterCommand s cmd = t := by
  unfold afterCommand; rw [h]; dsimp only; rw [ht]

/-- A step that takes a command answers the state after that command (30_encoding.md R91). -/
theorem step_command {s : State} {cw cdata : Word64} {rest : List HostEvent}
    (h : s.pending = .command cw cdata :: rest) :
    step s = .next (afterCommand { s with pending := rest } (cw, cdata)) := by
  cases hd : decode cw cdata with
  | illegal e => rw [step_illegal h hd, afterCommand_illegal hd]
  | instr i =>
    obtain ⟨t, ht⟩ := exec_total i { s with pending := rest }
    rw [step_instr h hd, ht, afterCommand_instr hd ht]

/-- Everything a presented word pair can do: raise an error, a WidthMismatch only if the pair spells a command that can
raise it, or write a legal effect of the command it spells. -/
theorem afterCommand_cases (s : State) (cmd : Word64 × Word64) :
    (∃ e, afterCommand s cmd = s.raise e ∧
      ∀ x y, e = .widthMismatch x y → ∃ i, decode cmd.1 cmd.2 = .instr i ∧ CanRaise i s e) ∨
    ∃ i f, decode cmd.1 cmd.2 = .instr i ∧ CanWrite i s f ∧ afterCommand s cmd = s.commit f := by
  cases hd : decode cmd.1 cmd.2 with
  | illegal e => exact .inl ⟨_, afterCommand_illegal hd, nofun⟩
  | instr i =>
    obtain ⟨t, ht⟩ := exec_total i s
    rw [afterCommand_instr hd ht]
    rcases exec_next ht with ⟨e, he, rfl⟩ | ⟨f, hf, rfl⟩
    · exact .inl ⟨e, rfl, fun _ _ _ => ⟨i, rfl, he⟩⟩
    · exact .inr ⟨i, f, rfl, hf, rfl⟩

/-! ### What an effect writes -/

section
variable {i : Instr} {s : State} {f : Effect}

theorem CanWrite.readX_of_ne_dest (h : CanWrite i s f) {r : RegNo} (hr : i.dest ≠ some r) :
    (s.commit f).readX r = s.readX r := by
  have key : ∀ {rd}, i.dest = some rd → r ≠ rd := fun hd e => hr (e ▸ hd)
  cases h with
  | value dest => simp [readX_commit, key dest]
  | empty drop => simp [readX_commit, key (congrArg Instr.dest drop)]
  | memory | answer | clearLog => simp [readX_commit]

/-- The destination of a completed command other than DROP holds a value of the BitWidth R26 says. -/
theorem CanWrite.dest_valid {rd : RegNo} (h : CanWrite i s f) (hd : i.dest = some rd) (hne : i ≠ .drop rd) :
    ∃ v, (s.commit f).readX rd = some v ∧ HasResultWidth i s v.w := by
  cases h with
  | @value rd' v _ dest width _ =>
    cases hd.symm.trans dest
    exact ⟨v, by simp [readX_commit], width⟩
  | empty drop => subst drop; cases hd; contradiction
  | memory dest | answer dest => cases hd.symm.trans dest
  | clearLog clrerr => subst clrerr; cases hd

theorem CanWrite.drop_of_emptied {r : RegNo} (h : CanWrite i s f) (hs : s.readX r ≠ none)
    (ht : (s.commit f).readX r = none) : i = .drop r := by
  by_cases hd : i.dest = some r
  · by_contra hne
    obtain ⟨v, hv, -⟩ := h.dest_valid hd hne
    cases ht.symm.trans hv
  · exact absurd (h.readX_of_ne_dest hd ▸ ht) hs

theorem CanWrite.clearLog_iff (h : CanWrite i s f) : f.clearLog = true ↔ i = .clrerr := by
  cases h with
  | value dest => exact ⟨nofun, fun hi => by subst hi; cases dest⟩
  | empty drop => exact ⟨nofun, fun hi => by subst hi; cases drop⟩
  | memory _ ne | answer _ ne => exact ⟨nofun, fun hi => absurd hi ne⟩
  | clearLog clrerr => exact ⟨fun _ => clrerr, fun _ => rfl⟩

end

/-! ### The invariant -/

/-- A number below `2^m` has none of the bits `m` to `D - 1`. -/
theorem and_high_mask_eq_zero {x m D : Nat} (hx : x < 2 ^ m) (hm : m ≤ D) : x &&& (2 ^ D - 1 - (2 ^ m - 1)) = 0 := by
  have hmask : 2 ^ D - 1 - (2 ^ m - 1) = 2 ^ m * (2 ^ (D - m) - 1) := by
    rw [Nat.mul_sub, ← pow_add, Nat.add_sub_cancel' hm]
    have := Nat.two_pow_pos m
    omega
  rw [hmask]
  refine Nat.eq_of_testBit_eq fun j => ?_
  rw [Nat.testBit_and, Nat.testBit_two_pow_mul, Nat.zero_testBit]
  rcases Nat.lt_or_ge j m with hj | hj
  · simp [Nat.not_le.2 hj]
  · rw [Nat.testBit_lt_two_pow (hx.trans_le (Nat.pow_le_pow_right Nat.two_pos hj)), Bool.false_and]

theorem nwords_of_mod_ne_zero {D w : Nat} (h : w % D ≠ 0) (hD : 0 < D) : nwords D w = w / D + 1 := by
  have hw := Nat.div_add_mod' w D
  have hlt := Nat.mod_lt w hD
  refine Nat.div_eq_of_lt_le ?_ ?_ <;> simp only [Nat.add_one_mul] <;> omega

theorem nwords_pos {D w : Nat} (hD : 0 < D) (hw : 1 ≤ w) : 0 < nwords D w := Nat.div_pos (by omega) hD

/-- The most significant word of a value. -/
theorem words_getLast? {D : Nat} {a : ApInt} (h : 0 < nwords D a.w) :
    (a.words D).getLast? = some (a.u / base D ^ (nwords D a.w - 1) % base D) := by
  rw [ApInt.words, List.getLast?_map, List.getLast?_range, if_neg h.ne']
  rfl

/-- The most significant word of a value holds no more than `w mod D` bits. -/
theorem topWord_lt {D w u : Nat} (hu : u < 2 ^ w) : u / base D ^ (w / D) % base D < 2 ^ (w % D) := by
  refine (Nat.mod_le _ _).trans_lt (Nat.div_lt_of_lt_mul ?_)
  rwa [base, ← pow_mul, ← pow_add, Nat.div_add_mod]

/-- The words of a legal value are canonical (10_state.md R23). -/
theorem canonical_of_wf {c : Cfg} {a : ApInt} (h : a.WF c) : Canonical c.digitBits.bits a := by
  obtain ⟨hw, -, hu⟩ := h
  have hD := DigitBits.bits_pos c.digitBits
  refine ⟨words_length _ a, words_lt _ a, ?_⟩
  rw [words_getLast? (nwords_pos hD hw), Option.getD_some, topmask]
  split
  · simp
  · next h =>
    rw [nwords_of_mod_ne_zero h hD, Nat.add_sub_cancel]
    exact and_high_mask_eq_zero (topWord_lt hu) (Nat.mod_lt _ hD).le

theorem State.Inv.setPending {s : State} (h : s.Inv) (rest : List HostEvent) :
    ({ s with pending := rest } : State).Inv :=
  ⟨h.cfg, h.regs, h.mem, h.lasterr, h.widths, h.responses⟩

theorem State.Inv.applyReset {s : State} (h : s.Inv) : s.applyReset.Inv where
  cfg := h.cfg
  regs := by simp
  mem := by simp [Memory.WF]
  lasterr := by simp
  widths := by simp
  responses := h.responses

theorem code_le (e : CmdError) : e.code.toNat ≤ 12 := by
  cases e <;> simp [CmdError.code]

/-- EXPECTED and FOUND take a BitWidth as it is: it fits their 32 bits (log entry 7). -/
theorem State.Inv.toNat_ofNat_width {s : State} (h : s.Inv) {r : RegNo} {a : ApInt} (ha : s.readX r = some a) :
    (BitVec.ofNat 32 a.w).toNat = a.w := by
  obtain ⟨-, ha, -⟩ := h.regs r a ha
  obtain ⟨-, hc⟩ := h.cfg
  exact Nat.mod_eq_of_lt (by omega)

theorem State.Inv.raise {s : State} {e : CmdError} (h : s.Inv)
    (he : ∀ x y, e = .widthMismatch x y → ∃ i, CanRaise i s e) : (s.raise e).Inv where
  cfg := h.cfg
  regs := h.regs
  mem := h.mem
  lasterr := code_le e
  widths := by
    cases e with
    | widthMismatch x y =>
      obtain ⟨i, he⟩ := he x y rfl
      obtain ⟨r1, r2, a, b, -, -, ha, hb, hab, rfl, rfl⟩ := he x y rfl
      obtain ⟨ha1, ha2, -⟩ := h.regs r1 a ha
      obtain ⟨hb1, hb2, -⟩ := h.regs r2 b hb
      simp only [State.raise_expected, State.raise_found, CmdError.expectedAfter, CmdError.foundAfter, State.raise_cfg,
        ne_eq, ← BitVec.toNat_inj, h.toNat_ofNat_width ha, h.toNat_ofNat_width hb]
      exact .inr ⟨hab, ha1, ha2, hb1, hb2⟩
    | _ => exact h.widths
  responses := by
    intro r hr
    rcases List.mem_append.1 hr with hr | hr
    · exact h.responses r hr
    · rw [List.mem_singleton.1 hr]
      exact ⟨code_le e, fun _ => ⟨rfl, rfl⟩⟩

theorem State.Inv.commit {s : State} {f : Effect} {i : Instr} (h : s.Inv) (hf : CanWrite i s f) : (s.commit f).Inv where
  cfg := h.cfg
  regs := by
    intro r a ha
    rw [readX_commit] at ha
    cases hf with
    | value _ _ wf =>
      dsimp only at ha
      split at ha
      · cases ha; exact wf h
      · exact h.regs r a ha
    | empty =>
      dsimp only at ha
      split at ha
      · cases ha
      · exact h.regs r a ha
    | memory | answer | clearLog => exact h.regs r a ha
  mem := by
    cases hf with
    | memory _ _ wf => exact wf h
    | value | empty | answer | clearLog => exact h.mem
  lasterr := by
    rw [State.commit_lasterr]
    split
    · decide
    · exact h.lasterr
  widths := by
    rw [State.commit_expected, State.commit_found]
    split
    · exact .inl ⟨rfl, rfl⟩
    · exact h.widths
  responses := by
    intro r hr
    rcases List.mem_append.1 hr with hr | hr
    · exact h.responses r hr
    · rw [List.mem_singleton.1 hr]
      exact ⟨by simp, fun hne => absurd rfl hne⟩

/-- A presented word pair keeps the invariant, whether it spells a command or not. -/
theorem State.Inv.afterCommand {s : State} (h : s.Inv) (cmd : Word64 × Word64) :
    (Machine.afterCommand s cmd).Inv := by
  rcases afterCommand_cases s cmd with ⟨e, ht, he⟩ | ⟨i, f, -, hf, ht⟩ <;> rw [ht]
  · exact h.raise fun x y hxy => (he x y hxy).imp fun _ hi => hi.2
  · exact h.commit hf

theorem State.Inv.step {s : State} (h : s.Inv) : ∃ t, Machine.step s = .next t ∧ t.Inv := by
  cases hp : s.pending with
  | nil => exact ⟨s, step_idle hp, h⟩
  | cons ev rest =>
    cases ev with
    | reset => exact ⟨_, step_reset hp, (h.setPending rest).applyReset⟩
    | command cw cdata => exact ⟨_, step_command hp, (h.setPending rest).afterCommand _⟩

/-- Settles O3: a step is idle, a reset, or a command; a command raises a legal error or writes a legal effect; and a
legal value has canonical words. -/
theorem stepKeepsTheInvariant : Obligations.StepKeepsTheInvariant := by
  intro s h
  obtain ⟨t, ht, hinv⟩ := h.step
  exact ⟨t, ht, hinv, fun r a hr => canonical_of_wf (hinv.regs r a hr)⟩


/-! ### The error log -/

theorem code_ne_zero (e : CmdError) : e.code ≠ 0#4 := by
  cases e <;> simp [CmdError.code]

theorem exists_widthMismatch_of_code {e : CmdError} (h : e.code = 1#4) : ∃ x y, e = .widthMismatch x y := by
  cases e with
  | widthMismatch x y => exact ⟨x, y, rfl⟩
  | _ => exact absurd h (by decide)

theorem expectedAfter_of_code_ne {e : CmdError} (h : e.code ≠ 1#4) (old : BitVec 32) : e.expectedAfter old = old := by
  cases e with
  | widthMismatch => exact absurd rfl h
  | _ => rfl

theorem foundAfter_of_code_ne {e : CmdError} (h : e.code ≠ 1#4) (old : BitVec 32) : e.foundAfter old = old := by
  cases e with
  | widthMismatch => exact absurd rfl h
  | _ => rfl

theorem afterCommand_clrerr {s : State} {cmd : Word64 × Word64} (h : decode cmd.1 cmd.2 = .instr .clrerr) :
    afterCommand s cmd = s.commit { clearLog := true } := afterCommand_instr h rfl

/-- Every presented word pair is answered once, and its response decides LASTERR (10_state.md R35). -/
theorem afterCommand_lasterr (s : State) (cmd : Word64 × Word64) :
    ∃ r, (afterCommand s cmd).responses = s.responses ++ [r] ∧
      (afterCommand s cmd).lasterr =
        if r.err ≠ 0#4 then r.err else if decode cmd.1 cmd.2 = .instr .clrerr then 0#4 else s.lasterr := by
  rcases afterCommand_cases s cmd with ⟨e, ht, -⟩ | ⟨i, f, hd, hf, ht⟩ <;> rw [ht]
  · exact ⟨_, s.raise_responses e, (if_pos (code_ne_zero e)).symm⟩
  · refine ⟨_, s.commit_responses f, ?_⟩
    simp only [State.commit_lasterr, hf.clearLog_iff, hd, Decoded.instr.injEq]
    rfl

/-- After any commands from a reset there is one response per command, and LASTERR is the latest failure's code. -/
theorem foldl_afterCommand_lasterr (c : Cfg) (cmds : List (Word64 × Word64)) :
    let t := cmds.foldl afterCommand (State.resetWith c)
    t.responses.length = cmds.length ∧ t.lasterr = latestFailure (cmds.zip t.responses).reverse := by
  induction cmds using List.reverseRecOn with
  | nil => exact ⟨rfl, rfl⟩
  | append_singleton cmds cmd ih =>
    obtain ⟨hlen, hlast⟩ := ih
    simp only [List.foldl_concat]
    obtain ⟨r, hr, hl⟩ := afterCommand_lasterr (cmds.foldl afterCommand (State.resetWith c)) cmd
    rw [hr, hl, List.zip_append hlen.symm, hlast]
    exact ⟨by simp [hlen], by simp [latestFailure]⟩

/-- Settles O9: one command's response decides LASTERR, and an induction on the run, its latest command last. -/
theorem lasterrHoldsTheLatestFailure : Obligations.LasterrHoldsTheLatestFailure := by
  constructor
  · intro s t cw cdata rest r hp ht hr
    rw [step_command hp] at ht
    cases ht
    obtain ⟨r', hr', hl⟩ := afterCommand_lasterr { s with pending := rest } (cw, cdata)
    rw [hr'] at hr
    cases List.append_cancel_left hr
    exact hl
  · rintro c cmds t rfl
    exact (foldl_afterCommand_lasterr c cmds).2

/-- Settles O10: a failure of code 1 is a WidthMismatch of the command's sources, and CLRERR alone clears the log. -/
theorem expectedAndFoundHoldTheLatestMismatch : Obligations.ExpectedAndFoundHoldTheLatestMismatch := by
  intro s t cw cdata rest r hinv hp ht hr
  rw [step_command hp] at ht
  cases ht
  have hclr (hd : decode cw cdata = .instr .clrerr) :
      (afterCommand { s with pending := rest } (cw, cdata)).expected = 0#32 ∧
        (afterCommand { s with pending := rest } (cw, cdata)).found = 0#32 := by
    rw [afterCommand_clrerr hd]
    exact ⟨rfl, rfl⟩
  rcases afterCommand_cases { s with pending := rest } (cw, cdata) with ⟨e, ht, he⟩ | ⟨i, f, hd, hf, ht⟩
  · rw [ht] at hr hclr ⊢
    cases List.append_cancel_left hr
    refine ⟨fun h1 => ?_, hclr, fun h1 _ => ⟨expectedAfter_of_code_ne h1 _, foundAfter_of_code_ne h1 _⟩⟩
    obtain ⟨x, y, rfl⟩ := exists_widthMismatch_of_code h1
    obtain ⟨i, hd, hi⟩ := he x y rfl
    obtain ⟨r1, r2, a, b, hr1, hr2, ha, hb, -, rfl, rfl⟩ := hi x y rfl
    exact ⟨i, r1, r2, a, b, hd, hr1, hr2, ha, hb, hinv.toNat_ofNat_width ha, hinv.toNat_ofNat_width hb⟩
  · rw [ht] at hr hclr ⊢
    cases List.append_cancel_left hr
    refine ⟨nofun, hclr, fun _ hne => ?_⟩
    have hlog : ¬f.clearLog = true := fun h => hne (hf.clearLog_iff.1 h ▸ hd)
    exact ⟨if_neg hlog, if_neg hlog⟩

/-! ### The registers -/

/-- Settles O12: a failure writes no register, and a legal effect writes at most the destination. -/
theorem registersAreIndependent : Obligations.RegistersAreIndependent := by
  constructor
  · intro i s t r ht hr
    rcases exec_next ht with ⟨e, -, rfl⟩ | ⟨f, hf, rfl⟩
    · exact readX_raise s e r
    · exact hf.readX_of_ne_dest hr
  · intro s rd rs1 a ha
    have ht : exec (.copy rd rs1) s = .next (s.commit { reg := some (rd, some a) }) :=
      congrArg (fun x => s.finish (x >>= fun a => .ok { reg := some (rd, some a) })) (source_ok.2 ha)
    refine ⟨_, ht, ?_, ?_⟩ <;> simp [readX_commit, ha]

/-- Settles O13: as O12, and a legal effect other than DROP's leaves the destination VALID. -/
theorem registerLifecycleAndWidths : Obligations.RegisterLifecycleAndWidths := by
  constructor
  · intro s t rest r hp ht
    rw [step_reset hp] at ht
    cases ht
    exact readX_applyReset _ r
  · intro i s t x ht hx
    rcases exec_next ht with ⟨e, -, rfl⟩ | ⟨f, hf, rfl⟩ <;> cases List.append_cancel_left hx
    · exact ⟨fun r hr => absurd rfl hr, fun r hs hn => absurd hn hs, fun _ _ h0 => absurd h0 (code_ne_zero e)⟩
    · refine ⟨fun r hr => ⟨?_, rfl⟩, fun r => hf.drop_of_emptied, fun rd hd _ hne => hf.dest_valid hd hne⟩
      by_contra hd
      exact hr (hf.readX_of_ne_dest hd)

/-! ### Reset -/

theorem atReset_of_empty {s : State} (hx : ∀ r, s.readX r = none) (hm : s.xlen = 0) (hl : s.lasterr = 0#4)
    (he : s.expected = 0#32) (hf : s.found = 0#32) : s.AtReset := by
  refine ⟨hx, hm, hl, he, hf, rfl, rfl, rfl, rfl, ?_⟩
  simp [State.statusReg, hx]

/-- Settles O1. The constants of status registers 0 to 3 hold in every state. -/
theorem resetLeavesTheResetState : Obligations.ResetLeavesTheResetState := by
  constructor
  · exact fun c => atReset_of_empty (readX_resetWith c) rfl rfl rfl rfl
  · intro s rest hp
    exact ⟨_, step_reset hp, atReset_of_empty (readX_applyReset _) rfl rfl rfl rfl, rfl, rfl, rfl⟩

/-! ### The decoder, as far as a command's spelling needs it -/

/-- A decoded word: its opcode has a row, no bit outside the row's fields is set, and the row builds the command. -/
theorem decode_instr {cw cdata : Word64} {i : Instr} (h : decode cw cdata = .instr i) :
    ∃ f build, opcodeRow (opcodeOf cw).toNat = some (f, build) ∧ cw &&& ~~~(maskOp ||| f.used) = 0#64 ∧
      i = build (Fields.ofWords cw cdata) ∧ i.wellFormed = true := by
  unfold decode at h
  split at h
  · cases h
  · next f build hrow =>
    split at h
    · next hmask =>
      dsimp only at h
      split at h
      · next hwf => cases h; exact ⟨f, build, hrow, hmask, rfl, hwf⟩
      · cases h
    · cases h

/-- Each row of the opcode map builds commands of its own opcode (30_encoding.md R98). -/
theorem opcode_of_opcodeRow {n : Nat} {f : Format} {build : Fields → Instr} (h : opcodeRow n = some (f, build))
    (F : Fields) : (build F).opcode.toNat = n := by
  unfold opcodeRow at h
  split at h <;> cases h <;> rfl

theorem opcodeOf_of_decode {cw cdata : Word64} {i : Instr} (h : decode cw cdata = .instr i) :
    opcodeOf cw = i.opcode := by
  obtain ⟨f, build, hrow, -, rfl, -⟩ := decode_instr h
  exact BitVec.eq_of_toNat_eq (opcode_of_opcodeRow hrow _).symm

theorem decode_unusedFieldSet {cw cdata : Word64} {f : Format} {build : Fields → Instr}
    (hrow : opcodeRow (opcodeOf cw).toNat = some (f, build)) (hm : cw &&& ~~~(maskOp ||| f.used) ≠ 0#64) :
    decode cw cdata = .illegal (.unusedFieldSet (opcodeOf cw)) := by
  unfold decode
  rw [hrow]
  exact if_neg hm

/-- A command that some word spells is spelt as the row of its opcode says (30_encoding.md R98, R101). -/
theorem spelt_of_opcodeRow {i : Instr} {f : Format} {build : Fields → Instr}
    (hrow : opcodeRow i.opcode.toNat = some (f, build)) (hdec : ∃ cw cdata, decode cw cdata = .instr i) :
    Spelt i i.opcode f := by
  refine ⟨hdec, fun cw cdata h => ?_, fun s cw cdata rest hp hop hm => ?_⟩
  · have hop := opcodeOf_of_decode h
    obtain ⟨f', build', hrow', hm, -, -⟩ := decode_instr h
    rw [hop, hrow] at hrow'
    cases hrow'
    exact ⟨hop, hm⟩
  · rw [← hop] at hrow
    exact ⟨_, step_illegal hp (decode_unusedFieldSet hrow hm), failedWith_raise _ _⟩

/-! ### RDSR and CLRERR -/

theorem decode_encode_rdsr (k : Fin 9) :
    decode (encode (.rdsr (BitVec.ofNat 32 k))).1 0#64 = .instr (.rdsr (BitVec.ofNat 32 k)) := by
  revert k; decide

theorem spelt_rdsr {imm : Imm} (h : imm.toNat ≤ 8) : Spelt (.rdsr imm) 0x01 .I := by
  refine spelt_of_opcodeRow (i := .rdsr imm) rfl ⟨(encode (.rdsr imm)).1, 0#64, ?_⟩
  simpa using decode_encode_rdsr ⟨imm.toNat, by omega⟩

theorem spelt_clrerr : Spelt .clrerr 0x02 .Z :=
  spelt_of_opcodeRow (i := .clrerr) rfl ⟨0x02#64, 0#64, by decide⟩

/-- A word of RDSR's opcode with a reserved index spells no command (30_encoding.md R100 stage 1). -/
theorem decode_ne_instr_of_reservedStatusIndex {cw cdata : Word64} (hop : opcodeOf cw = 0x01#8)
    (hi : 8 < (cw.extractLsb' 32 32).toNat) (i : Instr) : decode cw cdata ≠ .instr i := by
  intro h
  obtain ⟨f, build, hrow, -, rfl, hwf⟩ := decode_instr h
  rw [hop] at hrow
  cases hrow
  have hle : (cw.extractLsb' 32 32).toNat ≤ 8 := of_decide_eq_true hwf
  omega

/-- RDSR of an index whose status register holds `v` answers `v` modulo `2^32` and writes nothing
(46_host_exchange.md R358). -/
theorem writesNothing_rdsr {s : State} {imm : Imm} {v : Nat} (h : s.statusReg imm.toNat = some v) :
    WritesNothing (.rdsr imm) s false (v % 2 ^ 32) := by
  have ht : exec (.rdsr imm) s = .next (s.commit (answers (v % 2 ^ 32))) := by
    simp only [exec, execRdsr, h, finish_ok]
  have hdata : (BitVec.ofNat 64 (v % 2 ^ 32)).toNat = v % 2 ^ 32 := Nat.mod_eq_of_lt (by omega)
  have h := commit_answer s false (BitVec.ofNat 64 (v % 2 ^ 32))
  rw [hdata] at h
  exact ⟨_, ht, h⟩

theorem writesNothing_rdsr_of_lt {s : State} {imm : Imm} {v : Nat} (h : s.statusReg imm.toNat = some v)
    (hv : v < 2 ^ 32) : WritesNothing (.rdsr imm) s false v :=
  Nat.mod_eq_of_lt hv ▸ writesNothing_rdsr h

theorem statusReg_reserved {s : State} {n : Nat} (h : 8 < n) : s.statusReg n = none := by
  obtain ⟨k, rfl⟩ : ∃ k, n = k + 9 := ⟨n - 9, by omega⟩
  rfl

theorem fails_rdsr_reserved {s : State} {imm : Imm} (h : 8 < imm.toNat) : Fails (.rdsr imm) s .illegalCommand := by
  have ht : exec (.rdsr imm) s = .next (s.raise .illegalCommand) := by
    simp only [exec, execRdsr, statusReg_reserved h, finish_error]
  exact ⟨_, ht, failedWith_raise _ _⟩

theorem sum_two_pow_eq_ofBits {n : Nat} (p : Fin n → Bool) :
    ((List.finRange n).map fun i => if p i then 2 ^ i.val else 0).sum = Nat.ofBits p := by
  induction n with
  | zero => rfl
  | succ n ih =>
    have htail (i : Fin n) :
        (if p i.succ then 2 ^ i.succ.val else 0) = 2 * if (p ∘ Fin.succ) i then 2 ^ i.val else 0 := by
      cases h : p i.succ <;> simp [h, pow_succ']
    rw [List.finRange_succ, Nat.ofBits_succ, List.map_cons, List.map_map, List.sum_cons, Nat.add_comm, ← ih,
      ← List.sum_map_mul_left]
    congr 1
    · exact congrArg List.sum (List.map_congr_left fun i _ => htail i)
    · cases p 0 <;> simp

/-- SR_VALID has bit `i` set exactly when `x[i]` is VALID (10_state.md R34). -/
theorem statusReg_valid (s : State) : s.statusReg 8 = some (Nat.ofBits fun r => (s.readX r).isSome) :=
  congrArg some (sum_two_pow_eq_ofBits _)

/-- Settles O26: RDSR's answer from the status register it reads, and SR_VALID as the bits of the VALID registers. -/
theorem statusCommands : Obligations.StatusCommands := by
  refine ⟨fun imm h => spelt_rdsr h, spelt_clrerr, fun cw cdata => decode_ne_instr_of_reservedStatusIndex, fun s => ?_⟩
  have hbits : s.cfg.digitBits.bits < 2 ^ 32 := by cases s.cfg.digitBits <;> decide
  have hvalid : (Nat.ofBits fun r => (s.readX r).isSome) < 2 ^ 16 := Nat.ofBits_lt_two_pow _
  refine ⟨fun imm => fails_rdsr_reserved, writesNothing_rdsr_of_lt rfl hbits, writesNothing_rdsr rfl,
    writesNothing_rdsr_of_lt rfl (by decide), writesNothing_rdsr rfl, writesNothing_rdsr rfl,
    writesNothing_rdsr_of_lt rfl (by omega), writesNothing_rdsr_of_lt rfl s.expected.isLt,
    writesNothing_rdsr_of_lt rfl s.found.isLt,
    ⟨_, hvalid, fun r => Nat.testBit_ofBits_lt _ _ r.isLt, writesNothing_rdsr_of_lt (statusReg_valid s) (by omega)⟩, ?_⟩
  exact ⟨_, rfl, rfl, rfl, rfl, fun r => readX_commit s _ r, ⟨rfl, fun _ => rfl⟩, ⟨rfl, rfl⟩, 0#64, rfl, rfl⟩

end Sys2Proof.Machine

/-! SUPPORT. The host's commands in order, the commands that only read, and the order of the words in XBUF
(20_memory.md). -/

namespace Sys2Proof.Machine

/-! ### A sequence of commands -/

/-- No command reads what the host presents after it (20_memory.md R70): whatever is pending, its outcome is the
same. -/
theorem exec_finish_setPending (i : Instr) (s : State) (p : List HostEvent) :
    ∃ r, exec i s = s.finish r ∧ exec i { s with pending := p } = ({ s with pending := p } : State).finish r := by
  cases i
  case clrerr => exact ⟨.ok { clearLog := true }, rfl, rfl⟩
  case xclr => exact ⟨.ok { xbuf := some [] }, rfl, rfl⟩
  case drop rd => exact ⟨.ok { reg := some (rd, none) }, rfl, rfl⟩
  all_goals exact ⟨_, rfl, rfl⟩

theorem afterCommand_setPending (s : State) (cmd : Word64 × Word64) (p : List HostEvent) :
    afterCommand { s with pending := p } cmd = { afterCommand s cmd with pending := p } := by
  cases hd : decode cmd.1 cmd.2 with
  | illegal e => rw [afterCommand_illegal hd, afterCommand_illegal hd]; rfl
  | instr i =>
    obtain ⟨r, hs, hp⟩ := exec_finish_setPending i s p
    cases r <;> rw [afterCommand_instr hd hs, afterCommand_instr hd hp] <;> rfl

theorem afterCommand_pending (s : State) (cmd : Word64 × Word64) : (afterCommand s cmd).pending = s.pending := by
  rcases afterCommand_cases s cmd with ⟨e, h, -⟩ | ⟨i, f, -, -, h⟩ <;> rw [h] <;> rfl

theorem foldl_afterCommand_pending (cmds : List (Word64 × Word64)) (s : State) :
    (cmds.foldl afterCommand s).pending = s.pending := by
  induction cmds generalizing s with
  | nil => rfl
  | cons cmd cmds ih => rw [List.foldl_cons, ih, afterCommand_pending]

/-- Each command appends one response. -/
theorem foldl_afterCommand_responses (cmds : List (Word64 × Word64)) (s : State) :
    ∃ rs, rs.length = cmds.length ∧ (cmds.foldl afterCommand s).responses = s.responses ++ rs := by
  induction cmds generalizing s with
  | nil => exact ⟨[], rfl, (List.append_nil _).symm⟩
  | cons cmd cmds ih =>
    obtain ⟨r, hr, -⟩ := afterCommand_lasterr s cmd
    obtain ⟨rs, hlen, hrs⟩ := ih (afterCommand s cmd)
    refine ⟨r :: rs, congrArg (· + 1) hlen, ?_⟩
    rw [List.foldl_cons, hrs, hr, List.append_assoc, List.singleton_append]

/-- A run whose first step answers a next state goes on from it. -/
theorem run_succ_of_step (M : Host.Core) {s t : M.State} (h : M.step s = .next t) (k : Nat) :
    M.run (k + 1) s = M.run k t := by
  rw [Host.Core.run, h]

/-- The run over the presented commands is the left fold of the effect of one command over them (20_memory.md R70). -/
theorem run_eq_foldl_afterCommand (cmds : List (Word64 × Word64)) (s : State)
    (h : s.pending = cmds.map fun c => .command c.1 c.2) :
    core.run cmds.length s = .next (cmds.foldl afterCommand { s with pending := [] }) := by
  induction cmds generalizing s with
  | nil =>
    have hs : s = { s with pending := [] } := congrArg (fun p => ({ s with pending := p } : State)) h
    exact congrArg Host.Outcome.next hs
  | cons cmd cmds ih =>
    let rest : List HostEvent := cmds.map fun c => .command c.1 c.2
    let t := afterCommand { s with pending := rest } cmd
    have ht : { t with pending := [] } = afterCommand { s with pending := [] } cmd :=
      (afterCommand_setPending { s with pending := rest } cmd []).symm
    calc core.run (cmds.length + 1) s
        = core.run cmds.length t := run_succ_of_step core (step_command h) cmds.length
      _ = .next (cmds.foldl afterCommand { t with pending := [] }) := ih t (afterCommand_pending _ cmd)
      _ = .next (cmds.foldl afterCommand (afterCommand { s with pending := [] } cmd)) :=
          congrArg (fun u => Host.Outcome.next (cmds.foldl afterCommand u)) ht

/-- Settles O5: the run is the fold, and the fold appends one response per command and presents nothing. -/
theorem runIsTheLeftFold : Obligations.RunIsTheLeftFold := by
  intro s cmds h
  obtain ⟨rs, hlen, hrs⟩ := foldl_afterCommand_responses cmds { s with pending := [] }
  exact ⟨_, run_eq_foldl_afterCommand cmds s h, rfl, foldl_afterCommand_pending cmds _,
    hlen ▸ (congrArg List.length hrs).trans List.length_append, rs, hrs.symm⟩

/-! ### The commands that only read -/

theorem dest_of_isReader {i : Instr} (h : i.isReader = true) : i.dest = none := by
  cases i <;> simp_all [Instr.isReader, Instr.dest]

/-- A reading command writes no register. -/
theorem sameRegs_of_isReader {i : Instr} {s t : State} (hi : i.isReader = true) (ht : exec i s = .next t) :
    SameRegs s t :=
  fun r => registersAreIndependent.1 i s t r ht (by simp [dest_of_isReader hi])

theorem exec_cfg {i : Instr} {s t : State} (h : exec i s = .next t) : t.cfg = s.cfg := by
  rcases exec_cases h with ⟨e, rfl⟩ | ⟨f, rfl⟩ <;> rfl

theorem source_of_sameRegs {s t : State} (h : SameRegs s t) (r : RegNo) : source t r = source s r := by
  rw [source, source, h r]

theorem sources_of_sameRegs {s t : State} (h : SameRegs s t) (r q : RegNo) : sources t r q = sources s r q := by
  rw [sources_eq, sources_eq, h r, h q]

/-- An outcome that writes no entry of XBUF. -/
def LeavesBuffer (r : Except CmdError Effect) : Prop := ∀ f, r = .ok f → f.xbuf = none

theorem leavesBuffer_error (e : CmdError) : LeavesBuffer (.error e) := nofun

theorem leavesBuffer_ok {f : Effect} (h : f.xbuf = none) : LeavesBuffer (.ok f) := by
  rintro _ ⟨⟩; exact h

theorem leavesBuffer_bind {α : Type} {x : Except CmdError α} {g : α → Except CmdError Effect}
    (hg : ∀ a, LeavesBuffer (g a)) : LeavesBuffer (x >>= g) := by
  cases x with
  | error e => exact leavesBuffer_error e
  | ok a => exact hg a

theorem xbuf_of_leavesBuffer {s t : State} {r : Except CmdError Effect} (ht : s.finish r = .next t)
    (hr : LeavesBuffer r) : t.xbuf = s.xbuf := by
  rcases finish_next ht with ⟨e, -, rfl⟩ | ⟨f, hf, rfl⟩
  · rfl
  · rw [State.commit_xbuf, hr f hf, Option.getD_none]

/-- A reading command other than TOWORDS and FORMAT leaves XBUF as it is. -/
theorem xbuf_of_isReader {i : Instr} {s t : State} (hi : i.isReader = true) (hw : ∀ a, i ≠ .towords a)
    (hf : ∀ a sgn radix, i ≠ .format a sgn radix) (ht : exec i s = .next t) : t.xbuf = s.xbuf := by
  cases i with
  | rdsr imm =>
    refine xbuf_of_leavesBuffer ht ?_
    split
    · exact leavesBuffer_error _
    · exact leavesBuffer_ok rfl
  | xread imm =>
    refine xbuf_of_leavesBuffer ht ?_
    split
    · exact leavesBuffer_ok rfl
    · exact leavesBuffer_error _
  | getw rs1 | iszero rs1 | isones rs1 | sign rs1 | ucmp rs1 rs2 | scmp rs1 rs2 =>
    exact xbuf_of_leavesBuffer ht (leavesBuffer_bind fun _ => leavesBuffer_ok rfl)
  | toprim rs1 sgn pw =>
    exact xbuf_of_leavesBuffer ht (leavesBuffer_bind fun _ => leavesBuffer_bind fun _ => leavesBuffer_ok rfl)
  | towords rs1 => exact absurd rfl (hw rs1)
  | format rs1 sgn radix => exact absurd rfl (hf rs1 sgn radix)
  | _ => cases hi

/-- A status register has a value exactly if its index is not reserved (10_state.md R34). -/
theorem statusReg_eq_none_iff {s : State} {n : Nat} : s.statusReg n = none ↔ 8 < n := by
  refine ⟨fun h => ?_, statusReg_reserved⟩
  by_contra hn
  interval_cases n <;> cases h

/-- A reading command ends in the same way at the state it leaves. -/
theorem exec_again_of_isReader {i : Instr} {s t : State} (hi : i.isReader = true) (ht : exec i s = .next t) :
    ∃ r, exec i s = s.finish r ∧ exec i t = t.finish r := by
  have hregs := sameRegs_of_isReader hi ht
  cases i with
  | rdsr imm =>
    have hstatus : t.statusReg imm.toNat = s.statusReg imm.toNat := by
      cases h : s.statusReg imm.toNat with
      | none => exact statusReg_reserved (statusReg_eq_none_iff.1 h)
      | some v =>
        simp only [exec, execRdsr, h, finish_ok, Host.Outcome.next.injEq] at ht
        exact ht ▸ h
    refine ⟨_, rfl, ?_⟩
    simp only [exec, execRdsr, hstatus]
  | xread imm =>
    have hbuf := xbuf_of_isReader hi nofun nofun ht
    refine ⟨_, rfl, ?_⟩
    simp only [exec, execXread, hbuf]
  | towords rs1 =>
    refine ⟨_, rfl, ?_⟩
    simp only [exec, execTowords, Memory.replace, source_of_sameRegs hregs, exec_cfg ht]
  | getw rs1 | iszero rs1 | isones rs1 | sign rs1 | toprim rs1 sgn pw | format rs1 sgn radix =>
    exact ⟨_, rfl, congrArg (fun x => t.finish (x >>= _)) (source_of_sameRegs hregs rs1)⟩
  | ucmp rs1 rs2 | scmp rs1 rs2 =>
    exact ⟨_, rfl, congrArg (fun x => t.finish (x >>= _)) (sources_of_sameRegs hregs rs1 rs2)⟩
  | _ => cases hi

/-- The same outcome twice gives the same response twice, and the second time writes to XBUF what it holds. -/
theorem finish_again {s t t' : State} {r : Except CmdError Effect} (h : s.finish r = .next t)
    (h' : t.finish r = .next t') :
    (∃ x, t.responses = s.responses ++ [x] ∧ t'.responses = t.responses ++ [x]) ∧ t'.xbuf = t.xbuf := by
  rcases finish_next h with ⟨e, rfl, rfl⟩ | ⟨f, rfl, rfl⟩ <;> cases h'
  · exact ⟨⟨_, rfl, rfl⟩, rfl⟩
  · refine ⟨⟨_, rfl, rfl⟩, ?_⟩
    simp only [State.commit_xbuf]
    cases f.xbuf <;> rfl

/-- Settles O14: at the state it leaves, a reading command has the same outcome again. -/
theorem readersHaveNoSideEffects : Obligations.ReadersHaveNoSideEffects := by
  intro i s t t' hi ht ht'
  obtain ⟨r, hs, hr⟩ := exec_again_of_isReader hi ht
  obtain ⟨hresp, hbuf⟩ := finish_again (hs.symm.trans ht) (hr.symm.trans ht')
  exact ⟨sameRegs_of_isReader hi ht, hresp, hbuf, fun hw hf => xbuf_of_isReader hi hw hf ht⟩

/-! ### The order of the words -/

/-- Entry `k` of the words of a value is its bits `k*D + D - 1 .. k*D` (20_memory.md R61). -/
theorem testBit_of_words_entry {D k d j : Nat} {a : ApInt} (h : Memory.entry (a.words D) k = some d) (hj : j < D) :
    d.testBit j = a.u.testBit (k * D + j) := by
  obtain ⟨-, rfl⟩ : k < nwords D a.w ∧ a.u / base D ^ k % base D = d := by
    simpa [Memory.entry, ApInt.words, List.getElem?_eq_some_iff] using h
  rw [base, ← pow_mul, Nat.testBit_mod_two_pow, Nat.testBit_div_two_pow, Nat.mul_comm, Nat.add_comm]
  simp [hj]

/-- Bit `k*D + j` of the number a word sequence stands for is bit `j` of its entry `k` (20_memory.md R61). -/
theorem testBit_valueOf {D j : Nat} (hj : j < D) :
    ∀ {m : Memory} {k d : Nat}, (∀ e ∈ m, e < base D) → Memory.entry m k = some d →
      (valueOf D m).testBit (k * D + j) = d.testBit j
  | [], _, _, _, h => nomatch h
  | e :: m, k, d, hm, h => by
    have hlow : e < 2 ^ D := hm e List.mem_cons_self
    rw [valueOf, base, Nat.add_comm, Nat.testBit_two_pow_mul_add _ hlow]
    cases k with
    | zero =>
      cases h
      rw [Nat.zero_mul, Nat.zero_add, if_pos hj]
    | succ k =>
      rw [if_neg (by rw [Nat.succ_mul]; omega), Nat.succ_mul, Nat.add_right_comm, Nat.add_sub_cancel]
      exact testBit_valueOf hj (fun x hx => hm x (List.mem_cons_of_mem _ hx)) h

/-- TOWORDS of a VALID register completes (46_host_exchange.md R352). -/
theorem exec_towords {s : State} {rs1 : RegNo} {a : ApInt} (h : s.readX rs1 = some a) :
    exec (.towords rs1) s = .next (s.commit
      { xbuf := some (a.words s.cfg.digitBits.bits), data := BitVec.ofNat 64 a.w }) := by
  simp only [exec, execTowords, source_ok.2 h]; rfl

/-- FROMWORDS of a legal BitWidth completes when XLEN is its word count (46_host_exchange.md R350). -/
theorem exec_fromwords {s : State} {rd : RegNo} {imm : Imm} (hl : 1 ≤ imm.toNat) (hu : imm.toNat ≤ s.cfg.maxWidth)
    (hx : s.xlen = nwords s.cfg.digitBits.bits imm.toNat) :
    exec (.fromwords rd imm) s =
      .next (s.commit (writes rd imm.toNat (valueOf s.cfg.digitBits.bits s.xbuf))) := by
  simp only [exec, execFromwords, widthField_ok.2 ⟨rfl, hl, hu⟩, bind, Except.bind, hx, ne_eq, not_true_eq_false,
    if_false, finish_ok]

/-- Settles O29: TOWORDS writes the words of the value, FROMWORDS the number they stand for, modulo `2^w`. -/
theorem wordOrderIsLeastSignificantFirst : Obligations.WordOrderIsLeastSignificantFirst := by
  constructor
  · intro s t rs1 a ha ht k d j hd hj
    rw [exec_towords ha] at ht
    cases ht
    exact testBit_of_words_entry hd hj
  · intro s rd imm hinv hl hu hx
    refine ⟨_, canon imm.toNat (valueOf s.cfg.digitBits.bits s.xbuf), exec_fromwords hl hu hx, ?_, ?_, ?_⟩
    · simp [readX_commit, writes]
    · intro k d j hd hj hk
      rw [canon, Nat.testBit_mod_two_pow, testBit_valueOf hj hinv.mem.2 hd]
      simp [hk]
    · intro j hj
      rw [canon, Nat.testBit_mod_two_pow]
      simp [Nat.not_lt.2 hj]

end Sys2Proof.Machine

/-! SUPPORT. The fields of the command word, the words the decoder accepts, and what it takes from the data word
(30_encoding.md). -/

namespace Sys2Proof.Machine

/-! ### The fields of the command word -/

theorem toNat_field (cw : Word64) (lo len : Nat) : (cw.extractLsb' lo len).toNat = cw.toNat / 2 ^ lo % 2 ^ len := by
  rw [BitVec.extractLsb'_toNat, Nat.shiftRight_eq_div_pow]

theorem val_regField (cw : Word64) (lo : Nat) : (regField cw lo).val = cw.toNat / 2 ^ lo % 16 := by
  change (cw.extractLsb' lo 4).toNat % 16 = _
  exact (congrArg (· % 16) (toNat_field cw lo 4)).trans (Nat.mod_mod _ 16)

theorem ofBit_eq_signed_iff {b : BitVec 1} : Signedness.ofBit b = .signed ↔ b.toNat = 1 := by
  revert b; decide

theorem toBit_ofBit (b : BitVec 1) : (Signedness.ofBit b).toBit = b := by
  revert b; decide

theorem PW_ofCode (b : BitVec 2) : PW (.ofCode b) = 8 * 2 ^ b.toNat := by
  revert b; decide

theorem toCode_ofCode (b : BitVec 2) : (PrimWidth.ofCode b).toCode = b := by
  revert b; decide

theorem setWidth_append_eq_or_shiftLeft {n m : Nat} (k : Nat) (x : BitVec n) (y : BitVec m) :
    (x ++ y).setWidth k = y.setWidth k ||| x.setWidth k <<< m := by
  ext j hj
  rcases Nat.lt_or_ge j m with h | h
  · simp [BitVec.getLsbD_append, h]
  · simp [BitVec.getLsbD_append, Nat.not_lt.2 h, BitVec.getLsbD_of_ge y j h]

theorem setWidth_ofNat_regNo (r : RegNo) : (BitVec.ofNat 4 r).setWidth 64 = BitVec.ofNat 64 r :=
  BitVec.eq_of_toNat_eq (by simp)

/-- The fields side by side are the fields shifted to their positions (30_encoding.md R94); bit 23 adds nothing. -/
theorem pack_eq_or (op : BitVec 8) (f : Fields) :
    f.pack op = op.setWidth 64 ||| BitVec.ofNat 64 f.rd <<< 8 ||| BitVec.ofNat 64 f.rs1 <<< 12 |||
      BitVec.ofNat 64 f.rs2 <<< 16 ||| f.sgn.toBit.setWidth 64 <<< 20 ||| f.pw.toCode.setWidth 64 <<< 21 |||
      f.radix.setWidth 64 <<< 24 ||| f.imm.setWidth 64 <<< 32 := by
  rw [← BitVec.setWidth_eq (f.pack op), Fields.pack]
  repeat rw [setWidth_append_eq_or_shiftLeft]
  simp only [setWidth_ofNat_regNo, BitVec.shiftLeft_or_distrib, ← BitVec.shiftLeft_add, Nat.reduceAdd,
    BitVec.setWidth_zero, BitVec.zero_or, BitVec.or_assoc]

/-- Settles O18: each field is a quotient and a remainder of the word, and packing is a sum of shifted fields. -/
theorem fieldsStandWhereTheEncodingPutsThem : Obligations.FieldsStandWhereTheEncodingPutsThem := by
  refine ⟨fun cw cdata => ⟨?_, val_regField cw 8, val_regField cw 12, val_regField cw 16, ?_, ?_, toNat_field cw 24 8,
    ?_, rfl⟩, pack_eq_or⟩
  · exact (toNat_field cw 0 8).trans (congrArg (· % 256) (Nat.div_one _))
  · exact ofBit_eq_signed_iff.trans (by rw [toNat_field, pow_one])
  · exact (PW_ofCode _).trans (congrArg (8 * 2 ^ ·) (toNat_field cw 21 2))
  · exact (toNat_field cw 32 32).trans (Nat.mod_eq_of_lt (by omega))

/-! ### The fields as masked bits -/

theorem and_fieldMask (cw : Word64) (lo len : Nat) :
    cw &&& (BitVec.allOnes len).setWidth 64 <<< lo = (cw.extractLsb' lo len).setWidth 64 <<< lo := by
  ext j hj
  rcases Nat.lt_or_ge j lo with h | h
  · simp [h]
  · simp [Nat.not_lt.2 h, Bool.and_comm, Nat.add_sub_cancel' h, BitVec.getLsbD_eq_getElem, hj]

theorem ofNat_regField (cw : Word64) (lo : Nat) :
    BitVec.ofNat 64 (regField cw lo) = (cw.extractLsb' lo 4).setWidth 64 := by
  refine BitVec.eq_of_toNat_eq ?_
  have h : (regField cw lo).val < 2 ^ 64 := by omega
  rw [BitVec.toNat_ofNat, Nat.mod_eq_of_lt h, BitVec.toNat_setWidth_of_le (by decide)]
  exact (val_regField cw lo).trans (toNat_field cw lo 4).symm

section
variable (cw cdata : Word64)

theorem and_maskOp : cw &&& maskOp = (opcodeOf cw).setWidth 64 :=
  (and_fieldMask cw 0 8).trans (BitVec.shiftLeft_zero _)

theorem and_maskRd : cw &&& maskRd = BitVec.ofNat 64 (Fields.ofWords cw cdata).rd <<< 8 := by
  rw [Fields.ofWords, ofNat_regField]
  exact and_fieldMask cw 8 4

theorem and_maskRs1 : cw &&& maskRs1 = BitVec.ofNat 64 (Fields.ofWords cw cdata).rs1 <<< 12 := by
  rw [Fields.ofWords, ofNat_regField]
  exact and_fieldMask cw 12 4

theorem and_maskRs2 : cw &&& maskRs2 = BitVec.ofNat 64 (Fields.ofWords cw cdata).rs2 <<< 16 := by
  rw [Fields.ofWords, ofNat_regField]
  exact and_fieldMask cw 16 4

theorem and_maskSgn : cw &&& maskSgn = (Fields.ofWords cw cdata).sgn.toBit.setWidth 64 <<< 20 := by
  rw [Fields.ofWords, toBit_ofBit]
  exact and_fieldMask cw 20 1

theorem and_maskPw : cw &&& maskPw = (Fields.ofWords cw cdata).pw.toCode.setWidth 64 <<< 21 := by
  rw [Fields.ofWords, toCode_ofCode]
  exact and_fieldMask cw 21 2

theorem and_maskRadix : cw &&& maskRadix = (Fields.ofWords cw cdata).radix.setWidth 64 <<< 24 :=
  and_fieldMask cw 24 8

theorem and_maskImm : cw &&& maskImm = (Fields.ofWords cw cdata).imm.setWidth 64 <<< 32 :=
  and_fieldMask cw 32 32

end

/-! ### A decoded word is the encoding of its command -/

/-- The fields of `F` that a format uses (30_encoding.md R98), the others 0 (R101). -/
def keepFields (F : Fields) : Format → Fields
  | .I => { imm := F.imm }
  | .Z | .ZD => {}
  | .PI => { rd := F.rd, sgn := F.sgn, pw := F.pw, imm := F.imm }
  | .PO => { rs1 := F.rs1, sgn := F.sgn, pw := F.pw }
  | .DI => { rd := F.rd, imm := F.imm }
  | .S => { rs1 := F.rs1 }
  | .DS => { rd := F.rd, rs1 := F.rs1 }
  | .D => { rd := F.rd }
  | .DSI => { rd := F.rd, rs1 := F.rs1, imm := F.imm }
  | .DSS => { rd := F.rd, rs1 := F.rs1, rs2 := F.rs2 }
  | .SS => { rs1 := F.rs1, rs2 := F.rs2 }
  | .TI => { rd := F.rd, sgn := F.sgn, radix := F.radix, imm := F.imm }
  | .TO => { rs1 := F.rs1, sgn := F.sgn, radix := F.radix }

/-- A row's command fills in the fields of the row's format. -/
theorem pack_fields_of_opcodeRow {n : Nat} {f : Format} {build : Fields → Instr} (h : opcodeRow n = some (f, build))
    (op : BitVec 8) (F : Fields) : (build F).fields.pack op = (keepFields F f).pack op := by
  unfold opcodeRow at h
  split at h <;> cases h <;> rfl

/-- The fields a format uses, packed again, are the word's bits under the format's mask. -/
theorem pack_keepFields (cw cdata : Word64) (f : Format) :
    (keepFields (Fields.ofWords cw cdata) f).pack (opcodeOf cw) = cw &&& (maskOp ||| f.used) := by
  cases f <;> simp [pack_eq_or, keepFields, Format.used, BitVec.and_or_distrib_left, and_maskOp, and_maskRd cw cdata,
    and_maskRs1 cw cdata, and_maskRs2 cw cdata, and_maskSgn cw cdata, and_maskPw cw cdata, and_maskRadix cw cdata,
    and_maskImm cw cdata, Signedness.toBit, PrimWidth.toCode, BitVec.or_assoc]

theorem and_eq_self_of_and_not_eq_zero {w : Nat} {x m : BitVec w} (h : x &&& ~~~m = 0#w) : x &&& m = x := by
  have hx : x &&& (m ||| ~~~m) = x := by simp
  rwa [BitVec.and_or_distrib_left, h, BitVec.or_zero] at hx

/-- Encoding the command a word decodes to gives the word back. -/
theorem encode_fst_of_decode {cw cdata : Word64} {i : Instr} (h : decode cw cdata = .instr i) : (encode i).1 = cw := by
  have hop := opcodeOf_of_decode h
  obtain ⟨f, build, hrow, hm, rfl, -⟩ := decode_instr h
  calc (encode _).1 = (keepFields (Fields.ofWords cw cdata) f).pack (opcodeOf cw) := by
        rw [encode, ← hop, pack_fields_of_opcodeRow hrow]
    _ = cw &&& (maskOp ||| f.used) := pack_keepFields cw cdata f
    _ = cw := and_eq_self_of_and_not_eq_zero hm

/-! ### The opcode map and the opcode table -/

theorem opcodeOf_setWidth (op : BitVec 8) : opcodeOf (op.setWidth 64) = op := by
  refine BitVec.eq_of_toNat_eq ?_
  rw [opcodeOf, toNat_field, BitVec.toNat_setWidth_of_le (by decide), pow_zero, Nat.div_one]
  exact Nat.mod_eq_of_lt op.isLt

theorem setWidth_and_maskOp (op : BitVec 8) : op.setWidth 64 &&& maskOp = op.setWidth 64 := by
  rw [and_maskOp, opcodeOf_setWidth]

/-- A word matches a table row exactly if it has the row's opcode and no unused bit set (30_encoding.md R101). -/
theorem and_not_used_eq_iff {cw : Word64} {op : BitVec 8} {f : Format} :
    cw &&& ~~~f.used = op.setWidth 64 ↔ opcodeOf cw = op ∧ cw &&& ~~~(maskOp ||| f.used) = 0#64 := by
  constructor
  · intro h
    have hused : ~~~f.used &&& maskOp = maskOp := by cases f <;> decide
    have hop : (opcodeOf cw).setWidth 64 = op.setWidth 64 := by
      calc (opcodeOf cw).setWidth 64
          = cw &&& ~~~f.used &&& maskOp := by rw [BitVec.and_assoc, hused, and_maskOp]
        _ = op.setWidth 64 := by rw [h, setWidth_and_maskOp]
    refine ⟨by simpa only [opcodeOf_setWidth] using congrArg opcodeOf hop, ?_⟩
    calc cw &&& ~~~(maskOp ||| f.used)
        = cw &&& ~~~f.used &&& ~~~maskOp := by rw [BitVec.not_or, BitVec.and_comm (~~~maskOp), BitVec.and_assoc]
      _ = op.setWidth 64 &&& (maskOp &&& ~~~maskOp) := by rw [h, ← BitVec.and_assoc, setWidth_and_maskOp]
      _ = 0#64 := by rw [BitVec.and_not_self]; exact BitVec.and_zero
  · rintro ⟨rfl, hm⟩
    have hused : ~~~f.used = maskOp ||| ~~~(maskOp ||| f.used) := by cases f <;> decide
    rw [hused, BitVec.and_or_distrib_left, hm, and_maskOp, BitVec.or_zero]

/-- Each row of the opcode map (30_encoding.md R98) is a row of the opcode table (R101). -/
theorem tableRow_of_opcodeRow {n : Nat} {f : Format} {build : Fields → Instr} (h : opcodeRow n = some (f, build)) :
    ∃ row ∈ opcodeTable, row.2.1 = BitVec.ofNat 64 n ∧ row.2.2 = ~~~f.used := by
  unfold opcodeRow at h
  split at h <;> cases h <;> decide

/-- The mask the opcode map gives an opcode number: all bits but the fields of its format. -/
def opcodeMask (n : Nat) : Option Word64 := (opcodeRow n).map fun p => ~~~p.1.used

theorem opcodeMask_of_mem_opcodeTable : ∀ row ∈ opcodeTable,
    (opcodeOf row.2.1).setWidth 64 = row.2.1 ∧ opcodeMask (opcodeOf row.2.1).toNat = some row.2.2 := by
  decide

/-- Each row of the opcode table is a row of the opcode map. -/
theorem opcodeRow_of_mem_opcodeTable {row : String × Word64 × Word64} (h : row ∈ opcodeTable) :
    ∃ (op : BitVec 8) (f : Format) (build : Fields → Instr), row.2.1 = op.setWidth 64 ∧ row.2.2 = ~~~f.used ∧
      opcodeRow op.toNat = some (f, build) := by
  obtain ⟨hop, hmask⟩ := opcodeMask_of_mem_opcodeTable row h
  obtain ⟨⟨f, build⟩, hrow, hused⟩ := Option.map_eq_some_iff.1 hmask
  exact ⟨_, f, build, hop.symm, hused.symm, hrow⟩

/-! ### The words the decoder accepts -/

/-- RDSR alone has a check of its own in the decode stage (30_encoding.md R100). -/
theorem wellFormed_of_opcodeRow {n : Nat} {f : Format} {build : Fields → Instr} (h : opcodeRow n = some (f, build))
    (F : Fields) : (build F).wellFormed = true ↔ ¬(n = 0x01 ∧ 8 < F.imm.toNat) := by
  unfold opcodeRow at h
  split at h <;> cases h
  case h_1 => simp [Instr.wellFormed]
  all_goals exact iff_of_true rfl (by omega)

theorem decode_of_opcodeRow {cw cdata : Word64} {f : Format} {build : Fields → Instr}
    (hrow : opcodeRow (opcodeOf cw).toNat = some (f, build)) (hm : cw &&& ~~~(maskOp ||| f.used) = 0#64)
    (hwf : (build (Fields.ofWords cw cdata)).wellFormed = true) :
    decode cw cdata = .instr (build (Fields.ofWords cw cdata)) := by
  unfold decode
  rw [hrow]
  exact (if_pos hm).trans (if_pos hwf)

theorem tableRow_of_decode {cw cdata : Word64} {i : Instr} (h : decode cw cdata = .instr i) :
    ∃ row ∈ opcodeTable, cw &&& row.2.2 = row.2.1 ∧ row.2.1 = i.opcode.setWidth 64 := by
  obtain ⟨f, build, hrow, hm, -, -⟩ := decode_instr h
  obtain ⟨row, hmem, hop, hmask⟩ := tableRow_of_opcodeRow hrow
  rw [BitVec.ofNat_toNat] at hop
  refine ⟨row, hmem, ?_, opcodeOf_of_decode h ▸ hop⟩
  rw [hop, hmask]
  exact and_not_used_eq_iff.2 ⟨rfl, hm⟩

theorem exists_decode_iff {cw cdata : Word64} :
    (∃ i, decode cw cdata = .instr i) ↔ (∃ row ∈ opcodeTable, cw &&& row.2.2 = row.2.1) ∧
      ¬((opcodeOf cw).toNat = 0x01 ∧ 8 < (cw.extractLsb' 32 32).toNat) := by
  constructor
  · rintro ⟨i, hd⟩
    obtain ⟨row, hmem, hmatch, -⟩ := tableRow_of_decode hd
    obtain ⟨f, build, hrow, -, rfl, hwf⟩ := decode_instr hd
    exact ⟨⟨row, hmem, hmatch⟩, (wellFormed_of_opcodeRow hrow _).1 hwf⟩
  · rintro ⟨⟨row, hmem, hmatch⟩, hindex⟩
    obtain ⟨op, f, build, hop, hmask, hrow⟩ := opcodeRow_of_mem_opcodeTable hmem
    rw [hop, hmask] at hmatch
    obtain ⟨rfl, hm⟩ := and_not_used_eq_iff.1 hmatch
    exact ⟨_, decode_of_opcodeRow hrow hm ((wellFormed_of_opcodeRow hrow _).2 hindex)⟩

/-- A presented word pair that spells no command fails with IllegalCommand (30_encoding.md R99). -/
theorem fails_of_forall_ne_instr {s : State} {cw cdata : Word64} {rest : List HostEvent}
    (hp : s.pending = .command cw cdata :: rest) (hn : ∀ i, decode cw cdata ≠ .instr i) :
    ∃ t, step s = .next t ∧ FailedWith { s with pending := rest } t .illegalCommand := by
  cases hd : decode cw cdata with
  | illegal e => exact ⟨_, step_illegal hp hd, failedWith_raise _ _⟩
  | instr i => exact absurd hd (hn i)

/-- Settles O6: an undecodable pair raises IllegalCommand, and every command raises or commits, once. -/
theorem everyCommandIsAnsweredOnce : Obligations.EveryCommandIsAnsweredOnce := by
  intro s cw cdata rest hp
  cases hd : decode cw cdata with
  | illegal e => exact ⟨_, _, step_illegal hp hd, rfl, rfl, rfl, fun _ => rfl⟩
  | instr i =>
    obtain ⟨t, ht⟩ := exec_total i { s with pending := rest }
    have hs : step s = .next t := (step_instr hp hd).trans ht
    rcases exec_cases ht with ⟨e, rfl⟩ | ⟨f, rfl⟩ <;>
      exact ⟨_, _, hs, rfl, rfl, rfl, fun hn => absurd rfl (hn i)⟩

/-- Settles O21: the rows of the table are the rows of the opcode map, and a decoded word is its command's encoding. -/
theorem decodeAcceptsExactlyTheOpcodeTable : Obligations.DecodeAcceptsExactlyTheOpcodeTable := by
  refine ⟨fun _ _ => exists_decode_iff, fun _ _ _ => tableRow_of_decode, fun row hmem => ?_,
    fun cw cw' _ _ i hd hd' => ?_, fun _ _ _ _ => fails_of_forall_ne_instr⟩
  · obtain ⟨op, f, build, hop, hmask, hrow⟩ := opcodeRow_of_mem_opcodeTable hmem
    refine ⟨f, build, ?_, hmask⟩
    rwa [hop, BitVec.toNat_setWidth_of_le (by decide)]
  · exact (encode_fst_of_decode hd).symm.trans (encode_fst_of_decode hd')

/-- R99's list is the numbers that R98's map leaves out. -/
theorem reservedOpcode_iff {n : Nat} (hn : n < 256) : ReservedOpcode n ↔ opcodeRow n = none := by
  unfold opcodeRow ReservedOpcode
  split
  case h_43 =>
    simp only [imp_false] at *
    exact iff_of_true (by omega) trivial
  all_goals exact iff_of_false (by omega) nofun

/-- Settles O22: each of the three kinds of word contradicts what a decoded word meets. -/
theorem reservedAndIllegalWordsFail : Obligations.ReservedAndIllegalWordsFail := by
  refine ⟨fun s cw cdata rest hp hbad => fails_of_forall_ne_instr hp fun i hd => ?_,
    fun n => reservedOpcode_iff n.isLt, fun _ => rfl⟩
  obtain ⟨⟨row, hmem, hmatch⟩, hindex⟩ := exists_decode_iff.1 ⟨i, hd⟩
  rcases hbad with hreserved | htable | hrdsr
  · obtain ⟨f, build, hrow, -⟩ := decode_instr hd
    cases hrow.symm.trans ((reservedOpcode_iff (opcodeOf cw).isLt).1 hreserved)
  · exact htable row hmem hmatch
  · exact hindex hrdsr

/-! ### The data word -/

theorem build_ofWords_congr {n : Nat} {f : Format} {build : Fields → Instr} (h : opcodeRow n = some (f, build))
    (hx : n ≠ 0x04) (hp : n ≠ 0x10) (cw c c' : Word64) :
    build (Fields.ofWords cw c) = build (Fields.ofWords cw c') := by
  unfold opcodeRow at h
  split at h <;> cases h
  case h_4 => exact absurd rfl hx
  case h_6 => exact absurd rfl hp
  all_goals rfl

theorem decode_congr_cdata {cw : Word64} (hx : opcodeOf cw ≠ 0x04#8) (hp : opcodeOf cw ≠ 0x10#8) (c c' : Word64) :
    decode cw c = decode cw c' := by
  have hx' : (opcodeOf cw).toNat ≠ 0x04 := fun h => hx (BitVec.eq_of_toNat_eq h)
  have hp' : (opcodeOf cw).toNat ≠ 0x10 := fun h => hp (BitVec.eq_of_toNat_eq h)
  unfold decode
  cases hrow : opcodeRow (opcodeOf cw).toNat with
  | none => rfl
  | some row =>
    dsimp only
    rw [build_ofWords_congr hrow hx' hp' cw c c']
    rfl

/-- Settles O23: the rows other than XPUSH and FROMPRIM build no command from the data word, and these two reduce it. -/
theorem cdataIsIgnoredWhereUnused : Obligations.CdataIsIgnoredWhereUnused := by
  refine ⟨fun cw c c' hx hp => decode_congr_cdata hx hp c c', fun s v v' h => ?_, fun s rd sgn pw imm v v' h => ?_⟩
  · simp only [exec, execXpush, base, h]
  · simp only [exec, execFromprim, primValue, h]

end Sys2Proof.Machine

/-! SUPPORT. The Digit primitives read as integer arithmetic (40_digit.md R131 to R135): a difference that wraps, a product
plus two Digits, a quotient that fits a Digit. -/

namespace Sys2Proof.Machine

/-! ### The Digit primitives -/

theorem natCast_dsub {D a b : Nat} (hb : b < base D) : (dsub D a b : Int) = ((a : Int) - b) % base D := by
  have hrep : ((a + base D - b : Nat) : Int) = (a : Int) - b + base D := by omega
  rw [dsub, Int.natCast_emod, hrep, Int.add_emod_right]

theorem natCast_dsbb_fst {D a b c : Nat} (hb : b < base D) (hc : c ≤ 1) :
    ((dsbb D a b c).1 : Int) = ((a : Int) - b - c) % base D := by
  have hrep : ((a + base D + base D - b - c : Nat) : Int) = (a : Int) - b - c + base D + base D := by omega
  rw [dsbb, Int.natCast_emod, hrep, Int.add_emod_right, Int.add_emod_right]

theorem dsbb_snd (D a b c : Nat) : (dsbb D a b c).2 = if (a : Int) - b - c < 0 then 1 else 0 :=
  if_congr (by omega) rfl rfl

/-- A product plus two Digits fits a double word (R134): its greatest value is `(B - 1) * (B - 1) + 2 * (B - 1)`. -/
theorem mul_add_add_lt_sq {B a b y z : Nat} (ha : a < B) (hb : b < B) (hy : y < B) (hz : z < B) :
    a * b + y + z < B ^ 2 := by
  obtain ⟨m, rfl⟩ : ∃ m, B = m + 1 := Nat.exists_eq_add_one_of_ne_zero (Nat.ne_zero_of_lt ha)
  have hprod : a * b ≤ m * m := Nat.mul_le_mul (Nat.le_of_lt_succ ha) (Nat.le_of_lt_succ hb)
  have hsq : (m + 1) ^ 2 = m * m + 2 * m + 1 := by ring
  omega

@[simp] theorem ddiv_zero (a : Nat) : ddiv a 0 = none := rfl

theorem ddiv_of_ne_zero {a b : Nat} (hb : b ≠ 0) : ddiv a b = some (a / b) := if_neg hb

@[simp] theorem ddiv2_zero (D hi lo : Nat) : ddiv2 D hi lo 0 = none := rfl

theorem ddiv2_of_ne_zero {D hi lo d : Nat} (hd : d ≠ 0) :
    ddiv2 D hi lo d = some ((hi * base D + lo) / d % base D, (hi * base D + lo) % d) := if_neg hd

/-- With `hi < d` the quotient of `ddiv2` is exact: it is below `BASE`, so reducing it changes nothing (R135). -/
theorem doubleWord_div_lt {B hi lo d : Nat} (hlo : lo < B) (hhi : hi < d) : (hi * B + lo) / d < B := by
  refine Nat.div_lt_of_lt_mul ?_
  calc hi * B + lo < hi * B + B := Nat.add_lt_add_left hlo _
    _ = (hi + 1) * B := (Nat.succ_mul hi B).symm
    _ ≤ d * B := Nat.mul_le_mul_right B hhi

/-- Settles O51: `base D` is `2 ^ D`; sums and products are the definitions, differences are read as integers. -/
theorem digitPrimitives : Obligations.DigitPrimitives := by
  intro D a b c ha hb hc
  have hbase : (base D.bits : Int) = 2 ^ D.bits := Nat.cast_pow 2 D.bits
  refine ⟨rfl, ?_, rfl, ddiv_zero a, ddiv_of_ne_zero, rfl, ?_, dsbb_snd D.bits a b c, rfl,
    fun y z hy hz => Nat.le_sub_one_of_lt (mul_add_add_lt_sq ha hb hy hz),
    fun hi lo d _ hlo _ => ⟨?_, ddiv2_of_ne_zero, doubleWord_div_lt hlo⟩⟩
  · exact hbase ▸ natCast_dsub hb
  · exact hbase ▸ natCast_dsbb_fst hb hc
  · rintro rfl
    exact ddiv2_zero D.bits hi lo

end Sys2Proof.Machine

/-! SUPPORT. The encoding of a command decodes to it, the checks of a command one by one, and GETW, COPY and DROP
(30_encoding.md R100, 41_storage_width.md R160 to R162). -/

namespace Sys2Proof.Machine

/-! ### A well-formed command is spelt by its encoding -/

theorem ofBit_toBit (b : Signedness) : .ofBit b.toBit = b := by cases b <;> rfl

theorem ofCode_toCode (p : PrimWidth) : .ofCode p.toCode = p := by cases p <;> rfl

/-- A register field reads back: a register number is below 16 (30_encoding.md R97). -/
theorem ofNat_toNat_regNo (r : RegNo) : Fin.ofNat 16 (BitVec.ofNat 4 r).toNat = r :=
  Fin.ext (by simp [Fin.ofNat, Nat.mod_eq_of_lt r.isLt])

/-- The fields packed into a command word are the fields read from it (30_encoding.md R94). -/
theorem ofWords_pack (op : BitVec 8) (f : Fields) : Fields.ofWords (f.pack op) f.cdata = f := by
  simp only [Fields.ofWords, Fields.pack, regField, BitVec.extractLsb'_append_eq_of_le, BitVec.extractLsb'_append_eq_right,
    BitVec.extractLsb'_eq_self, Nat.reduceLeDiff, Nat.reduceSub, ofNat_toNat_regNo, ofBit_toBit, ofCode_toCode]

/-- Each command is the one that the row of its opcode builds from its fields (30_encoding.md R98). -/
theorem exists_opcodeRow (i : Instr) :
    ∃ f build, opcodeRow i.opcode.toNat = some (f, build) ∧ build i.fields = i := by
  cases i <;> exact ⟨_, _, rfl, rfl⟩

theorem and_not_eq_zero_of_and_eq_self {w : Nat} {x m : BitVec w} (h : x &&& m = x) : x &&& ~~~m = 0#w := by
  rw [← h, BitVec.and_assoc, BitVec.and_not_self]
  exact BitVec.and_zero

/-- The encoder sets no bit outside the fields of the command's format (30_encoding.md R101). -/
theorem encode_and_not_used {i : Instr} {f : Format} {build : Fields → Instr}
    (hrow : opcodeRow i.opcode.toNat = some (f, build)) (hb : build i.fields = i) :
    (encode i).1 &&& ~~~(maskOp ||| f.used) = 0#64 := by
  refine and_not_eq_zero_of_and_eq_self ?_
  calc (encode i).1 &&& (maskOp ||| f.used)
      = (keepFields i.fields f).pack i.opcode := by
        rw [← pack_keepFields _ i.fields.cdata, encode, ofWords_pack, Laws.opcodeOf_pack]
    _ = (encode i).1 := by rw [← pack_fields_of_opcodeRow hrow, hb, encode]

/-- The encoding of a well-formed command decodes to it. -/
theorem decode_encode {i : Instr} (hwf : i.wellFormed = true) : decode (encode i).1 (encode i).2 = .instr i := by
  obtain ⟨f, build, hrow, hb⟩ := exists_opcodeRow i
  have hop : opcodeOf (encode i).1 = i.opcode := Laws.opcodeOf_pack _ _
  have hfields : build (Fields.ofWords (encode i).1 (encode i).2) = i := by rw [encode, ofWords_pack, hb]
  rw [decode_of_opcodeRow (hop ▸ hrow) (encode_and_not_used hrow hb) (hfields.symm ▸ hwf), hfields]

/-- A well-formed command is spelt as the row of its opcode says (30_encoding.md R98, R101). -/
theorem spelt_of_wellFormed {i : Instr} {f : Format} {build : Fields → Instr}
    (hrow : opcodeRow i.opcode.toNat = some (f, build)) (hwf : i.wellFormed = true) : Spelt i i.opcode f :=
  spelt_of_opcodeRow hrow ⟨_, _, decode_encode hwf⟩

/-! ### A command check by check (30_encoding.md R100) -/

section
variable {i : Instr} {s : State}

theorem fails_of_exec {e : CmdError} (h : exec i s = s.finish (.error e)) : Fails i s e :=
  ⟨_, h, failedWith_raise s e⟩

theorem writesReg_of_exec {rd : RegNo} {v : Option ApInt} {flag : Bool}
    (h : exec i s = s.finish (.ok { reg := some (rd, v), flag := flag })) : WritesReg i s rd v flag :=
  ⟨_, h, commit_reg s rd v flag 0#64⟩

theorem writesNothing_of_exec {flag : Bool} {data : Nat}
    (h : exec i s = s.finish (.ok { flag := flag, data := BitVec.ofNat 64 data })) (hd : data < 2 ^ 64) :
    WritesNothing i s flag data := by
  have hdata : (BitVec.ofNat 64 data).toNat = data := Nat.mod_eq_of_lt hd
  have hc := commit_answer s flag (BitVec.ofNat 64 data)
  rw [hdata] at hc
  exact ⟨_, h, hc⟩

/-- Stage 2: behind a legal BitWidth the command is what follows the check. -/
theorem widthChecked_of_exec {imm : Imm} {g : Nat → Except CmdError Effect} {P : Nat → Prop}
    (h : exec i s = s.finish (widthField s.cfg imm >>= g))
    (hP : 1 ≤ imm.toNat → imm.toNat ≤ s.cfg.maxWidth → exec i s = s.finish (g imm.toNat) → P imm.toNat) :
    WidthChecked i s imm P := by
  refine ⟨fun hbad => fails_of_exec ?_, fun hl hu => hP hl hu ?_⟩
  · rw [h, widthField_error.2 ⟨hbad, rfl⟩]; rfl
  · rw [h, widthField_ok.2 ⟨rfl, hl, hu⟩]; rfl

/-- Stage 3: behind a VALID source the command is what follows the check. -/
theorem oneSource_of_exec {rs1 : RegNo} {g : ApInt → Except CmdError Effect} {P : ApInt → Prop}
    (h : exec i s = s.finish (source s rs1 >>= g))
    (hP : ∀ a, s.readX rs1 = some a → exec i s = s.finish (g a) → P a) : OneSource i s rs1 P := by
  refine ⟨fun hempty => fails_of_exec ?_, fun a ha => hP a ha ?_⟩
  · rw [h, source_error.2 ⟨hempty, rfl⟩]; rfl
  · rw [h, source_ok.2 ha]; rfl

end

/-! ### GETW, COPY, DROP -/

/-- A BitWidth fits the 64 bits of the response's data (00_scope.md R6). -/
theorem State.Inv.width_lt_two_pow_64 {s : State} (h : s.Inv) {r : RegNo} {a : ApInt} (ha : s.readX r = some a) :
    a.w < 2 ^ 64 := by
  obtain ⟨-, hw, -⟩ := h.regs r a ha
  obtain ⟨-, hc⟩ := h.cfg
  omega

/-- Settles O30: each command's outcome behind the check of its source, and DROP's, which checks nothing. -/
theorem getwCopyDrop : Obligations.GetwCopyDrop := by
  refine ⟨fun rd rs1 => ⟨spelt_of_wellFormed (i := .getw rs1) rfl rfl, spelt_of_wellFormed (i := .copy rd rs1) rfl rfl,
    spelt_of_wellFormed (i := .drop rd) rfl rfl⟩, fun s rd rs1 hinv => ⟨?_, ?_, writesReg_of_exec rfl⟩⟩
  · exact oneSource_of_exec rfl fun a ha h => writesNothing_of_exec h (hinv.width_lt_two_pow_64 ha)
  · exact oneSource_of_exec rfl fun a _ h => writesReg_of_exec h

end Sys2Proof.Machine

/-! SUPPORT. The number a word sequence stands for, canonicalisation, and the words of a value (41_storage_width.md R151,
46_host_exchange.md R350, R352). -/

namespace Sys2Proof.Machine

/-! ### The number of words of a BitWidth (00_scope.md R9) -/

/-- `nwords(w)` is the least number of Digits that hold `w` bits. -/
theorem nwords_bounds {D w : Nat} (hD : 0 < D) (hw : 1 ≤ w) :
    w ≤ nwords D w * D ∧ (nwords D w - 1) * D < w := by
  have hdiv : nwords D w * D + (w + D - 1) % D = w + D - 1 := Nat.div_add_mod' _ _
  have hlt := Nat.mod_lt (w + D - 1) hD
  rw [Nat.sub_one_mul]
  omega

theorem nwords_mono {D w w' : Nat} (h : w ≤ w') : nwords D w ≤ nwords D w' :=
  Nat.div_le_div_right (by omega)

/-- The bits of a BitWidth that lie in its top word. -/
def topBits (D w : Nat) : Nat := w - (nwords D w - 1) * D

theorem topBits_add {D w : Nat} (hD : 0 < D) (hw : 1 ≤ w) : topBits D w + (nwords D w - 1) * D = w :=
  Nat.sub_add_cancel (nwords_bounds hD hw).2.le

theorem topBits_bounds {D w : Nat} (hD : 0 < D) (hw : 1 ≤ w) : 0 < topBits D w ∧ topBits D w ≤ D := by
  obtain ⟨hle, hlt⟩ := nwords_bounds hD hw
  rw [Nat.sub_one_mul] at hlt
  rw [topBits, Nat.sub_one_mul]
  omega

theorem two_pow_eq_base_pow_mul {D w : Nat} (hD : 0 < D) (hw : 1 ≤ w) :
    2 ^ w = base D ^ (nwords D w - 1) * 2 ^ topBits D w := by
  rw [base, ← pow_mul, ← pow_add, Nat.mul_comm, Nat.add_comm, topBits_add hD hw]

/-- `topmask(w)` has exactly the bits of the top word set. -/
theorem topmask_eq {D w : Nat} (hD : 0 < D) (hw : 1 ≤ w) : topmask D w = 2 ^ topBits D w - 1 := by
  have hmod : w % D = topBits D w % D := by
    rw [← Nat.add_mul_mod_self_right (topBits D w) (nwords D w - 1) D, topBits_add hD hw]
  obtain ⟨hpos, hle⟩ := topBits_bounds hD hw
  rw [topmask, hmod]
  rcases hle.eq_or_lt with h | h
  · rw [h, Nat.mod_self, if_pos rfl]
  · rw [Nat.mod_eq_of_lt h, if_neg hpos.ne']

/-! ### The number a word sequence stands for (46_host_exchange.md R350) -/

section
variable {D : Nat}

theorem valueOf_append (ds es : List Digit) :
    valueOf D (ds ++ es) = valueOf D ds + base D ^ ds.length * valueOf D es := by
  induction ds with
  | nil => simp [valueOf]
  | cons d ds ih =>
    rw [List.cons_append, valueOf, valueOf, ih, List.length_cons, pow_succ']
    ring

theorem valueOf_singleton (d : Digit) : valueOf D [d] = d := by simp [valueOf]

theorem valueOf_lt {ds : List Digit} (h : ∀ d ∈ ds, d < base D) : valueOf D ds < base D ^ ds.length := by
  induction ds with
  | nil => simp [valueOf]
  | cons d ds ih =>
    obtain ⟨hd, hds⟩ := List.forall_mem_cons.1 h
    calc valueOf D (d :: ds) < base D + base D * valueOf D ds := Nat.add_lt_add_right hd _
      _ = base D * (valueOf D ds + 1) := by ring
      _ ≤ base D * base D ^ ds.length := Nat.mul_le_mul_left _ (ih hds)
      _ = base D ^ (d :: ds).length := (pow_succ' _ _).symm

theorem valueOf_replicate_zero (n : Nat) : valueOf D (List.replicate n 0) = 0 := by
  induction n with
  | zero => rfl
  | succ n ih => rw [List.replicate_succ, valueOf, ih]; rfl

/-- All-ones words stand for the greatest number that fits them. -/
theorem valueOf_replicate_ones (n : Nat) : valueOf D (List.replicate n (2 ^ D - 1)) + 1 = base D ^ n := by
  induction n with
  | zero => rfl
  | succ n ih =>
    have hpos : 0 < 2 ^ D := Nat.two_pow_pos D
    rw [List.replicate_succ, valueOf, pow_succ', ← ih, base, Nat.mul_add_one]
    omega

/-- The low words stand for the number modulo a power of BASE. -/
theorem valueOf_take {ds : List Digit} (h : ∀ d ∈ ds, d < base D) {n : Nat} (hn : n ≤ ds.length) :
    valueOf D (ds.take n) = valueOf D ds % base D ^ n := by
  have hlen : (ds.take n).length = n := List.length_take_of_le hn
  have hlt := valueOf_lt (D := D) fun d hd => h d (List.mem_of_mem_take (i := n) hd)
  rw [hlen] at hlt
  calc valueOf D (ds.take n)
      = (valueOf D (ds.take n) + base D ^ n * valueOf D (ds.drop n)) % base D ^ n := by
        rw [Nat.add_mul_mod_self_left, Nat.mod_eq_of_lt hlt]
    _ = valueOf D ds % base D ^ n := by
        conv_rhs => rw [← List.take_append_drop n ds, valueOf_append, hlen]

/-- The Digits of a number stand for it, as far as they reach. -/
theorem valueOf_map_range (n u : Nat) :
    valueOf D ((List.range n).map fun k => u / base D ^ k % base D) = u % base D ^ n := by
  induction n with
  | zero => simp [valueOf, Nat.mod_one]
  | succ n ih =>
    rw [List.range_succ, List.map_append, List.map_singleton, valueOf_append, ih, valueOf_singleton, List.length_map,
      List.length_range, pow_succ, Nat.mod_mul]

/-- Word sequences of the same length that stand for the same number are equal. -/
theorem eq_of_valueOf_eq {ds es : List Digit} (hlen : ds.length = es.length) (hds : ∀ d ∈ ds, d < base D)
    (hes : ∀ d ∈ es, d < base D) (h : valueOf D ds = valueOf D es) : ds = es := by
  induction ds generalizing es with
  | nil => exact (List.length_eq_zero_iff.1 hlen.symm).symm
  | cons d ds ih =>
    cases es with
    | nil => cases hlen
    | cons e es =>
      obtain ⟨hd, hds⟩ := List.forall_mem_cons.1 hds
      obtain ⟨he, hes⟩ := List.forall_mem_cons.1 hes
      have hmod := congrArg (· % base D) h
      have hdiv := congrArg (· / base D) h
      simp only [valueOf, Nat.add_mul_mod_self_left, Nat.mod_eq_of_lt hd, Nat.mod_eq_of_lt he] at hmod
      simp only [valueOf, Nat.add_mul_div_left _ _ (base_pos D), Nat.div_eq_of_lt hd, Nat.div_eq_of_lt he,
        Nat.zero_add] at hdiv
      rw [hmod, ih (Nat.succ.inj hlen) hds hes hdiv]

end

/-! ### Canonicalisation at word level (41_storage_width.md R151) -/

theorem two_pow_dvd_base_pow {D w : Nat} (hD : 0 < D) (hw : 1 ≤ w) : 2 ^ w ∣ base D ^ nwords D w := by
  rw [base, ← pow_mul, Nat.mul_comm]
  exact pow_dvd_pow 2 (nwords_bounds hD hw).1

theorem canon_eq_of_modEq {w v v' : Nat} (h : v ≡ v' [MOD 2 ^ w]) : canon w v = canon w v' :=
  congrArg (ApInt.mk w) h

theorem canon_self {a : ApInt} (hu : a.u < 2 ^ a.w) : canon a.w a.u = a :=
  congrArg (ApInt.mk a.w) (Nat.mod_eq_of_lt hu)

theorem maskTop_concat (D w : Nat) (d : Digit) :
    ∀ ds : List Digit, maskTop D w (ds ++ [d]) = ds ++ [d &&& topmask D w]
  | [] => rfl
  | [_] => rfl
  | e :: f :: ds => congrArg (e :: ·) (maskTop_concat D w d (f :: ds))

theorem fillTop_concat (D w : Nat) (d : Digit) :
    ∀ ds : List Digit, fillTop D w (ds ++ [d]) = ds ++ [d ||| (2 ^ D - 1 - topmask D w)]
  | [] => rfl
  | [_] => rfl
  | e :: f :: ds => congrArg (e :: ·) (fillTop_concat D w d (f :: ds))

theorem length_maskTop (D w : Nat) (ds : List Digit) : (maskTop D w ds).length = ds.length := by
  rcases List.eq_nil_or_concat' ds with rfl | ⟨es, d, rfl⟩
  · rfl
  · simp [maskTop_concat]

theorem maskTop_lt {D w : Nat} {ds : List Digit} (hds : ∀ d ∈ ds, d < base D) : ∀ d ∈ maskTop D w ds, d < base D := by
  rcases List.eq_nil_or_concat' ds with rfl | ⟨es, d, rfl⟩
  · exact hds
  · obtain ⟨hes, hd⟩ := List.forall_mem_append.1 hds
    rw [maskTop_concat]
    refine List.forall_mem_append.2 ⟨hes, List.forall_mem_singleton.2 ?_⟩
    exact Nat.and_le_left.trans_lt (hd d List.mem_cons_self)

section
variable {D w : Nat} (hD : 0 < D) (hw : 1 ≤ w)
include hD hw

/-- A sequence of `nwords(w)` words has a top word, and `nwords(w) - 1` words below it. -/
theorem exists_concat_of_length_eq_nwords {ds : List Digit} (hlen : ds.length = nwords D w) :
    ∃ es d, ds = es ++ [d] ∧ es.length = nwords D w - 1 := by
  rcases List.eq_nil_or_concat' ds with rfl | ⟨es, d, rfl⟩
  · exact absurd hlen (nwords_pos hD hw).ne
  · rw [List.length_append, List.length_singleton] at hlen
    exact ⟨es, d, rfl, by omega⟩

theorem valueOf_maskTop {ds : List Digit} (hlen : ds.length = nwords D w) (hds : ∀ d ∈ ds, d < base D) :
    valueOf D (maskTop D w ds) = valueOf D ds % 2 ^ w := by
  obtain ⟨es, d, rfl, hes⟩ := exists_concat_of_length_eq_nwords hD hw hlen
  have hlt := valueOf_lt (List.forall_mem_append.1 hds).1
  rw [maskTop_concat, topmask_eq hD hw, Nat.and_two_pow_sub_one_eq_mod, valueOf_append, valueOf_append,
    valueOf_singleton, valueOf_singleton, two_pow_eq_base_pow_mul hD hw, ← hes, Nat.mod_mul,
    Nat.add_mul_mod_self_left, Nat.mod_eq_of_lt hlt, Nat.add_mul_div_left _ _ (Nat.pow_pos (base_pos D)),
    Nat.div_eq_of_lt hlt, Nat.zero_add]

/-! ### The words of a value (46_host_exchange.md R352) -/

/-- `nwords(w)` Digits that stand for a value of BitWidth `w` are its words. -/
theorem words_eq_of_valueOf {ds : List Digit} (hlen : ds.length = nwords D w) (hds : ∀ d ∈ ds, d < base D)
    (hv : valueOf D ds < 2 ^ w) : (canon w (valueOf D ds)).words D = ds := by
  refine eq_of_valueOf_eq ((words_length D _).trans hlen.symm) (words_lt D _) hds ?_
  rw [ApInt.words, valueOf_map_range, canon, Nat.mod_eq_of_lt hv, Nat.mod_eq_of_lt]
  exact hv.trans_le (Nat.le_of_dvd (Nat.pow_pos (base_pos D)) (two_pow_dvd_base_pow hD hw))

/-- The words of a canonicalised number are its masked words. -/
theorem words_canon_valueOf {ds : List Digit} (hlen : ds.length = nwords D w) (hds : ∀ d ∈ ds, d < base D) :
    (canon w (valueOf D ds)).words D = maskTop D w ds := by
  have hv := valueOf_maskTop hD hw hlen hds
  have hlt : valueOf D (maskTop D w ds) < 2 ^ w := hv ▸ Nat.mod_lt _ (Nat.two_pow_pos w)
  rw [← words_eq_of_valueOf hD hw ((length_maskTop D w ds).trans hlen) (maskTop_lt hds) hlt, hv]
  exact congrArg (ApInt.words D) (canon_eq_of_modEq (Nat.mod_modEq _ _).symm)

end

theorem valueOf_words {D : Nat} {a : ApInt} (hD : 0 < D) (hw : 1 ≤ a.w) (hu : a.u < 2 ^ a.w) :
    valueOf D (a.words D) = a.u := by
  rw [ApInt.words, valueOf_map_range, Nat.mod_eq_of_lt]
  exact hu.trans_le (Nat.le_of_dvd (Nat.pow_pos (base_pos D)) (two_pow_dvd_base_pow hD hw))

/-- Settles O33: the top word loses the bits at and above `w`, which is reduction modulo `2^w`. -/
theorem canonicalisationMasksTheTopWord : Obligations.CanonicalisationMasksTheTopWord := by
  refine ⟨fun D w ds d hw hlen hds => ⟨maskTop_concat D.bits w d ds, ?_⟩,
    fun D w hw => nwords_bounds (DigitBits.bits_pos D) hw, by decide⟩
  exact valueOf_maskTop (DigitBits.bits_pos D) hw hlen hds

end Sys2Proof.Machine

/-! SUPPORT. Truncation, zero extension and sign extension, at value level and at word level (41_storage_width.md R163
to R166). -/

namespace Sys2Proof.Machine

/-! ### The sign (00_scope.md R11) -/

/-- The sign bit is set exactly if the pattern is in the upper half. -/
theorem signBit_iff {a : ApInt} (hw : 1 ≤ a.w) (hu : a.u < 2 ^ a.w) : a.signBit = true ↔ 2 ^ (a.w - 1) ≤ a.u := by
  refine ⟨Nat.ge_two_pow_of_testBit, fun h => ?_⟩
  refine Nat.testBit_of_two_pow_le_and_two_pow_add_one_gt h ?_
  rwa [Nat.sub_add_cancel hw]

theorem sextTo_of_signBit {a : ApInt} {N : Nat} (h : a.signBit = true) : sextTo N a.u a.w = a.u + 2 ^ N - 2 ^ a.w :=
  if_pos h

theorem sextTo_of_signBit_eq_false {a : ApInt} {N : Nat} (h : a.signBit = false) : sextTo N a.u a.w = a.u :=
  if_neg (ne_true_of_eq_false h)

theorem sextTo_self (w u : Nat) : sextTo w u w = u := by
  unfold sextTo
  split
  · exact Nat.add_sub_cancel u (2 ^ w)
  · rfl

section
variable {a : ApInt} {N : Nat} (hu : a.u < 2 ^ a.w) (hN : a.w ≤ N)
include hu hN

/-- Sign extension stays within the new BitWidth. -/
theorem sextTo_lt : sextTo N a.u a.w < 2 ^ N := by
  have hpow : 2 ^ a.w ≤ 2 ^ N := Nat.pow_le_pow_right Nat.two_pos hN
  cases hs : a.signBit with
  | false => rw [sextTo_of_signBit_eq_false hs]; omega
  | true => rw [sextTo_of_signBit hs]; omega

/-- The sign-extended pattern is the signed reading modulo `2^N` (41_storage_width.md R165). -/
theorem natCast_sextTo : (sextTo N a.u a.w : Int) = a.sint % 2 ^ N := by
  have hpow : 2 ^ a.w ≤ 2 ^ N := Nat.pow_le_pow_right Nat.two_pos hN
  have hlt : (sextTo N a.u a.w : Int) < 2 ^ N := by exact_mod_cast sextTo_lt hu hN
  rw [← Int.emod_eq_of_lt (Int.natCast_nonneg _) hlt]
  cases hs : a.signBit with
  | false => rw [sextTo_of_signBit_eq_false hs, ApInt.sint, if_neg (ne_true_of_eq_false hs)]
  | true =>
    rw [sextTo_of_signBit hs, ApInt.sint, if_pos hs, Nat.cast_sub (by omega)]
    push_cast
    rw [add_sub_right_comm, Int.add_emod_right]

theorem signBit_sextTo (hw : 1 ≤ a.w) : (ApInt.mk N (sextTo N a.u a.w)).signBit = a.signBit := by
  have hhalf : 2 ^ (a.w - 1) ≤ 2 ^ (N - 1) := Nat.pow_le_pow_right Nat.two_pos (Nat.sub_le_sub_right hN 1)
  have ha2 : 2 * 2 ^ (a.w - 1) = 2 ^ a.w := mul_pow_sub_one (by omega) 2
  have hN2 : 2 * 2 ^ (N - 1) = 2 ^ N := mul_pow_sub_one (by omega) 2
  have ha := signBit_iff hw hu
  have hsign : (ApInt.mk N (sextTo N a.u a.w)).signBit = true ↔ 2 ^ (N - 1) ≤ sextTo N a.u a.w :=
    signBit_iff (hw.trans hN) (sextTo_lt hu hN)
  rw [Bool.eq_iff_iff, hsign, ha]
  cases hs : a.signBit <;> simp only [hs, Bool.false_eq_true, false_iff, true_iff] at ha
  · rw [sextTo_of_signBit_eq_false hs]; omega
  · rw [sextTo_of_signBit hs]; omega

/-- Sign extension preserves the signed reading (41_storage_width.md R166). -/
theorem sint_sextTo (hw : 1 ≤ a.w) : (ApInt.mk N (sextTo N a.u a.w)).sint = a.sint := by
  have hpow : 2 ^ a.w ≤ 2 ^ N := Nat.pow_le_pow_right Nat.two_pos hN
  rw [ApInt.sint, ApInt.sint, signBit_sextTo hu hN hw]
  cases hs : a.signBit with
  | false => rw [sextTo_of_signBit_eq_false hs]; rfl
  | true =>
    rw [if_pos rfl, if_pos rfl, sextTo_of_signBit hs, Nat.cast_sub (by omega)]
    push_cast
    ring

end

/-! ### The resizes at word level (41_storage_width.md R163 to R165) -/

/-- Filling the bits `m` to `D - 1` of a number below `2^m` adds `2^D - 2^m`. -/
theorem or_high_mask_add {x m D : Nat} (hx : x < 2 ^ m) (hm : m ≤ D) :
    (x ||| (2 ^ D - 1 - (2 ^ m - 1))) + 2 ^ m = x + 2 ^ D := by
  have hpos := Nat.two_pow_pos m
  have hle : 2 ^ m ≤ 2 ^ D := Nat.pow_le_pow_right Nat.two_pos hm
  have hmask : 2 ^ D - 1 - (2 ^ m - 1) = 2 ^ m * (2 ^ (D - m) - 1) := by
    rw [Nat.mul_sub, ← pow_add, Nat.add_sub_cancel' hm]
    omega
  have hor := Nat.two_pow_add_eq_or_of_lt hx (2 ^ (D - m) - 1)
  rw [← hmask, Nat.or_comm] at hor
  omega

theorem length_fillTop (D w : Nat) (ds : List Digit) : (fillTop D w ds).length = ds.length := by
  rcases List.eq_nil_or_concat' ds with rfl | ⟨es, d, rfl⟩
  · rfl
  · simp [fillTop_concat]

theorem fillTop_lt {D w : Nat} {ds : List Digit} (hds : ∀ d ∈ ds, d < base D) : ∀ d ∈ fillTop D w ds, d < base D := by
  rcases List.eq_nil_or_concat' ds with rfl | ⟨es, d, rfl⟩
  · exact hds
  · obtain ⟨hes, hd⟩ := List.forall_mem_append.1 hds
    rw [fillTop_concat]
    have hpos := Nat.two_pow_pos D
    refine List.forall_mem_append.2 ⟨hes, List.forall_mem_singleton.2 ?_⟩
    exact Nat.or_lt_two_pow (hd d List.mem_cons_self) (by omega)

section
variable {D w : Nat} (hD : 0 < D) (hw : 1 ≤ w)
include hD hw

/-- Filling the top word of a value adds `BASE^nwords(w) - 2^w`. -/
theorem valueOf_fillTop {ds : List Digit} (hlen : ds.length = nwords D w) (hv : valueOf D ds < 2 ^ w) :
    valueOf D (fillTop D w ds) + 2 ^ w = valueOf D ds + base D ^ nwords D w := by
  obtain ⟨es, d, rfl, hes⟩ := exists_concat_of_length_eq_nwords hD hw hlen
  rw [valueOf_append, valueOf_singleton, hes] at hv
  have hpow := two_pow_eq_base_pow_mul hD hw
  have hd : d < 2 ^ topBits D w := Nat.lt_of_mul_lt_mul_left (a := base D ^ (nwords D w - 1)) (by omega)
  have hfill := or_high_mask_add hd (topBits_bounds hD hw).2
  have hn : base D ^ nwords D w = base D ^ (nwords D w - 1) * 2 ^ D :=
    (pow_sub_one_mul (nwords_pos hD hw).ne' _).symm
  rw [fillTop_concat, topmask_eq hD hw, valueOf_append, valueOf_append, valueOf_singleton, valueOf_singleton, hes, hn,
    hpow, Nat.add_assoc, ← Nat.mul_add, hfill, Nat.mul_add, Nat.add_assoc]

/-- All-ones words above the filled top word: the sign-extended number, modulo a power of BASE. -/
theorem valueOf_fillTop_append_ones {ds : List Digit} (hlen : ds.length = nwords D w) (hv : valueOf D ds < 2 ^ w)
    (k : Nat) : valueOf D (fillTop D w ds ++ List.replicate k (2 ^ D - 1)) + 2 ^ w =
      valueOf D ds + base D ^ (nwords D w + k) := by
  have hfill := valueOf_fillTop hD hw hlen hv
  rw [valueOf_append, length_fillTop, hlen, pow_add, ← valueOf_replicate_ones k, Nat.mul_add_one]
  omega

end

section
variable {D w : Nat} {a : ApInt} (hD : 0 < D)
include hD

/-- Keeping the low words and masking them is truncation (41_storage_width.md R163). -/
theorem words_truncate (hw : 1 ≤ w) (h : w ≤ a.w) (hu : a.u < 2 ^ a.w) :
    (canon w a.u).words D = truncWords D w (a.words D) := by
  have hle : nwords D w ≤ (a.words D).length := (words_length D a).symm ▸ nwords_mono h
  have hv : valueOf D ((a.words D).take (nwords D w)) = a.u % base D ^ nwords D w := by
    rw [valueOf_take (words_lt D a) hle, valueOf_words hD (hw.trans h) hu]
  rw [truncWords, ← words_canon_valueOf hD hw (List.length_take_of_le hle)
    fun d hd => words_lt D a d (List.mem_of_mem_take hd), hv]
  exact congrArg (ApInt.words D)
    (canon_eq_of_modEq ((Nat.mod_modEq _ _).symm.of_dvd (two_pow_dvd_base_pow hD hw)))

/-- Appending zero words is zero extension (41_storage_width.md R164). -/
theorem words_zeroExtend (hw : 1 ≤ a.w) (h : a.w ≤ w) (hu : a.u < 2 ^ a.w) :
    (canon w a.u).words D = zextWords D w (a.words D) := by
  have hv : valueOf D (zextWords D w (a.words D)) = a.u := by
    rw [zextWords, valueOf_append, valueOf_replicate_zero, Nat.mul_zero, Nat.add_zero, valueOf_words hD hw hu]
  have hlen : (zextWords D w (a.words D)).length = nwords D w := by
    rw [zextWords, List.length_append, List.length_replicate, words_length, Nat.add_sub_cancel' (nwords_mono h)]
  have hlt : ∀ d ∈ zextWords D w (a.words D), d < base D :=
    List.forall_mem_append.2 ⟨words_lt D a, fun d hd => List.eq_of_mem_replicate hd ▸ base_pos D⟩
  rw [← hv, words_eq_of_valueOf hD (hw.trans h) hlen hlt]
  exact hv.symm ▸ hu.trans_le (Nat.pow_le_pow_right Nat.two_pos h)

/-- Filling the top word, appending all-ones words and masking, or appending zero words for sign bit 0, is sign
extension (41_storage_width.md R165). -/
theorem words_signExtend (hw : 1 ≤ a.w) (h : a.w ≤ w) (hu : a.u < 2 ^ a.w) :
    (canon w (sextTo w a.u a.w)).words D = sextWords D a.w w a.signBit (a.words D) := by
  cases hs : a.signBit with
  | false => rw [sextTo_of_signBit_eq_false hs]; exact words_zeroExtend hD hw h hu
  | true =>
    have hpow : 2 ^ a.w ≤ 2 ^ w := Nat.pow_le_pow_right Nat.two_pos h
    have hvalue := valueOf_words hD hw hu
    have hn : nwords D a.w + (nwords D w - (a.words D).length) = nwords D w := by
      rw [words_length, Nat.add_sub_cancel' (nwords_mono h)]
    have hsum := valueOf_fillTop_append_ones hD hw (words_length D a) (hvalue.symm ▸ hu)
      (nwords D w - (a.words D).length)
    rw [hn, hvalue] at hsum
    have hext : sextTo w a.u a.w + 2 ^ a.w = a.u + 2 ^ w := by rw [sextTo_of_signBit hs]; omega
    rw [sextWords, if_pos rfl, ← words_canon_valueOf hD (hw.trans h)]
    · refine congrArg (ApInt.words D) (canon_eq_of_modEq (Nat.ModEq.add_right_cancel' (2 ^ a.w) ?_))
      rw [hext, hsum]
      exact Nat.ModEq.add_left _ ((Nat.modEq_zero_iff_dvd.2 dvd_rfl).trans
        (Nat.modEq_zero_iff_dvd.2 (two_pow_dvd_base_pow hD (hw.trans h))).symm)
    · rw [List.length_append, length_fillTop, List.length_replicate, words_length]
      exact words_length D a ▸ hn
    · refine List.forall_mem_append.2 ⟨fillTop_lt (words_lt D a), fun d hd => ?_⟩
      rw [List.eq_of_mem_replicate hd]
      exact Nat.sub_one_lt (base_pos D).ne'

end

/-! ### TRUNC, ZEXT, SEXT -/

section
variable {s : State} {rs1 : RegNo} {imm : Imm} {a : ApInt} (ha : s.readX rs1 = some a)
include ha

theorem exec_trunc (rd : RegNo) (hl : 1 ≤ imm.toNat) (hu : imm.toNat ≤ s.cfg.maxWidth) (hw : imm.toNat ≤ a.w) :
    exec (.trunc rd rs1 imm) s = .next (s.commit (writes rd imm.toNat a.u)) := by
  simp only [exec, execTrunc, widthField_ok.2 ⟨rfl, hl, hu⟩, source_ok.2 ha, bind, Except.bind,
    if_neg (Nat.not_lt.2 hw), finish_ok]

theorem exec_zext (rd : RegNo) (hl : 1 ≤ imm.toNat) (hu : imm.toNat ≤ s.cfg.maxWidth) (hw : a.w ≤ imm.toNat) :
    exec (.zext rd rs1 imm) s = .next (s.commit (writes rd imm.toNat a.u)) := by
  simp only [exec, execZext, widthField_ok.2 ⟨rfl, hl, hu⟩, source_ok.2 ha, bind, Except.bind,
    if_neg (Nat.not_lt.2 hw), finish_ok]

theorem exec_sext (rd : RegNo) (hl : 1 ≤ imm.toNat) (hu : imm.toNat ≤ s.cfg.maxWidth) (hw : a.w ≤ imm.toNat) :
    exec (.sext rd rs1 imm) s = .next (s.commit (writes rd imm.toNat (sextTo imm.toNat a.u a.w))) := by
  simp only [exec, execSext, widthField_ok.2 ⟨rfl, hl, hu⟩, source_ok.2 ha, bind, Except.bind,
    if_neg (Nat.not_lt.2 hw), finish_ok]

end

/-- Settles O31: each command's checks, then the canonicalised pattern, whose words are those of the word level. -/
theorem resizeCommands : Obligations.ResizeCommands := by
  refine ⟨fun rd rs1 imm => ⟨spelt_of_wellFormed (i := .trunc rd rs1 imm) rfl rfl,
    spelt_of_wellFormed (i := .zext rd rs1 imm) rfl rfl, spelt_of_wellFormed (i := .sext rd rs1 imm) rfl rfl⟩,
    fun s rd rs1 imm hinv => ⟨?_, ?_, ?_⟩⟩
  all_goals
    refine widthChecked_of_exec rfl fun hl _ h => oneSource_of_exec h fun a ha h => ?_
    obtain ⟨hw1, -, hau⟩ := hinv.regs rs1 a ha
    have hD := DigitBits.bits_pos s.cfg.digitBits
    refine ⟨fun hw => fails_of_exec (h.trans (congrArg s.finish (if_pos hw))), fun hw => ?_⟩
    replace h := h.trans (congrArg s.finish (if_neg (Nat.not_lt.2 hw)))
  · exact ⟨canon imm.toNat a.u, rfl, rfl, fun heq => heq ▸ canon_self hau, words_truncate hD hl hw hau,
      writesReg_of_exec h⟩
  · have hfit : a.u < 2 ^ imm.toNat := hau.trans_le (Nat.pow_le_pow_right Nat.two_pos hw)
    exact ⟨canon imm.toNat a.u, rfl, Nat.mod_eq_of_lt hfit, fun heq => heq ▸ canon_self hau,
      words_zeroExtend hD hw1 hw hau, writesReg_of_exec h⟩
  · have hext : (canon imm.toNat (sextTo imm.toNat a.u a.w)).u = sextTo imm.toNat a.u a.w :=
      Nat.mod_eq_of_lt (sextTo_lt hau hw)
    refine ⟨canon imm.toNat (sextTo imm.toNat a.u a.w), rfl, fun heq => ?_, hext,
      (congrArg Nat.cast hext).trans (natCast_sextTo hau hw), words_signExtend hD hw1 hw hau, writesReg_of_exec h⟩
    rw [heq, sextTo_self, canon_self hau]

/-- Settles O32: TRUNC's result fits the old BitWidth again; the sign-extended pattern keeps the signed reading, and is
the pattern itself for sign bit 0. -/
theorem resizeProperties : Obligations.ResizeProperties := by
  constructor
  · intro s rt rd rs1 a imm hinv ha hl hw
    obtain ⟨hw1, hwm, hau⟩ := hinv.regs rs1 a ha
    let t := s.commit (writes rt imm.toNat a.u)
    have ht : t.readX rt = some (canon imm.toNat a.u) := by simp [t, readX_commit, writes]
    have hwidth : (BitVec.ofNat 32 a.w).toNat = a.w := hinv.toNat_ofNat_width ha
    have hfit : canon a.w (a.u % 2 ^ imm.toNat) = ⟨a.w, a.u % 2 ^ imm.toNat⟩ :=
      canon_self (a := ⟨a.w, _⟩) ((Nat.mod_le _ _).trans_lt hau)
    refine ⟨t, exec_trunc ha rt hl (hw.trans hwm) hw, writesReg_of_exec ?_⟩
    rw [exec_zext ht rd (hwidth.symm ▸ hw1) (hwidth.symm ▸ hwm) (hwidth.symm ▸ hw), writes, hwidth, ← hfit]
    rfl
  · intro s rd rs1 a imm hinv ha hw hu
    obtain ⟨hw1, -, hau⟩ := hinv.regs rs1 a ha
    refine ⟨_, _, exec_sext ha rd (hw1.trans hw) hu hw, (commit_reg s rd _ false 0#64).1, ?_, fun hs => ?_⟩
    · rw [canon, Nat.mod_eq_of_lt (sextTo_lt hau hw)]
      exact sint_sextTo hau hw hw1
    · rw [exec_zext ha rd (hw1.trans hw) hu hw, sextTo_of_signBit_eq_false hs]

end Sys2Proof.Machine

/-! SUPPORT. The two-source and division commands check by check, and the arithmetic commands at value level
(42_arithmetic.md R200 to R211). -/

namespace Sys2Proof.Machine

/-! ### Two sources, check by check (30_encoding.md R100) -/

section
variable {i : Instr} {s : State} {rs1 rs2 : RegNo} {P : ApInt → ApInt → Prop}
  {g : ApInt × ApInt → Except CmdError Effect}

/-- Stages 3 and 4: behind two VALID sources of one BitWidth the command is what follows the check. -/
theorem twoSource_of_exec (h : exec i s = s.finish (sources s rs1 rs2 >>= g))
    (hP : ∀ a b, s.readX rs1 = some a → s.readX rs2 = some b → a.w = b.w → exec i s = s.finish (g (a, b)) → P a b) :
    TwoSource i s rs1 rs2 P := by
  refine ⟨fun hempty => fails_of_exec ?_, fun a b ha hb =>
    ⟨fun hab => fails_of_exec ?_, fun hab => hP a b ha hb hab ?_⟩⟩
  · rw [h, sources_error.2 (.inl ⟨hempty, rfl⟩)]; rfl
  · rw [h, sources_error.2 (.inr ⟨a, b, ha, hb, hab, rfl⟩)]; rfl
  · rw [h, sources_ok.2 ⟨ha, hb, hab⟩]; rfl

/-- The divider: behind the zero test, too, the command is what follows the check (42_arithmetic.md R208). -/
theorem division_of_exec (h : exec i s = s.finish (divSources s rs1 rs2 >>= g))
    (hP : ∀ a b, s.readX rs1 = some a → s.readX rs2 = some b → a.w = b.w → b.u ≠ 0 →
      exec i s = s.finish (g (a, b)) → P a b) :
    Division i s rs1 rs2 P := by
  have hsources {e : CmdError} (he : sources s rs1 rs2 = .error e) : Fails i s e := by
    refine fails_of_exec ?_
    rw [h, divSources_error.2 (.inl he)]; rfl
  refine ⟨fun hempty => hsources (sources_error.2 (.inl ⟨hempty, rfl⟩)), fun a b ha hb =>
    ⟨fun hab => hsources (sources_error.2 (.inr ⟨a, b, ha, hb, hab, rfl⟩)), fun hab => ⟨fun h0 => fails_of_exec ?_,
      fun h0 => hP a b ha hb hab h0 ?_⟩⟩⟩
  · rw [h, divSources_error.2 (.inr ⟨a, b, sources_ok.2 ⟨ha, hb, hab⟩, h0, rfl⟩)]; rfl
  · rw [h, divSources_ok.2 ⟨ha, hb, hab, h0⟩]; rfl

end

/-- A value below `2^w` is written as it is (41_storage_width.md R151). -/
theorem canon_of_lt {w v : Nat} (h : v < 2 ^ w) : canon w v = ⟨w, v⟩ := congrArg (ApInt.mk w) (Nat.mod_eq_of_lt h)

/-! ### ADD, ADDCO, MUL -/

/-- Settles O40: behind the checks of the sources each command writes its value canonicalised. -/
theorem addAddcoMul : Obligations.AddAddcoMul := by
  refine ⟨fun rd rs1 rs2 => ⟨spelt_of_wellFormed (i := .add rd rs1 rs2) rfl rfl,
    spelt_of_wellFormed (i := .addco rd rs1 rs2) rfl rfl, spelt_of_wellFormed (i := .mul rd rs1 rs2) rfl rfl⟩,
    fun s rd rs1 rs2 => ⟨?_, ?_, ?_⟩⟩
  all_goals exact twoSource_of_exec rfl fun a b _ _ _ h => writesReg_of_exec h

/-! ### SUB, SUBBO -/

theorem subPattern_lt (w a b : Nat) : subPattern w a b < 2 ^ w := Nat.mod_lt _ (Nat.two_pow_pos w)

/-- SUB's pattern is the mathematical difference modulo `2^w` (42_arithmetic.md R203). -/
theorem natCast_subPattern (w a b : Nat) : (subPattern w a b : Int) = ((a : Int) - b) % 2 ^ w := by
  have hle : b % 2 ^ w ≤ 2 ^ w := (Nat.mod_lt b (Nat.two_pow_pos w)).le
  have hrep : ((a + (2 ^ w - b % 2 ^ w) : Nat) : Int) = (a : Int) - ((b % 2 ^ w : Nat) : Int) + 2 ^ w := by
    push_cast [Nat.cast_sub hle]
    ring
  rw [subPattern, Int.natCast_emod, hrep]
  push_cast
  rw [Int.add_emod_right, Int.sub_emod_emod]

/-- Subtracting what was added gives the value back (42_arithmetic.md R203). -/
theorem subPattern_add_mod {w a b : Nat} (ha : a < 2 ^ w) : subPattern w ((a + b) % 2 ^ w) b = a := by
  have hcast : (subPattern w ((a + b) % 2 ^ w) b : Int) = a := by
    rw [natCast_subPattern]
    push_cast
    rw [Int.emod_sub_emod, add_sub_cancel_right]
    exact Int.emod_eq_of_lt (Int.natCast_nonneg a) (by exact_mod_cast ha)
  exact_mod_cast hcast

theorem exec_add {s : State} {rs1 rs2 : RegNo} {a b : ApInt} (ha : s.readX rs1 = some a) (hb : s.readX rs2 = some b)
    (hab : a.w = b.w) (rd : RegNo) : exec (.add rd rs1 rs2) s = .next (s.commit (writes rd a.w (a.u + b.u))) := by
  simp only [exec, execAdd, sources_ok.2 ⟨ha, hb, hab⟩, bind, Except.bind, pure, Except.pure, finish_ok]

theorem exec_sub {s : State} {rs1 rs2 : RegNo} {a b : ApInt} (ha : s.readX rs1 = some a) (hb : s.readX rs2 = some b)
    (hab : a.w = b.w) (rd : RegNo) :
    exec (.sub rd rs1 rs2) s = .next (s.commit (writes rd a.w (subPattern a.w a.u b.u))) := by
  simp only [exec, execSub, sources_ok.2 ⟨ha, hb, hab⟩, bind, Except.bind, pure, Except.pure, finish_ok]

/-- Settles O41: the pattern written is the difference modulo `2^w`; at the state ADD leaves it is the first summand. -/
theorem subSubbo : Obligations.SubSubbo := by
  refine ⟨fun rd rs1 rs2 => ⟨spelt_of_wellFormed (i := .sub rd rs1 rs2) rfl rfl,
    spelt_of_wellFormed (i := .subbo rd rs1 rs2) rfl rfl⟩, fun s rd rs1 rs2 _ => ⟨?_, ?_⟩,
    fun s rt rd rs1 rs2 a b hinv hne ha hb hab => ?_⟩
  iterate 2
    refine twoSource_of_exec rfl fun a b _ _ _ h => ⟨⟨a.w, subPattern a.w a.u b.u⟩, rfl, natCast_subPattern _ _ _, ?_⟩
    exact canon_of_lt (subPattern_lt a.w a.u b.u) ▸ writesReg_of_exec h
  · obtain ⟨-, -, hau⟩ := hinv.regs rs1 a ha
    let t := s.commit (writes rt a.w (a.u + b.u))
    have ht : t.readX rt = some (canon a.w (a.u + b.u)) := by simp [t, readX_commit, writes]
    have htb : t.readX rs2 = some b := by simp [t, readX_commit, writes, hne.symm, hb]
    have hsub : canon a.w (subPattern a.w ((a.u + b.u) % 2 ^ a.w) b.u) = a := by
      rw [subPattern_add_mod hau, canon_self hau]
    refine ⟨t, exec_add ha hb hab rt, writesReg_of_exec ((exec_sub ht htb hab rd).trans ?_)⟩
    exact congrArg (fun v => t.finish (.ok { reg := some (rd, some v) })) hsub

/-! ### NEG, UMAG -/

theorem negPattern_lt (w u : Nat) : negPattern w u < 2 ^ w := Nat.mod_lt _ (Nat.two_pow_pos w)

/-- Two's complement is negation modulo `2^w` (42_arithmetic.md R205). -/
theorem natCast_negPattern {w u : Nat} (hu : u ≤ 2 ^ w) : (negPattern w u : Int) = -(u : Int) % 2 ^ w := by
  rw [negPattern, Int.natCast_emod, Nat.cast_sub hu]
  push_cast
  rw [sub_eq_neg_add, Int.add_emod_right]

/-- A value's pattern and its signed reading agree modulo `2^w` (00_scope.md R11). -/
theorem sint_modEq (a : ApInt) : a.sint ≡ a.u [ZMOD 2 ^ a.w] := by
  unfold ApInt.sint
  split
  · exact Int.sub_emod_right _ _
  · rfl

section
variable {a : ApInt} (hw : 1 ≤ a.w) (hu : a.u < 2 ^ a.w)
include hw hu

/-- The pattern of a negative value is not 0, so its negation needs no reduction. -/
theorem magnitude_eq : a.magnitude = if a.signBit then 2 ^ a.w - a.u else a.u := by
  unfold ApInt.magnitude
  split
  · next hs =>
    have hhalf := (signBit_iff hw hu).1 hs
    have hpos := Nat.two_pow_pos (a.w - 1)
    exact Nat.mod_eq_of_lt (by omega)
  · rfl

/-- A value is its magnitude with its sign (42_arithmetic.md R206). -/
theorem sint_eq_magnitude : a.sint = if a.signBit then -(a.magnitude : Int) else a.magnitude := by
  rw [magnitude_eq hw hu, ApInt.sint]
  split
  · rw [Nat.cast_sub hu.le]
    push_cast
    ring
  · rfl

theorem magnitude_eq_natAbs : a.magnitude = a.sint.natAbs := by
  rw [sint_eq_magnitude hw hu]
  split <;> simp

theorem natAbs_sint_pos (h0 : a.u ≠ 0) : 0 < a.sint.natAbs := by
  rw [← magnitude_eq_natAbs hw hu, magnitude_eq hw hu]
  split <;> omega

/-- No magnitude is above that of the most negative value. -/
theorem magnitude_le : a.magnitude ≤ 2 ^ (a.w - 1) := by
  have hpow : 2 * 2 ^ (a.w - 1) = 2 ^ a.w := mul_pow_sub_one (by omega) 2
  have hsign := signBit_iff hw hu
  rw [magnitude_eq hw hu]
  split
  · next hs => have := hsign.1 hs; omega
  · next hs => exact (not_le.1 (mt hsign.2 hs)).le

theorem magnitude_lt : a.magnitude < 2 ^ a.w :=
  (magnitude_le hw hu).trans_lt (Nat.pow_lt_pow_right Nat.one_lt_two (by omega))

/-- The signed reading is in the range of `w` bits (00_scope.md R11). -/
theorem sint_bounds : -(2 ^ (a.w - 1) : Int) ≤ a.sint ∧ a.sint < 2 ^ (a.w - 1) := by
  have hpow : 2 * 2 ^ (a.w - 1) = 2 ^ a.w := mul_pow_sub_one (by omega) 2
  have hpow' : (2 : Int) * 2 ^ (a.w - 1) = 2 ^ a.w := mod_cast hpow
  have hu' : (a.u : Int) < 2 ^ a.w := mod_cast hu
  have hsign := signBit_iff hw hu
  have hsign' : a.signBit = true ↔ (2 ^ (a.w - 1) : Int) ≤ a.u := hsign.trans (by norm_cast)
  unfold ApInt.sint
  split
  · next hs => have := hsign'.1 hs; omega
  · next hs => have := mt hsign'.2 hs; omega

end

/-- Settles O42: negation is the two's complement, and the magnitude is `|sint|`, both patterns below `2^w`. -/
theorem negUmag : Obligations.NegUmag := by
  refine ⟨fun rd rs1 =>
    ⟨spelt_of_wellFormed (i := .neg rd rs1) rfl rfl, spelt_of_wellFormed (i := .umag rd rs1) rfl rfl⟩,
    fun s rd rs1 hinv => ⟨?_, ?_⟩⟩
  · refine oneSource_of_exec rfl fun a ha h => ?_
    obtain ⟨hw, -, hu⟩ := hinv.regs rs1 a ha
    refine ⟨⟨a.w, negPattern a.w a.u⟩, rfl, rfl, ?_, ?_, canon_of_lt (negPattern_lt a.w a.u) ▸ writesReg_of_exec h⟩
    · exact congrArg (· % 2 ^ a.w) (by omega)
    · exact (natCast_negPattern hu.le).trans (sint_modEq a).neg.symm
  · refine oneSource_of_exec rfl fun a ha h => ?_
    obtain ⟨hw, -, hu⟩ := hinv.regs rs1 a ha
    exact ⟨⟨a.w, a.magnitude⟩, rfl, rfl, magnitude_eq_natAbs hw hu,
      canon_of_lt (magnitude_lt hw hu) ▸ writesReg_of_exec h⟩

/-! ### UDIV, UREM -/

/-- Settles O43: quotient and remainder by a divisor other than 0 are below the dividend and the divisor. -/
theorem udivUrem : Obligations.UdivUrem := by
  refine ⟨fun rd rs1 rs2 => ⟨spelt_of_wellFormed (i := .udiv rd rs1 rs2) rfl rfl,
    spelt_of_wellFormed (i := .urem rd rs1 rs2) rfl rfl⟩, fun s rd rs1 rs2 hinv => ⟨?_, ?_⟩⟩
  all_goals
    refine division_of_exec rfl fun a b ha _ _ h0 h => ?_
    obtain ⟨-, -, hau⟩ := hinv.regs rs1 a ha
  · exact canon_of_lt ((Nat.div_le_self _ _).trans_lt hau) ▸ writesReg_of_exec h
  · exact ⟨canon_of_lt ((Nat.mod_le _ _).trans_lt hau) ▸ writesReg_of_exec h, Nat.mod_lt _ (Nat.pos_of_ne_zero h0),
      (Nat.div_add_mod' _ _).symm⟩

/-! ### SDIV, SREM -/

/-- Numbers in the range of `w` bits that agree modulo `2^w` are equal. -/
theorem eq_of_modEq_two_pow {w : Nat} (hw : 1 ≤ w) {x y : Int} (h : x ≡ y [ZMOD 2 ^ w])
    (hx : -(2 ^ (w - 1) : Int) ≤ x ∧ x < 2 ^ (w - 1)) (hy : -(2 ^ (w - 1) : Int) ≤ y ∧ y < 2 ^ (w - 1)) : x = y := by
  have hpow : (2 : Int) * 2 ^ (w - 1) = 2 ^ w := mul_pow_sub_one (by omega) 2
  refine Int.eq_of_sub_eq_zero (Int.eq_zero_of_abs_lt_dvd (Int.modEq_iff_dvd.1 h.symm) ?_)
  rw [abs_lt]
  omega

section
variable {a b : ApInt} (hw : 1 ≤ a.w) (hab : a.w = b.w) (hau : a.u < 2 ^ a.w) (hbu : b.u < 2 ^ b.w)
include hw hab hau hbu

/-- Division of the magnitudes and the sign rule is division truncated toward zero (42_arithmetic.md R210). -/
theorem tdiv_sint : a.sint.tdiv b.sint =
    if a.signBit = b.signBit then ((a.magnitude / b.magnitude : Nat) : Int)
    else -((a.magnitude / b.magnitude : Nat) : Int) := by
  rw [sint_eq_magnitude hw hau, sint_eq_magnitude (hab ▸ hw) hbu, Int.natCast_div]
  have hnn : (a.magnitude : Int).tdiv b.magnitude = a.magnitude / b.magnitude :=
    Int.tdiv_eq_ediv_of_nonneg (Int.natCast_nonneg _)
  cases a.signBit <;> cases b.signBit <;> simp [hnn]

/-- The remainder of the magnitudes with the dividend's sign is the truncated remainder (42_arithmetic.md R211). -/
theorem tmod_sint : a.sint.tmod b.sint =
    if a.signBit then -((a.magnitude % b.magnitude : Nat) : Int) else ((a.magnitude % b.magnitude : Nat) : Int) := by
  rw [sint_eq_magnitude hw hau, sint_eq_magnitude (hab ▸ hw) hbu]
  have hnn : (a.magnitude : Int).tmod b.magnitude = a.magnitude % b.magnitude :=
    Int.tmod_eq_emod_of_nonneg (Int.natCast_nonneg _)
  cases a.signBit <;> cases b.signBit <;> simp [Int.tmod_neg, Int.neg_tmod, hnn]

theorem signedQuotient_eq_emod : (signedQuotient a b : Int) = a.sint.tdiv b.sint % 2 ^ a.w := by
  have hlt := (Nat.div_le_self a.magnitude b.magnitude).trans_lt (magnitude_lt hw hau)
  rw [tdiv_sint hw hab hau hbu, signedQuotient]
  split
  · exact (Int.emod_eq_of_lt (Int.natCast_nonneg _) (by exact_mod_cast hlt)).symm
  · exact natCast_negPattern hlt.le

theorem signedRemainder_eq_emod : (signedRemainder a b : Int) = a.sint.tmod b.sint % 2 ^ a.w := by
  have hlt := (Nat.mod_le a.magnitude b.magnitude).trans_lt (magnitude_lt hw hau)
  rw [tmod_sint hw hab hau hbu, signedRemainder]
  split
  · exact natCast_negPattern hlt.le
  · exact (Int.emod_eq_of_lt (Int.natCast_nonneg _) (by exact_mod_cast hlt)).symm

theorem signedQuotient_lt : signedQuotient a b < 2 ^ a.w := by
  have h := Int.emod_lt_of_pos (a.sint.tdiv b.sint) (b := 2 ^ a.w) (by positivity)
  rw [← signedQuotient_eq_emod hw hab hau hbu] at h
  exact_mod_cast h

theorem signedRemainder_lt : signedRemainder a b < 2 ^ a.w := by
  have h := Int.emod_lt_of_pos (a.sint.tmod b.sint) (b := 2 ^ a.w) (by positivity)
  rw [← signedRemainder_eq_emod hw hab hau hbu] at h
  exact_mod_cast h

/-- The remainder is no greater in magnitude than the dividend, so its pattern reads back as itself. -/
theorem sint_signedRemainder : (ApInt.mk a.w (signedRemainder a b)).sint = a.sint.tmod b.sint := by
  have hlt := signedRemainder_lt hw hab hau hbu
  refine eq_of_modEq_two_pow hw ?_ (sint_bounds (a := ⟨a.w, _⟩) hw hlt) ?_
  · refine (sint_modEq ⟨a.w, signedRemainder a b⟩).trans ?_
    rw [signedRemainder_eq_emod hw hab hau hbu]
    exact Int.mod_modEq _ _
  · obtain ⟨hlow, hhigh⟩ := sint_bounds hw hau
    have hsign := Int.natCast_nonneg (a.magnitude % b.magnitude)
    have hle : ((a.magnitude % b.magnitude : Nat) : Int) ≤ a.magnitude := by exact_mod_cast Nat.mod_le _ _
    have hpos : (0 : Int) < 2 ^ (a.w - 1) := by positivity
    rw [sint_eq_magnitude hw hau] at hlow hhigh
    rw [tmod_sint hw hab hau hbu]
    cases hs : a.signBit <;> simp only [hs, if_true, Bool.false_eq_true, if_false] at hlow hhigh ⊢ <;> omega

/-- Quotient times divisor plus remainder is the dividend modulo `2^w`, also for the most negative value over minus one
(42_arithmetic.md R211). -/
theorem signedQuotient_mul_add : (signedQuotient a b * b.u + signedRemainder a b) % 2 ^ a.w = a.u := by
  have hcast : (signedQuotient a b * b.u + signedRemainder a b : Int) ≡ a.u [ZMOD 2 ^ a.w] :=
    calc (signedQuotient a b * b.u + signedRemainder a b : Int)
        ≡ a.sint.tdiv b.sint * b.sint + a.sint.tmod b.sint [ZMOD 2 ^ a.w] := by
          rw [signedQuotient_eq_emod hw hab hau hbu, signedRemainder_eq_emod hw hab hau hbu]
          exact ((Int.mod_modEq _ _).mul (hab ▸ (sint_modEq b).symm)).add (Int.mod_modEq _ _)
      _ = a.sint := Int.tdiv_mul_add_tmod _ _
      _ ≡ a.u [ZMOD 2 ^ a.w] := sint_modEq a
  have hnat : signedQuotient a b * b.u + signedRemainder a b ≡ a.u [MOD 2 ^ a.w] :=
    Int.natCast_modEq_iff.1 (by exact_mod_cast hcast)
  exact Nat.mod_eq_of_modEq hnat hau

end

/-- Settles O44: the patterns of quotient and remainder are the truncated ones modulo `2^w`, and both fit. -/
theorem sdivSrem : Obligations.SdivSrem := by
  refine ⟨fun rd rs1 rs2 => ⟨spelt_of_wellFormed (i := .sdiv rd rs1 rs2) rfl rfl,
    spelt_of_wellFormed (i := .srem rd rs1 rs2) rfl rfl⟩, fun s rd rs1 rs2 hinv => ⟨?_, ?_⟩⟩
  all_goals
    refine division_of_exec rfl fun a b ha hb hab h0 h => ?_
    obtain ⟨hw, -, hau⟩ := hinv.regs rs1 a ha
    obtain ⟨-, -, hbu⟩ := hinv.regs rs2 b hb
    have hr : canon a.w (signedRemainder a b) = ⟨a.w, signedRemainder a b⟩ :=
      canon_of_lt (signedRemainder_lt hw hab hau hbu)
  · have hq : canon a.w (signedQuotient a b) = ⟨a.w, signedQuotient a b⟩ :=
      canon_of_lt (signedQuotient_lt hw hab hau hbu)
    have hsrem : exec (.srem rd rs1 rs2) s = s.finish (.ok (writes rd a.w (signedRemainder a b))) := by
      simp only [exec, execSrem, divSources_ok.2 ⟨ha, hb, hab, h0⟩, bind, Except.bind, pure, Except.pure]
    refine ⟨⟨a.w, signedQuotient a b⟩, ⟨a.w, signedRemainder a b⟩, a.magnitude, b.magnitude, rfl, rfl,
      magnitude_eq hw hau, hab ▸ magnitude_eq (hab ▸ hw) hbu, ?_, ?_, signedQuotient_eq_emod hw hab hau hbu,
      sint_signedRemainder hw hab hau hbu, ?_, signedQuotient_mul_add hw hab hau hbu,
      hq ▸ writesReg_of_exec h, hr ▸ writesReg_of_exec hsrem⟩
    · have hlt := (Nat.div_le_self a.magnitude b.magnitude).trans_lt (magnitude_lt hw hau)
      rw [Nat.mod_eq_of_lt hlt]
      exact if_congr (by rw [ApInt.signBit, ApInt.signBit, hab]) rfl rfl
    · rfl
    · rw [sint_signedRemainder hw hab hau hbu, Int.natAbs_tmod]
      exact Nat.mod_lt _ (natAbs_sint_pos (hab ▸ hw) hbu h0)
  · exact ⟨⟨a.w, signedRemainder a b⟩, rfl, sint_signedRemainder hw hab hau hbu, hr ▸ writesReg_of_exec h⟩

end Sys2Proof.Machine

/-! SUPPORT. The word-level algorithms with carries, as arithmetic on the numbers the words stand for: ripple addition
and subtraction, negation, schoolbook multiplication, division by one word (42_arithmetic.md R220 to R223, R225). -/

namespace Sys2Proof.Machine

/-! ### Word sequences of a known length -/

/-- `ds` is a sequence of `n` Digits: what a word-level algorithm takes and gives. -/
def WordSeq (D n : Nat) (ds : List Digit) : Prop := ds.length = n ∧ ∀ d ∈ ds, d < base D

section
variable {D n m d : Nat} {ds es : List Digit}

theorem wordSeq_nil (D : Nat) : WordSeq D 0 [] := ⟨rfl, nofun⟩

theorem WordSeq.eq_nil (h : WordSeq D 0 ds) : ds = [] := List.length_eq_zero_iff.1 h.1

theorem WordSeq.cons (hd : d < base D) (h : WordSeq D n ds) : WordSeq D (n + 1) (d :: ds) :=
  ⟨congrArg (· + 1) h.1, List.forall_mem_cons.2 ⟨hd, h.2⟩⟩

theorem WordSeq.exists_cons (h : WordSeq D (n + 1) ds) :
    ∃ (d : Nat) (es : List Digit), ds = d :: es ∧ d < base D ∧ WordSeq D n es := by
  obtain ⟨hlen, hlt⟩ := h
  obtain ⟨d, es, rfl⟩ := List.exists_cons_of_length_eq_add_one hlen
  obtain ⟨hd, hes⟩ := List.forall_mem_cons.1 hlt
  exact ⟨d, es, rfl, hd, Nat.succ.inj hlen, hes⟩

theorem WordSeq.append (h : WordSeq D n ds) (h' : WordSeq D m es) : WordSeq D (n + m) (ds ++ es) :=
  ⟨List.length_append.trans (congrArg₂ (· + ·) h.1 h'.1), List.forall_mem_append.2 ⟨h.2, h'.2⟩⟩

theorem WordSeq.valueOf_lt (h : WordSeq D n ds) : valueOf D ds < base D ^ n := h.1 ▸ Machine.valueOf_lt h.2

end

theorem wordSeq_replicate {D d : Nat} (hd : d < base D) (n : Nat) : WordSeq D n (List.replicate n d) :=
  ⟨List.length_replicate, fun _ he => List.eq_of_mem_replicate he ▸ hd⟩

section
variable {D w v : Nat} {ds : List Digit} (hD : 0 < D) (hw : 1 ≤ w) (hds : WordSeq D (nwords D w) ds)
include hD hw hds

/-- Masking words that stand for `v` modulo `2^w` gives the words of `v` (41_storage_width.md R151). -/
theorem maskTop_eq_words (hv : valueOf D ds ≡ v [MOD 2 ^ w]) :
    maskTop D w ds = ApInt.words D { w := w, u := v % 2 ^ w } := by
  rw [← words_canon_valueOf hD hw hds.1 hds.2, canon_eq_of_modEq hv, canon]

/-- Words that stand for `v` are the words of `v`. -/
theorem eq_words_of_valueOf (hv : valueOf D ds = v) (hlt : v < 2 ^ w) : ds = ApInt.words D { w := w, u := v } := by
  rw [← words_eq_of_valueOf hD hw hds.1 hds.2 (hv ▸ hlt), hv, canon_of_lt hlt]

end

/-- A multiple of `m` beside a number is not seen modulo a divisor of `m`. -/
theorem modEq_of_add_mul {k m x y c : Nat} (hk : k ∣ m) (h : x + m * c = y) : x ≡ y [MOD k] := by
  rw [← h]
  exact Nat.left_modEq_add_iff.2 (hk.mul_right c)

/-- The words of a pattern below `2^w` (46_host_exchange.md R352). -/
theorem words_spec {D w u : Nat} (hD : 0 < D) (hw : 1 ≤ w) (hu : u < 2 ^ w) :
    WordSeq D (nwords D w) (ApInt.words D ⟨w, u⟩) ∧ valueOf D (ApInt.words D ⟨w, u⟩) = u :=
  ⟨⟨words_length D _, words_lt D _⟩, valueOf_words hD hw hu⟩

/-! ### Ripple addition (42_arithmetic.md R220) -/

section
variable {D n : Nat} {A B : List Digit}

/-- Sum and carry of two Digits and a carry (40_digit.md R132). -/
theorem dadc_spec {a b c : Nat} (ha : a < base D) (hb : b < base D) (hc : c ≤ 1) :
    (dadc D a b c).1 < base D ∧ (dadc D a b c).2 ≤ 1 ∧
      (dadc D a b c).1 + base D * (dadc D a b c).2 = a + b + c := by
  refine ⟨Nat.mod_lt _ (base_pos D), ?_, ?_⟩ <;> unfold dadc <;> dsimp only <;> split
  · exact le_rfl
  · exact Nat.zero_le 1
  · next h =>
    have hlt : a + b + c - base D < base D := by omega
    rw [Nat.mod_eq_sub_mod h, Nat.mod_eq_of_lt hlt]
    exact (by omega : a + b + c - base D + base D * 1 = a + b + c)
  · next h =>
    rw [Nat.mod_eq_of_lt (not_le.1 h), Nat.mul_zero, Nat.add_zero]

/-- The words and the last carry of the ripple stand for the sum. -/
theorem rippleAdd_spec {c : Nat} (hA : WordSeq D n A) (hB : WordSeq D n B) (hc : c ≤ 1) :
    WordSeq D n (rippleAdd D A B c).1 ∧ (rippleAdd D A B c).2 ≤ 1 ∧
      valueOf D (rippleAdd D A B c).1 + base D ^ n * (rippleAdd D A B c).2 = valueOf D A + valueOf D B + c := by
  induction n generalizing A B c with
  | zero =>
    rw [hA.eq_nil, hB.eq_nil]
    exact ⟨wordSeq_nil D, hc, by simp [rippleAdd, valueOf]⟩
  | succ n ih =>
    obtain ⟨a, as, rfl, ha, has⟩ := hA.exists_cons
    obtain ⟨b, bs, rfl, hb, hbs⟩ := hB.exists_cons
    obtain ⟨hlt, hle, hdigit⟩ := dadc_spec ha hb hc
    obtain ⟨hrs, hout, hrest⟩ := ih has hbs hle
    refine ⟨hrs.cons hlt, hout, ?_⟩
    simp only [rippleAdd, valueOf, pow_succ']
    linear_combination hdigit + base D * hrest

/-- If the top word is only partly used, it is entry `w / D`, so its bit `w mod D` is bit `w` of the number. -/
theorem entry_top {w : Nat} (hD : 0 < D) (h : w % D ≠ 0) (hA : WordSeq D (nwords D w) A) :
    Memory.entry A (w / D) = some ((A.getLast?).getD 0) := by
  have hlen := hA.1
  rw [nwords_of_mod_ne_zero h hD] at hlen
  rw [Memory.entry, List.getLast?_eq_getElem?, hlen, Nat.add_sub_cancel, List.getElem?_eq_getElem (by omega),
    Option.getD_some]

theorem base_pow_nwords_of_mod_eq_zero {w : Nat} (hD : 0 < D) (hw : 1 ≤ w) (h : w % D = 0) :
    base D ^ nwords D w = 2 ^ w := by
  obtain ⟨hle, hlt⟩ := nwords_bounds hD hw
  rw [Nat.sub_one_mul] at hlt
  have hmod : nwords D w * D ≡ w [MOD D] := by rw [Nat.ModEq, h, Nat.mul_mod_left]
  rw [base, ← pow_mul, Nat.mul_comm, hmod.eq_of_abs_lt (by rw [abs_lt]; omega)]

/-- The carry is read off the sum: `2^w` is there exactly if the last carry, or bit `w mod D` of the top word, is 1. -/
theorem addCarry_eq {w c s : Nat} {rs : List Digit} (hD : 0 < D) (hw : 1 ≤ w) (hrs : WordSeq D (nwords D w) rs)
    (hc : c ≤ 1) (hs : valueOf D rs + base D ^ nwords D w * c = s) (hlt : s < 2 ^ (w + 1)) :
    addCarry D w rs c = decide (2 ^ w ≤ s) ∧ (w % D ≠ 0 → c = 0) := by
  have hrslt := hrs.valueOf_lt
  unfold addCarry
  split
  · next h =>
    rw [base_pow_nwords_of_mod_eq_zero hD hw h] at hs hrslt
    refine ⟨decide_eq_decide.2 ⟨?_, fun hle => ?_⟩, absurd h⟩
    · rintro rfl; omega
    · by_contra hne
      have h0 : c = 0 := by omega
      subst h0; omega
  · next h =>
    have hdouble : 2 ^ (w + 1) ≤ base D ^ nwords D w := by
      have hw' := Nat.div_add_mod' w D
      have hlt := Nat.mod_lt w hD
      rw [base, ← pow_mul, Nat.mul_comm, nwords_of_mod_ne_zero h hD, Nat.add_one_mul]
      exact Nat.pow_le_pow_right Nat.two_pos (by omega)
    have h0 : c = 0 := by
      by_contra hne
      have h1 : c = 1 := by omega
      subst h1; omega
    refine ⟨?_, fun _ => h0⟩
    have htop := testBit_valueOf (Nat.mod_lt w hD) hrs.2 (entry_top hD h hrs)
    rw [← htop, Nat.div_add_mod']
    subst h0
    rw [Nat.mul_zero, Nat.add_zero] at hs
    rw [hs]
    have hsign := signBit_iff (a := ⟨w + 1, s⟩) (by simp) hlt
    exact Bool.eq_iff_iff.2 (hsign.trans decide_eq_true_iff.symm)

end

/-- Settles O52: the ripple is the sum, which masking reduces and whose bit `w` is the carry. -/
theorem rippleAdditionIsTheSum : Obligations.RippleAdditionIsTheSum := by
  intro D w a b hw ha hb
  have hD := DigitBits.bits_pos D
  obtain ⟨hA, hva⟩ := words_spec hD hw ha
  obtain ⟨hB, hvb⟩ := words_spec hD hw hb
  obtain ⟨hrs, hc, hsum⟩ := rippleAdd_spec hA hB (Nat.zero_le 1)
  rw [hva, hvb, Nat.add_zero] at hsum
  obtain ⟨hcarry, hzero⟩ := addCarry_eq hD hw hrs hc hsum (by rw [pow_succ]; omega)
  refine ⟨Prod.ext ?_ hcarry, hzero⟩
  refine maskTop_eq_words hD hw hrs (modEq_of_add_mul ?_ hsum)
  exact two_pow_dvd_base_pow hD hw

/-! ### Ripple subtraction (42_arithmetic.md R221) -/

section
variable {D n : Nat} {A B : List Digit}

/-- Difference and borrow of two Digits and a borrow (40_digit.md R133). -/
theorem dsbb_spec {a b c : Nat} (ha : a < base D) (hb : b < base D) (hc : c ≤ 1) :
    (dsbb D a b c).1 < base D ∧ (dsbb D a b c).2 ≤ 1 ∧
      (dsbb D a b c).1 + b + c = a + base D * (dsbb D a b c).2 := by
  refine ⟨Nat.mod_lt _ (base_pos D), ?_, ?_⟩ <;> unfold dsbb <;> dsimp only <;> split
  · exact le_rfl
  · exact Nat.zero_le 1
  · next h =>
    have hlt : a + base D - b - c < base D := by omega
    have hrep : a + base D + base D - b - c = a + base D - b - c + base D := by omega
    rw [hrep, Nat.add_mod_right, Nat.mod_eq_of_lt hlt]
    exact (by omega : a + base D - b - c + b + c = a + base D * 1)
  · next h =>
    have hlt : a - b - c < base D := by omega
    have hrep : a + base D + base D - b - c = a - b - c + base D + base D := by omega
    rw [hrep, Nat.add_mod_right, Nat.add_mod_right, Nat.mod_eq_of_lt hlt]
    exact (by omega : a - b - c + b + c = a + base D * 0)

/-- The words of the ripple and the subtrahend stand for the minuend and the last borrow. -/
theorem rippleSub_spec {c : Nat} (hA : WordSeq D n A) (hB : WordSeq D n B) (hc : c ≤ 1) :
    WordSeq D n (rippleSub D A B c).1 ∧ (rippleSub D A B c).2 ≤ 1 ∧
      valueOf D (rippleSub D A B c).1 + valueOf D B + c = valueOf D A + base D ^ n * (rippleSub D A B c).2 := by
  induction n generalizing A B c with
  | zero =>
    rw [hA.eq_nil, hB.eq_nil]
    exact ⟨wordSeq_nil D, hc, by simp [rippleSub, valueOf]⟩
  | succ n ih =>
    obtain ⟨a, as, rfl, ha, has⟩ := hA.exists_cons
    obtain ⟨b, bs, rfl, hb, hbs⟩ := hB.exists_cons
    obtain ⟨hlt, hle, hdigit⟩ := dsbb_spec ha hb hc
    obtain ⟨hrs, hout, hrest⟩ := ih has hbs hle
    refine ⟨hrs.cons hlt, hout, ?_⟩
    simp only [rippleSub, valueOf, pow_succ']
    linear_combination hdigit + base D * hrest

end

theorem subPattern_add_modEq (w a b : Nat) : subPattern w a b + b ≡ a [MOD 2 ^ w] := by
  refine Int.natCast_modEq_iff.1 ?_
  push_cast
  rw [natCast_subPattern]
  exact ((Int.mod_modEq _ _).add_right _).trans (by rw [sub_add_cancel])

/-- Settles O53: the ripple is the difference modulo the places, and it borrows if the minuend is the smaller. -/
theorem rippleSubtractionIsTheDifference : Obligations.RippleSubtractionIsTheDifference := by
  intro D w a b hw ha hb
  have hD := DigitBits.bits_pos D
  obtain ⟨hA, hva⟩ := words_spec hD hw ha
  obtain ⟨hB, hvb⟩ := words_spec hD hw hb
  obtain ⟨hrs, hc, hdiff⟩ := rippleSub_spec hA hB (Nat.zero_le 1)
  rw [hva, hvb, Nat.add_zero] at hdiff
  have hsub : (((a : Int) - b) % 2 ^ w).toNat = subPattern w a b % 2 ^ w := by
    rw [← natCast_subPattern, Int.toNat_natCast, Nat.mod_eq_of_lt (subPattern_lt w a b)]
  rw [hsub]
  refine Prod.ext (maskTop_eq_words hD hw hrs ?_) (decide_eq_decide.2 ?_)
  · refine Nat.ModEq.add_right_cancel' b (.trans ?_ (subPattern_add_modEq w a b).symm)
    exact (modEq_of_add_mul (two_pow_dvd_base_pow hD hw) hdiff.symm).symm
  · have hlt := hrs.valueOf_lt
    rcases Nat.le_one_iff_eq_zero_or_eq_one.1 hc with h | h <;> rw [h] at hdiff ⊢ <;> omega

/-! ### Negation (42_arithmetic.md R225) -/

/-- Complementing every word gives what is left up to the greatest number. -/
theorem complement_spec {D n : Nat} {A : List Digit} (hA : WordSeq D n A) :
    WordSeq D n (A.map (2 ^ D - 1 - ·)) ∧ valueOf D (A.map (2 ^ D - 1 - ·)) + valueOf D A + 1 = base D ^ n := by
  induction n generalizing A with
  | zero =>
    rw [hA.eq_nil]
    exact ⟨wordSeq_nil D, rfl⟩
  | succ n ih =>
    obtain ⟨a, as, rfl, ha, has⟩ := hA.exists_cons
    obtain ⟨hcs, hval⟩ := ih has
    have hdigit : 2 ^ D - 1 - a + a + 1 = base D := by rw [base] at *; omega
    have hlt : 2 ^ D - 1 - a < base D := by rw [← hdigit]; omega
    refine ⟨hcs.cons hlt, ?_⟩
    rw [List.map_cons, valueOf, valueOf, pow_succ', ← hval]
    linear_combination hdigit

/-- Complement, add 1 and mask is the two's complement. -/
theorem negWords_words {D w u : Nat} (hD : 0 < D) (hw : 1 ≤ w) (hu : u < 2 ^ w) :
    negWords D w (ApInt.words D ⟨w, u⟩) = ApInt.words D ⟨w, negPattern w u⟩ := by
  obtain ⟨hA, hva⟩ := words_spec hD hw hu
  obtain ⟨hC, hvc⟩ := complement_spec hA
  obtain ⟨hrs, -, hsum⟩ := rippleAdd_spec hC (wordSeq_replicate (base_pos D) (nwords D w)) le_rfl
  rw [valueOf_replicate_zero, Nat.add_zero] at hsum
  rw [negWords, hA.1]
  refine maskTop_eq_words hD hw hrs (Nat.ModEq.add_right_cancel' u ?_)
  have hdvd := two_pow_dvd_base_pow hD hw
  calc _ ≡ valueOf D ((ApInt.words D ⟨w, u⟩).map (2 ^ D - 1 - ·)) + 1 + u [MOD 2 ^ w] :=
        (modEq_of_add_mul hdvd hsum).add_right u
    _ = base D ^ nwords D w := by rw [hva] at hvc; rw [← hvc]; ring
    _ ≡ 2 ^ w [MOD 2 ^ w] := (Nat.modEq_zero_iff_dvd.2 hdvd).trans (Nat.modEq_zero_iff_dvd.2 dvd_rfl).symm
    _ = 2 ^ w - u + u := (Nat.sub_add_cancel hu.le).symm

/-! ### Schoolbook multiplication (42_arithmetic.md R222) -/

section
variable {D n : Nat} {A : List Digit}

/-- One row adds the multiplicand times one word, modulo the places the row has. -/
theorem mulRow_spec {R : List Digit} {b c : Nat} (hA : n ≤ A.length) (hR : WordSeq D n R) :
    WordSeq D n (mulRow D A b R c) ∧
      valueOf D (mulRow D A b R c) ≡ valueOf D R + valueOf D A * b + c [MOD base D ^ n] := by
  induction n generalizing A R c with
  | zero =>
    rw [hR.eq_nil]
    exact ⟨by cases A <;> exact wordSeq_nil D, by rw [pow_zero]; exact Nat.modEq_one⟩
  | succ n ih =>
    obtain ⟨r, rs, rfl, -, hrs⟩ := hR.exists_cons
    obtain ⟨a, as, rfl⟩ := List.exists_cons_of_length_pos (Nat.zero_lt_of_lt hA)
    obtain ⟨hrow, hmod⟩ := ih (c := a * b / base D + (r + a * b % base D + c) / base D)
      (Nat.le_of_succ_le_succ hA) hrs
    refine ⟨hrow.cons (Nat.mod_lt _ (base_pos D)), ?_⟩
    have hprod := Nat.mod_add_div (a * b) (base D)
    have hdigit := Nat.mod_add_div (r + a * b % base D + c) (base D)
    simp only [mulRow, dmulw, valueOf]
    rw [pow_succ']
    refine ((hmod.mul_left' (base D)).add_left _).trans (congrArg (· % _) ?_)
    linear_combination hprod + hdigit

/-- The rows add the product, modulo the places of the result. -/
theorem mulRows_spec {B R : List Digit} (hA : n ≤ A.length) (hR : WordSeq D n R) :
    WordSeq D n (mulRows D A B R) ∧
      valueOf D (mulRows D A B R) ≡ valueOf D R + valueOf D A * valueOf D B [MOD base D ^ n] := by
  induction B generalizing R n with
  | nil => exact ⟨hR, by rw [mulRows, valueOf, Nat.mul_zero, Nat.add_zero]⟩
  | cons b bs ih =>
    obtain ⟨hrow, hmod⟩ := mulRow_spec (b := b) (c := 0) hA hR
    cases n with
    | zero =>
      rw [mulRows, hrow.eq_nil]
      exact ⟨wordSeq_nil D, by rw [pow_zero]; exact Nat.modEq_one⟩
    | succ n =>
      obtain ⟨r, rs, hcons, hr, hrs⟩ := hrow.exists_cons
      obtain ⟨hrest, hmod'⟩ := ih (Nat.le_of_succ_le hA) hrs
      rw [mulRows, hcons]
      refine ⟨hrest.cons hr, ?_⟩
      rw [hcons] at hmod
      simp only [valueOf]
      have hshift := (hmod'.mul_left' (base D)).add_left r
      rw [← pow_succ'] at hshift
      calc r + base D * valueOf D (mulRows D A bs rs)
          ≡ r + base D * (valueOf D rs + valueOf D A * valueOf D bs) [MOD base D ^ (n + 1)] := hshift
        _ = valueOf D (r :: rs) + base D * (valueOf D A * valueOf D bs) := by rw [valueOf]; ring
        _ ≡ valueOf D R + valueOf D A * b + 0 + base D * (valueOf D A * valueOf D bs) [MOD base D ^ (n + 1)] :=
            hmod.add_right _
        _ = valueOf D R + valueOf D A * (b + base D * valueOf D bs) := by ring

end

/-- Settles O54: the rows are the product modulo the places, which masking reduces. -/
theorem schoolbookMultiplicationIsTheProduct : Obligations.SchoolbookMultiplicationIsTheProduct := by
  intro D w a b hw ha hb
  have hD := DigitBits.bits_pos D
  obtain ⟨hA, hva⟩ := words_spec hD hw ha
  obtain ⟨-, hvb⟩ := words_spec hD hw hb
  obtain ⟨hrs, hmod⟩ := mulRows_spec (B := ApInt.words D.bits ⟨w, b⟩) hA.1.ge
    (wordSeq_replicate (base_pos D.bits) (nwords D.bits w))
  rw [hva, hvb, valueOf_replicate_zero, Nat.zero_add] at hmod
  rw [mulWords, hA.1]
  exact maskTop_eq_words hD hw hrs (hmod.of_dvd (two_pow_dvd_base_pow hD hw))

/-! ### Division by one word (42_arithmetic.md R223) -/

/-- Digit by Digit from the top: quotient words and a remainder below the divisor. -/
theorem divSmall_spec {D d n : Nat} {A : List Digit} (hd : 0 < d) (hA : WordSeq D n A) :
    WordSeq D n (divSmall D d A).1 ∧ (divSmall D d A).2 < d ∧
      valueOf D (divSmall D d A).1 * d + (divSmall D d A).2 = valueOf D A := by
  induction n generalizing A with
  | zero =>
    rw [hA.eq_nil]
    exact ⟨wordSeq_nil D, hd, by simp [divSmall, valueOf]⟩
  | succ n ih =>
    obtain ⟨a, as, rfl, ha, has⟩ := hA.exists_cons
    obtain ⟨hqs, hrem, hval⟩ := ih has
    have hq := doubleWord_div_lt ha hrem
    have hdiv := Nat.div_add_mod' ((divSmall D d as).2 * base D + a) d
    simp only [divSmall, ddiv2Total, Nat.mod_eq_of_lt hq, valueOf]
    refine ⟨hqs.cons hq, Nat.mod_lt _ hd, ?_⟩
    linear_combination hdiv + base D * hval

/-- The quotient and the remainder are the only ones. -/
theorem divSmall_words {D w u d : Nat} (hD : 0 < D) (hw : 1 ≤ w) (hu : u < 2 ^ w) (hd : 0 < d) :
    divSmall D d (ApInt.words D ⟨w, u⟩) = (ApInt.words D ⟨w, u / d⟩, u % d) := by
  obtain ⟨hA, hva⟩ := words_spec hD hw hu
  obtain ⟨hq, hlt, hval⟩ := divSmall_spec hd hA
  rw [hva, Nat.add_comm, Nat.mul_comm] at hval
  obtain ⟨hquot, hrem⟩ := (Nat.div_mod_unique hd).2 ⟨hval, hlt⟩
  exact Prod.ext (eq_words_of_valueOf hD hw hq hquot.symm ((Nat.div_le_self u d).trans_lt hu)) hrem.symm

/-- Settles O55: the quotient's words and the remainder, for any divisor other than 0. -/
theorem singleWordDivisionIsTheQuotient : Obligations.SingleWordDivisionIsTheQuotient :=
  fun D _ a _ hw ha hd _ => ⟨divSmall_words (DigitBits.bits_pos D) hw ha hd, Nat.mod_lt a hd⟩

end Sys2Proof.Machine

/-! SUPPORT. Knuth's Algorithm D as the listing after R224 gives it, and signed division on top of it
(42_arithmetic.md R224, R225, log entry 18). -/

namespace Sys2Proof.Machine

/-! ### Parts of a word sequence -/

section
variable {D n m : Nat} {ds : List Digit}

theorem WordSeq.exists_concat (h : WordSeq D (n + 1) ds) :
    ∃ (es : List Digit) (d : Nat), ds = es ++ [d] ∧ WordSeq D n es ∧ d < base D := by
  obtain ⟨hlen, hlt⟩ := h
  rcases List.eq_nil_or_concat' ds with rfl | ⟨es, d, rfl⟩
  · cases hlen
  · obtain ⟨hes, hd⟩ := List.forall_mem_append.1 hlt
    exact ⟨es, d, rfl, ⟨Nat.succ.inj (List.length_append.symm.trans hlen), hes⟩, hd d List.mem_cons_self⟩

theorem WordSeq.valueOf_concat {d : Nat} (h : WordSeq D n ds) :
    valueOf D (ds ++ [d]) = valueOf D ds + base D ^ n * d := by
  rw [valueOf_append, valueOf_singleton, h.1]

/-- The low words stand for the number modulo the places kept. -/
theorem WordSeq.take (h : WordSeq D n ds) (hm : m ≤ n) :
    WordSeq D m (ds.take m) ∧ valueOf D (ds.take m) ≡ valueOf D ds [MOD base D ^ m] := by
  have hle := hm.trans h.1.ge
  refine ⟨⟨List.length_take_of_le hle, fun d hd => h.2 d (List.mem_of_mem_take hd)⟩, ?_⟩
  rw [valueOf_take h.2 hle]
  exact Nat.mod_modEq _ _

/-- The low words stand for whatever fits them and agrees with the whole number in their places. -/
theorem WordSeq.take_of_lt (h : WordSeq D n ds) (hm : m ≤ n) {r : Nat} (hv : valueOf D ds ≡ r [MOD base D ^ m])
    (hr : r < base D ^ m) : WordSeq D m (ds.take m) ∧ valueOf D (ds.take m) = r := by
  obtain ⟨hseq, hmod⟩ := h.take hm
  exact ⟨hseq, (hmod.trans hv).eq_of_lt_of_lt hseq.valueOf_lt hr⟩

theorem WordSeq.drop (h : WordSeq D n ds) (m : Nat) : WordSeq D (n - m) (ds.drop m) :=
  ⟨List.length_drop.trans (congrArg (· - m) h.1), fun d hd => h.2 d (List.mem_of_mem_drop hd)⟩

/-- Zero words at the top change no number. -/
theorem padTo_spec (h : WordSeq D n ds) (hn : n ≤ m) :
    WordSeq D m (padTo m ds) ∧ valueOf D (padTo m ds) = valueOf D ds := by
  refine ⟨?_, by rw [padTo, valueOf_append, valueOf_replicate_zero, Nat.mul_zero, Nat.add_zero]⟩
  have happ := h.append (wordSeq_replicate (base_pos D) (m - n))
  rwa [Nat.add_sub_cancel' hn, ← h.1] at happ

/-- A number is its lowest word and the rest, also where no word is. -/
theorem valueOf_headD_tail (D : Nat) (ds : List Digit) : valueOf D ds = ds.headD 0 + base D * valueOf D ds.tail := by
  cases ds with
  | nil => simp [valueOf]
  | cons d ds => rfl

theorem headD_lt (h : ∀ d ∈ ds, d < base D) : ds.headD 0 < base D := by
  cases ds with
  | nil => exact base_pos D
  | cons d ds => exact h d List.mem_cons_self

/-- The significant words stand for the same number, which needs all of them. -/
theorem significant_spec (h : WordSeq D n ds) :
    ∃ k ≤ n, WordSeq D k (significant ds) ∧ valueOf D (significant ds) = valueOf D ds ∧
      (0 < k → base D ^ (k - 1) ≤ valueOf D ds) := by
  induction n generalizing ds with
  | zero =>
    rw [h.eq_nil]
    exact ⟨0, le_rfl, wordSeq_nil D, rfl, nofun⟩
  | succ n ih =>
    obtain ⟨d, es, rfl, hd, hes⟩ := h.exists_cons
    obtain ⟨k, hk, hseq, hval, hle⟩ := ih hes
    rw [significant, valueOf, ← hval]
    split
    · next hnil =>
      rw [hnil, valueOf, Nat.mul_zero, Nat.add_zero]
      split
      · next h0 => exact ⟨0, Nat.zero_le _, wordSeq_nil D, h0.symm, nofun⟩
      · next h0 => exact ⟨1, by omega, (wordSeq_nil D).cons hd, valueOf_singleton d, fun _ => Nat.pos_of_ne_zero h0⟩
    · next e fs hcons =>
      rw [← hcons]
      refine ⟨k + 1, Nat.succ_le_succ hk, hseq.cons hd, rfl, fun _ => ?_⟩
      have hpos : 0 < k := by
        rw [hcons] at hseq
        exact hseq.1 ▸ Nat.succ_pos _
      calc base D ^ (k + 1 - 1) = base D * base D ^ (k - 1) := (mul_pow_sub_one hpos.ne' _).symm
        _ ≤ base D * valueOf D (significant es) := Nat.mul_le_mul_left _ (hval ▸ hle hpos)
        _ ≤ d + base D * valueOf D (significant es) := Nat.le_add_left _ _

end

/-! ### Shifting by less than a word -/

section
variable {D s : Nat} (hs : s ≤ D)
include hs

theorem base_eq_mul : base D = 2 ^ (D - s) * 2 ^ s := by rw [base, ← pow_add, Nat.sub_add_cancel hs]

/-- A word shifted left is its low part in place and its high part carried to the next word. -/
theorem shiftLeft_digit {d low : Nat} (hd : d < base D) (hlow : low < 2 ^ s) :
    (d <<< s) % base D + low < base D ∧ d >>> (D - s) < 2 ^ s ∧
      (d <<< s) % base D + base D * (d >>> (D - s)) = d * 2 ^ s := by
  have hbase := base_eq_mul hs
  have hlt : d % 2 ^ (D - s) < 2 ^ (D - s) := Nat.mod_lt _ (Nat.two_pow_pos _)
  rw [Nat.shiftLeft_eq, Nat.shiftRight_eq_div_pow, hbase, Nat.mul_mod_mul_right]
  refine ⟨?_, Nat.div_lt_of_lt_mul (hbase ▸ hd), ?_⟩
  · calc d % 2 ^ (D - s) * 2 ^ s + low < d % 2 ^ (D - s) * 2 ^ s + 2 ^ s := Nat.add_lt_add_left hlow _
      _ = (d % 2 ^ (D - s) + 1) * 2 ^ s := (Nat.succ_mul _ _).symm
      _ ≤ 2 ^ (D - s) * 2 ^ s := Nat.mul_le_mul_right _ hlt
  · have hsplit := Nat.mod_add_div d (2 ^ (D - s))
    conv_rhs => rw [← hsplit]
    ring

/-- Words shifted left stand for the number times `2^s`, modulo the places given. -/
theorem shiftInto_spec {n low : Nat} {ds : List Digit} (hds : ∀ d ∈ ds, d < base D) (hlow : low < 2 ^ s) :
    WordSeq D n (shiftInto D s n ds low) ∧
      valueOf D (shiftInto D s n ds low) ≡ valueOf D ds * 2 ^ s + low [MOD base D ^ n] := by
  induction n generalizing ds low with
  | zero => exact ⟨wordSeq_nil D, by rw [pow_zero]; exact Nat.modEq_one⟩
  | succ n ih =>
    obtain ⟨hdigit, hcarry, hval⟩ := shiftLeft_digit hs (headD_lt hds) hlow
    obtain ⟨hrest, hmod⟩ := ih (fun d hd => hds d (List.mem_of_mem_tail hd)) hcarry
    refine ⟨hrest.cons hdigit, ?_⟩
    rw [shiftInto, valueOf, pow_succ', valueOf_headD_tail D ds]
    refine ((hmod.mul_left' (base D)).add_left _).trans (congrArg (· % _) ?_)
    linear_combination hval

/-- Words shifted right stand for the number divided by `2^s`. -/
theorem shiftDown_spec {n : Nat} {ds : List Digit} (hds : WordSeq D n ds) :
    WordSeq D n (shiftDown D s ds) ∧ valueOf D (shiftDown D s ds) = valueOf D ds / 2 ^ s := by
  induction n generalizing ds with
  | zero =>
    rw [hds.eq_nil]
    exact ⟨wordSeq_nil D, (Nat.zero_div _).symm⟩
  | succ n ih =>
    obtain ⟨d, es, rfl, hd, hes⟩ := hds.exists_cons
    obtain ⟨hrest, hval⟩ := ih hes
    have hbase := base_eq_mul hs
    have hpos := Nat.two_pow_pos s
    have hhigh : (es.headD 0 <<< (D - s)) % base D = valueOf D es % 2 ^ s * 2 ^ (D - s) := by
      rw [Nat.shiftLeft_eq, hbase, Nat.mul_comm (2 ^ (D - s)), Nat.mul_mod_mul_right, valueOf_headD_tail D es, hbase,
        Nat.mul_comm (2 ^ (D - s)), Nat.mul_assoc, Nat.add_mul_mod_self_left]
    rw [shiftDown, hhigh, Nat.shiftRight_eq_div_pow, valueOf, valueOf, hval]
    refine ⟨hrest.cons ?_, ?_⟩
    · have hlow : d / 2 ^ s < 2 ^ (D - s) := Nat.div_lt_of_lt_mul (by rwa [Nat.mul_comm, ← hbase])
      have hmod : valueOf D es % 2 ^ s < 2 ^ s := Nat.mod_lt _ hpos
      calc d / 2 ^ s + valueOf D es % 2 ^ s * 2 ^ (D - s)
          < 2 ^ (D - s) + valueOf D es % 2 ^ s * 2 ^ (D - s) := Nat.add_lt_add_right hlow _
        _ = 2 ^ (D - s) * (valueOf D es % 2 ^ s + 1) := by ring
        _ ≤ 2 ^ (D - s) * 2 ^ s := Nat.mul_le_mul_left _ hmod
        _ = base D := hbase.symm
    · have hsplit := Nat.mod_add_div (valueOf D es) (2 ^ s)
      have hquot : (d + base D * valueOf D es) / 2 ^ s = d / 2 ^ s + 2 ^ (D - s) * valueOf D es := by
        rw [hbase, Nat.mul_comm (2 ^ (D - s)), Nat.mul_assoc, Nat.add_mul_div_left _ _ hpos]
      rw [hquot, hbase]
      conv_rhs => rw [← hsplit]
      ring

end

/-- Shifting by the leading zeros puts the word's top bit in place (listing after R224, normalisation). -/
theorem leadingZeros_spec {D d : Nat} (h0 : d ≠ 0) (hd : d < base D) :
    leadingZeros D d < D ∧ base D ≤ 2 * (d * 2 ^ leadingZeros D d) ∧ d * 2 ^ leadingZeros D d < base D := by
  have hlog : Nat.log2 d < D := (Nat.log2_lt h0).2 hd
  have hlow := Nat.log2_self_le h0
  have hhigh : d < 2 ^ (Nat.log2 d + 1) := Nat.lt_log2_self
  have hbase : base D = 2 ^ (Nat.log2 d + 1) * 2 ^ leadingZeros D d := by
    rw [base, ← pow_add, leadingZeros, Nat.add_sub_cancel' hlog]
  refine ⟨by rw [leadingZeros]; omega, ?_, ?_⟩ <;> rw [hbase]
  · rw [pow_succ', Nat.mul_assoc]
    exact Nat.mul_le_mul_left 2 (Nat.mul_le_mul_right _ hlow)
  · exact Nat.mul_lt_mul_of_pos_right hhigh (Nat.two_pow_pos _)

/-! ### The quotient estimate -/

/-- The correction loop ends at the greatest word whose product with the divisor's top two words is within the window's
top three: fewer rounds than the fuel bring `rh` to BASE, where the test fails. -/
theorem correct_spec {D v1 v2 u2 fuel qh rh : Nat} (hv2 : v2 < base D) (hrh : rh < base D)
    (hfuel : base D ≤ rh + fuel * v1) (hnum : qh * v1 + rh < (v1 + 1) * base D) :
    correct D v1 v2 u2 fuel qh rh < base D ∧
      correct D v1 v2 u2 fuel qh rh * (v1 * base D + v2) ≤ (qh * v1 + rh) * base D + u2 ∧
      ∀ q ≤ qh, q < base D → q * (v1 * base D + v2) ≤ (qh * v1 + rh) * base D + u2 →
        q ≤ correct D v1 v2 u2 fuel qh rh := by
  induction fuel generalizing qh rh with
  | zero => omega
  | succ fuel ih =>
    unfold correct
    split
    · next htest =>
      obtain ⟨k, rfl⟩ : ∃ k, qh = k + 1 := Nat.exists_eq_add_one_of_ne_zero (by
        rintro rfl
        have := base_pos D
        omega)
      have hstep : (k + 1) * v1 + rh = k * v1 + (rh + v1) := by ring
      have hsmaller {q : Nat} (hq : q ≤ k + 1) (hlt : q < base D)
          (hle : q * (v1 * base D + v2) ≤ ((k + 1) * v1 + rh) * base D + u2) : q ≤ k := by
        refine Nat.le_of_lt_succ (lt_of_le_of_ne hq ?_)
        rintro rfl
        have htest' : rh * base D + u2 < (k + 1) * v2 := htest.resolve_left (not_le.2 hlt)
        linarith
      rw [Nat.add_sub_cancel]
      split
      · next hstop =>
        have hk : k < base D := by
          by_contra hge
          have := Nat.mul_le_mul_right v1 (not_lt.1 hge)
          linarith
        refine ⟨hk, ?_, fun q hq hlt hle => hsmaller hq hlt hle⟩
        have hlow := Nat.mul_le_mul hk.le hv2.le
        have hhigh := Nat.mul_le_mul_right (base D) hstop
        linarith
      · next hgo =>
        rw [hstep] at hnum hsmaller ⊢
        obtain ⟨hlt, hle, hmax⟩ := ih (qh := k) (rh := rh + v1) (not_le.1 hgo) (by linarith) hnum
        exact ⟨hlt, hle, fun q hq hql hqle => hmax q (hsmaller hq hql hqle) hql hqle⟩
    · next htest =>
      obtain ⟨hqh, hle⟩ := not_or.1 htest
      exact ⟨not_le.1 hqh, by linarith, fun q hq _ _ => hq⟩

/-- The estimate looks at the divisor's top two words and the window's top three only. -/
theorem estimate_concat {D k : Nat} {vs ws : List Digit} (hvs : WordSeq D k vs) (hws : WordSeq D k ws)
    (v1 v2 w0 w1 w2 : Nat) : estimate D (ws ++ [w2] ++ [w1] ++ [w0]) (vs ++ [v2] ++ [v1]) =
      correct D v1 v2 w2 3 ((w0 * base D + w1) / v1) ((w0 * base D + w1) % v1) := by
  simp [estimate, hvs.1, hws.1]

/-- A divisor with its top bit set has a top word of at least half of BASE, and the window's top two words are less than
BASE times one more than that word. `K` is the place of the divisor's second word. -/
theorem top_bounds {D K V W v1 x : Nat} (hD : 0 < D) (hV : V < K * base D * (v1 + 1))
    (hnorm : K * base D * base D ≤ 2 * V) (hW : K * base D * x ≤ W) (hlt : W < base D * V) :
    base D ≤ 2 * v1 ∧ x < (v1 + 1) * base D := by
  constructor
  · have heven : base D = 2 * 2 ^ (D - 1) := (mul_pow_sub_one hD.ne' 2).symm
    have hlt2 : base D < 2 * (v1 + 1) := by
      refine Nat.lt_of_mul_lt_mul_left (a := K * base D) ?_
      linarith
    omega
  · refine Nat.lt_of_mul_lt_mul_left (a := K * base D) ?_
    calc K * base D * x < base D * V := hW.trans_lt hlt
      _ ≤ base D * (K * base D * (v1 + 1)) := Nat.mul_le_mul_left _ hV.le
      _ = K * base D * ((v1 + 1) * base D) := by ring

/-- A word that is the greatest below `b` with `r * d <= T`, for the numbers `T` and `d` of the top words of `W` and `V`
above the place `K`, is the quotient `W / V` or one more. -/
theorem quotient_le_and_le_add {b K d V W T r : Nat} (hV : K * d ≤ V) (hV' : V < K * (d + 1)) (hW : K * T ≤ W)
    (hW' : W < K * (T + 1)) (hd : b ≤ d) (hlt : W < b * V) (hr : r < b) (hrT : r * d ≤ T)
    (hmax : ∀ q < b, q * d ≤ T → q ≤ r) : W < (r + 1) * V ∧ r * V ≤ W + V := by
  constructor
  · have hpos : 0 < V := Nat.pos_of_mul_pos_left (Nat.zero_lt_of_lt hlt)
    have hq : W / V ≤ r := by
      refine hmax _ (Nat.div_lt_of_lt_mul (by rwa [Nat.mul_comm])) (Nat.le_of_lt_succ ?_)
      refine Nat.lt_of_mul_lt_mul_left (a := K) (lt_of_le_of_lt ?_ hW')
      calc K * (W / V * d) = W / V * (K * d) := by ring
        _ ≤ W / V * V := Nat.mul_le_mul_left _ hV
        _ ≤ W := Nat.div_mul_le_self W V
    exact (Nat.div_lt_iff_lt_mul hpos).1 (Nat.lt_succ_of_le hq)
  · calc r * V ≤ r * (K * (d + 1)) := Nat.mul_le_mul_left _ hV'.le
      _ = K * (r * d) + K * r := by ring
      _ ≤ K * T + K * d := Nat.add_le_add (Nat.mul_le_mul_left _ hrT) (Nat.mul_le_mul_left _ (hr.le.trans hd))
      _ ≤ W + V := Nat.add_le_add hW hV

/-- The estimate is the quotient of the window by the divisor, or one more (listing after R224). -/
theorem estimate_spec {D k : Nat} {W V : List Digit} (hD : 0 < D) (hW : WordSeq D (k + 3) W) (hV : WordSeq D (k + 2) V)
    (hnorm : base D ^ (k + 2) ≤ 2 * valueOf D V) (hlt : valueOf D W < base D * valueOf D V) :
    estimate D W V < base D ∧ valueOf D W < (estimate D W V + 1) * valueOf D V ∧
      estimate D W V * valueOf D V ≤ valueOf D W + valueOf D V := by
  obtain ⟨V1, v1, rfl, hV1, hv1⟩ := hV.exists_concat
  obtain ⟨vs, v2, rfl, hvs, hv2⟩ := hV1.exists_concat
  obtain ⟨W1, w0, rfl, hW1, hw0⟩ := hW.exists_concat
  obtain ⟨W2, w1, rfl, hW2, hw1⟩ := hW1.exists_concat
  obtain ⟨ws, w2, rfl, hws, hw2⟩ := hW2.exists_concat
  rw [estimate_concat hvs hws]
  have hvslt := hvs.valueOf_lt
  have hwslt := hws.valueOf_lt
  have hVval : valueOf D (vs ++ [v2] ++ [v1]) = valueOf D vs + base D ^ k * (v1 * base D + v2) := by
    rw [hV1.valueOf_concat, hvs.valueOf_concat]; ring
  have hWval : valueOf D (ws ++ [w2] ++ [w1] ++ [w0]) =
      valueOf D ws + base D ^ k * ((w0 * base D + w1) * base D + w2) := by
    rw [hW1.valueOf_concat, hW2.valueOf_concat, hws.valueOf_concat]; ring
  have hVlt : valueOf D (vs ++ [v2] ++ [v1]) < base D ^ k * base D * (v1 + 1) := by
    calc valueOf D (vs ++ [v2] ++ [v1]) < base D ^ k * (v1 * base D + v2 + 1) := by rw [hVval, Nat.mul_succ]; omega
      _ ≤ base D ^ k * (v1 * base D + base D) := Nat.mul_le_mul_left _ (Nat.add_le_add_left hv2 _)
      _ = base D ^ k * base D * (v1 + 1) := by ring
  have hWle : base D ^ k * base D * (w0 * base D + w1) ≤ valueOf D (ws ++ [w2] ++ [w1] ++ [w0]) := by
    calc base D ^ k * base D * (w0 * base D + w1) = base D ^ k * ((w0 * base D + w1) * base D) := by ring
      _ ≤ base D ^ k * ((w0 * base D + w1) * base D + w2) := Nat.mul_le_mul_left _ (Nat.le_add_right _ _)
      _ ≤ valueOf D (ws ++ [w2] ++ [w1] ++ [w0]) := hWval ▸ Nat.le_add_left _ _
  obtain ⟨hhalf, hnum⟩ := top_bounds hD hVlt ((pow_succ _ _).symm.trans_le hnorm) hWle hlt
  have hbase := base_pos D
  have hmod : (w0 * base D + w1) % v1 < v1 := Nat.mod_lt _ (by omega)
  have hdivmod := Nat.div_add_mod' (w0 * base D + w1) v1
  obtain ⟨hr, hrT, hmax⟩ := correct_spec (v1 := v1) (u2 := w2) (fuel := 3) (qh := (w0 * base D + w1) / v1) hv2
    (hmod.trans hv1) (by omega) (by rwa [hdivmod])
  rw [hdivmod] at hrT hmax
  have hd : base D ≤ v1 * base D + v2 := (Nat.le_mul_of_pos_left _ (by omega)).trans (Nat.le_add_right _ _)
  refine ⟨hr, quotient_le_and_le_add (K := base D ^ k) (hVval ▸ Nat.le_add_left _ _) ?_ (hWval ▸ Nat.le_add_left _ _)
    ?_ hd hlt hr hrT fun q hq hqT => hmax q ?_ hq hqT⟩
  · rw [hVval, Nat.mul_succ]; omega
  · rw [hWval, Nat.mul_succ]; omega
  · refine (Nat.le_div_iff_mul_le (by omega)).2 (Nat.le_of_lt_succ (Nat.lt_of_mul_lt_mul_left (a := base D) ?_))
    calc base D * (q * v1) = q * (v1 * base D) := by ring
      _ ≤ q * (v1 * base D + v2) := Nat.mul_le_mul_left _ (Nat.le_add_right _ _)
      _ ≤ (w0 * base D + w1) * base D + w2 := hqT
      _ < base D * (w0 * base D + w1 + 1) := by linarith

/-! ### One step -/

/-- A wrapped difference of two Digits and its borrow. -/
theorem sub_digit {D u p : Nat} (hu : u < base D) (hp : p < base D) :
    (u + base D - p) % base D + p = u + base D * (if u < p then 1 else 0) := by
  split
  · next h =>
    have hlt : u + base D - p < base D := by omega
    rw [Nat.mod_eq_of_lt hlt]
    omega
  · next h =>
    have hrep : u + base D - p = u - p + base D := by omega
    have hlt : u - p < base D := by omega
    rw [hrep, Nat.add_mod_right, Nat.mod_eq_of_lt hlt]
    omega

/-- Multiply and subtract: the words and the last borrow stand for the window less the product. -/
theorem mulSub_spec {D n qh borrow : Nat} {us vs : List Digit} (hus : WordSeq D n us) (hvs : vs.length ≤ n) :
    WordSeq D n (mulSub D us vs qh borrow).1 ∧
      valueOf D (mulSub D us vs qh borrow).1 + qh * valueOf D vs + borrow =
        valueOf D us + base D ^ n * (mulSub D us vs qh borrow).2 := by
  induction n generalizing us vs borrow with
  | zero =>
    rw [hus.eq_nil, List.length_eq_zero_iff.1 (Nat.le_zero.1 hvs)]
    exact ⟨wordSeq_nil D, by simp [mulSub, valueOf]⟩
  | succ n ih =>
    obtain ⟨u, us, rfl, hu, hus⟩ := hus.exists_cons
    have htail : vs.tail.length ≤ n := by rw [List.length_tail]; omega
    obtain ⟨p, hp⟩ : ∃ p, p = qh * vs.headD 0 + borrow := ⟨_, rfl⟩
    obtain ⟨hds, hval⟩ := ih (borrow := p / base D + if u < p % base D then 1 else 0) hus htail
    have hdigit := sub_digit hu (Nat.mod_lt p (base_pos D))
    have hprod := Nat.mod_add_div p (base D)
    rw [mulSub, ← hp, valueOf_headD_tail D vs]
    refine ⟨hds.cons (Nat.mod_lt _ (base_pos D)), ?_⟩
    simp only [valueOf, pow_succ']
    linear_combination hdigit + base D * hval - hprod - hp

/-- Add back: the sum's carry out of the window is dropped, which leaves the remainder. -/
theorem addBack_spec {D k r : Nat} {ds V : List Digit} (hds : WordSeq D (k + 3) ds) (hV : WordSeq D (k + 2) V)
    (hr : r < valueOf D V) (hval : valueOf D ds + valueOf D V = r + base D ^ (k + 3)) :
    WordSeq D (k + 2) ((rippleAdd D ds (V ++ [0]) 0).1.take (k + 2)) ∧
      valueOf D ((rippleAdd D ds (V ++ [0]) 0).1.take (k + 2)) = r := by
  obtain ⟨hrs, -, hback⟩ := rippleAdd_spec hds (hV.append ((wordSeq_nil D).cons (base_pos D))) (Nat.zero_le 1)
  rw [hV.valueOf_concat, Nat.mul_zero] at hback
  have hdvd : base D ^ (k + 2) ∣ base D ^ (k + 3) := pow_dvd_pow _ (Nat.le_succ _)
  have hmod : valueOf D (rippleAdd D ds (V ++ [0]) 0).1 ≡ r [MOD base D ^ (k + 2)] :=
    (modEq_of_add_mul hdvd (hback.trans hval)).trans (modEq_of_add_mul (c := 1) hdvd (by rw [Nat.mul_one])).symm
  exact hrs.take_of_lt (Nat.le_succ _) hmod (hr.trans hV.valueOf_lt)

/-- One step of the loop: the quotient word and the remainder of the window (listing after R224). -/
theorem knuthStep_spec {D k : Nat} {W V : List Digit} (hD : 0 < D) (hW : WordSeq D (k + 3) W) (hV : WordSeq D (k + 2) V)
    (hnorm : base D ^ (k + 2) ≤ 2 * valueOf D V) (hlt : valueOf D W < base D * valueOf D V) :
    (knuthStep D W V).1 < base D ∧ WordSeq D (k + 2) (knuthStep D W V).2 ∧
      valueOf D (knuthStep D W V).2 < valueOf D V ∧
      (knuthStep D W V).1 * valueOf D V + valueOf D (knuthStep D W V).2 = valueOf D W := by
  obtain ⟨hqh, hlow, hhigh⟩ := estimate_spec hD hW hV hnorm hlt
  obtain ⟨hds, hval⟩ := mulSub_spec (vs := V) (qh := estimate D W V) (borrow := 0) hW (by have := hV.1; omega)
  have hVlt := hV.valueOf_lt
  have hdslt := hds.valueOf_lt
  rw [Nat.succ_mul] at hlow
  rw [knuthStep, hV.1]
  dsimp only
  generalize estimate D W V = qh at *
  generalize mulSub D W V qh 0 = p at *
  obtain ⟨ds, borrow⟩ := p
  dsimp only at *
  split
  · next h0 =>
    subst h0
    have hsum : qh * valueOf D V + valueOf D ds = valueOf D W := by omega
    have hrem : valueOf D ds < valueOf D V := by omega
    obtain ⟨hseq, htake⟩ := hds.take_of_lt (Nat.le_succ (k + 2)) rfl (hrem.trans hVlt)
    exact ⟨hqh, hseq, by rwa [htake], by rwa [htake]⟩
  · next h0 =>
    have hone : borrow = 1 := by
      have hle : base D ^ (k + 2) ≤ base D ^ (k + 3) := Nat.pow_le_pow_right (base_pos D) (Nat.le_succ _)
      have := Nat.lt_of_mul_lt_mul_left (a := base D ^ (k + 3)) (b := borrow) (c := 2) (by omega)
      omega
    subst hone
    obtain ⟨q, rfl⟩ : ∃ q, qh = q + 1 := Nat.exists_eq_add_one_of_ne_zero (by rintro rfl; omega)
    rw [Nat.succ_mul] at hval hlow hhigh
    obtain ⟨r, hr⟩ : ∃ r, valueOf D W = q * valueOf D V + r := Nat.exists_eq_add_of_le (by omega)
    have hrem : r < valueOf D V := by omega
    obtain ⟨hseq, htake⟩ := addBack_spec hds hV hrem (by omega)
    exact ⟨Nat.lt_of_succ_lt hqh, hseq, by rwa [htake], by rw [htake, hr]; rfl⟩

/-! ### The loop -/

theorem knuthLoop_spec {D k n : Nat} {V low R : List Digit} (hD : 0 < D) (hV : WordSeq D (k + 2) V)
    (hnorm : base D ^ (k + 2) ≤ 2 * valueOf D V) (hlow : WordSeq D n low) (hR : WordSeq D (k + 2) R)
    (hlt : valueOf D R < valueOf D V) :
    WordSeq D n (knuthLoop D V low R).1 ∧ WordSeq D (k + 2) (knuthLoop D V low R).2 ∧
      valueOf D (knuthLoop D V low R).2 < valueOf D V ∧
      valueOf D (knuthLoop D V low R).1 * valueOf D V + valueOf D (knuthLoop D V low R).2 =
        valueOf D low + base D ^ n * valueOf D R := by
  induction n generalizing low with
  | zero =>
    rw [hlow.eq_nil]
    exact ⟨wordSeq_nil D, hR, hlt, by simp [knuthLoop, valueOf]⟩
  | succ n ih =>
    obtain ⟨u, us, rfl, hu, hus⟩ := hlow.exists_cons
    obtain ⟨hqs, hR', hlt', hval⟩ := ih hus
    have hwindow : valueOf D (u :: (knuthLoop D V us R).2) < base D * valueOf D V := by
      rw [valueOf]
      calc u + base D * valueOf D (knuthLoop D V us R).2
          < base D + base D * valueOf D (knuthLoop D V us R).2 := Nat.add_lt_add_right hu _
        _ = base D * (valueOf D (knuthLoop D V us R).2 + 1) := by ring
        _ ≤ base D * valueOf D V := Nat.mul_le_mul_left _ hlt'
    obtain ⟨hq, hrem, hremlt, hstep⟩ := knuthStep_spec hD (hR'.cons hu) hV hnorm hwindow
    refine ⟨hqs.cons hq, hrem, hremlt, ?_⟩
    rw [valueOf] at hstep
    simp only [knuthLoop, valueOf, pow_succ']
    linear_combination hstep + base D * hval

/-! ### The whole division -/

/-- The shifted divisor stands for a multiple of it with the top bit set (listing after R224, normalisation). -/
theorem normalize_spec {D k s : Nat} {B : List Digit} (hB : WordSeq D (k + 1) B) (hle : base D ^ k ≤ valueOf D B)
    (hs : s = leadingZeros D (B.getD k 0)) :
    s < D ∧ WordSeq D (k + 1) (shiftInto D s (k + 1) B 0) ∧
      valueOf D (shiftInto D s (k + 1) B 0) = valueOf D B * 2 ^ s ∧ base D ^ (k + 1) ≤ 2 * (valueOf D B * 2 ^ s) := by
  obtain ⟨es, top, rfl, hes, htop⟩ := hB.exists_concat
  have heslt := hes.valueOf_lt
  have hget : (es ++ [top]).getD k 0 = top := by simp [hes.1]
  rw [hget] at hs
  have h0 : top ≠ 0 := by
    rintro rfl
    rw [hes.valueOf_concat] at hle
    omega
  obtain ⟨hsD, hnorm, hlt⟩ := leadingZeros_spec h0 htop
  rw [← hs] at hsD hnorm hlt
  obtain ⟨hseq, hmod⟩ := shiftInto_spec (n := k + 1) (low := 0) hsD.le hB.2 (Nat.two_pow_pos s)
  have hfit : valueOf D (es ++ [top]) * 2 ^ s < base D ^ (k + 1) := by
    have hbase := base_eq_mul hsD.le
    have htop' : top < 2 ^ (D - s) := Nat.lt_of_mul_lt_mul_right (hbase ▸ hlt)
    calc valueOf D (es ++ [top]) * 2 ^ s < base D ^ k * (top + 1) * 2 ^ s := by
          refine Nat.mul_lt_mul_of_pos_right ?_ (Nat.two_pow_pos s)
          rw [hes.valueOf_concat, Nat.mul_succ]
          omega
      _ ≤ base D ^ k * 2 ^ (D - s) * 2 ^ s := Nat.mul_le_mul_right _ (Nat.mul_le_mul_left _ htop')
      _ = base D ^ (k + 1) := by rw [pow_succ, Nat.mul_assoc, ← hbase]
  refine ⟨hsD, hseq, hmod.eq_of_lt_of_lt hseq.valueOf_lt hfit, ?_⟩
  calc base D ^ (k + 1) ≤ base D ^ k * (2 * (top * 2 ^ s)) := Nat.mul_le_mul_left _ hnorm
    _ ≤ 2 * ((valueOf D es + base D ^ k * top) * 2 ^ s) := by
      have := Nat.zero_le (valueOf D es * 2 ^ s)
      linarith
    _ = _ := by rw [hes.valueOf_concat]

/-- One more word leaves the top bit of a shifted number free. -/
theorem two_mul_shifted_lt {D n s x : Nat} (hx : x < base D ^ n) (hs : s < D) : 2 * (x * 2 ^ s) < base D ^ (n + 1) := by
  calc 2 * (x * 2 ^ s) = x * 2 ^ (s + 1) := by ring
    _ < base D ^ n * 2 ^ (s + 1) := Nat.mul_lt_mul_of_pos_right hx (Nat.two_pow_pos _)
    _ ≤ base D ^ n * base D := Nat.mul_le_mul_left _ (Nat.pow_le_pow_right Nat.two_pos hs)
    _ = base D ^ (n + 1) := (pow_succ _ _).symm

/-- The loop over all words of the shifted dividend, from its top words as the first remainder. -/
theorem knuthLoop_split_spec {D k j : Nat} {U V : List Digit} (hD : 0 < D) (hV : WordSeq D (k + 2) V)
    (hnorm : base D ^ (k + 2) ≤ 2 * valueOf D V) (hU : WordSeq D (j + (k + 2)) U)
    (hlt : 2 * valueOf D U < base D ^ (j + (k + 2))) :
    WordSeq D j (knuthLoop D V (U.take j) (U.drop j)).1 ∧ WordSeq D (k + 2) (knuthLoop D V (U.take j) (U.drop j)).2 ∧
      valueOf D (knuthLoop D V (U.take j) (U.drop j)).1 = valueOf D U / valueOf D V ∧
      valueOf D (knuthLoop D V (U.take j) (U.drop j)).2 = valueOf D U % valueOf D V := by
  obtain ⟨hlow, -⟩ := hU.take (Nat.le_add_right j (k + 2))
  have hhigh := hU.drop j
  rw [Nat.add_sub_cancel_left] at hhigh
  have hsplit : valueOf D (U.take j) + base D ^ j * valueOf D (U.drop j) = valueOf D U := by
    conv_rhs => rw [← List.take_append_drop j U, valueOf_append, hlow.1]
  have hRlt : valueOf D (U.drop j) < valueOf D V := by
    have htop : base D ^ j * (2 * valueOf D (U.drop j)) < base D ^ j * base D ^ (k + 2) := by
      rw [← pow_add]
      linarith
    have := Nat.lt_of_mul_lt_mul_left htop
    omega
  obtain ⟨hq, hr, hrlt, hval⟩ := knuthLoop_spec hD hV hnorm hlow hhigh hRlt
  rw [hsplit] at hval
  obtain ⟨hquot, hrem⟩ := (Nat.div_mod_unique (Nat.zero_lt_of_lt hRlt)).2
    ⟨(Nat.add_comm _ _).trans ((congrArg (· + _) (Nat.mul_comm _ _)).trans hval), hrlt⟩
  exact ⟨hq, hr, hquot.symm, hrem.symm⟩

theorem knuthD_of_lt {D : Nat} {A B : List Digit} (h : (significant A).length < (significant B).length) :
    knuthD D A B = ([], significant A) := if_pos h

/-- With `k + 2` words in the divisor and `j` quotient words the listing is the loop between the two shifts. -/
theorem knuthD_of_le {D j k s : Nat} {A B : List Digit} (hB : (significant B).length = k + 2)
    (hA : (significant A).length + 1 = j + 1 + (k + 2)) (hs : s = leadingZeros D ((significant B).getD (k + 1) 0)) :
    let U := shiftInto D s (j + 1 + (k + 2)) (significant A) 0
    let p := knuthLoop D (shiftInto D s (k + 2) (significant B) 0) (U.take (j + 1)) (U.drop (j + 1))
    knuthD D A B = (p.1, shiftDown D s p.2) := by
  have hle : ¬(significant A).length < k + 2 := by omega
  have hj : (significant A).length - (k + 2) + 1 = j + 1 := by omega
  simp only [knuthD, hB, if_neg hle, hA, hj, Nat.add_one_sub_one, ← hs]

/-- Algorithm D: quotient and remainder by a divisor of at least two significant words. -/
theorem knuthD_spec {D n : Nat} {A B : List Digit} (hD : 0 < D) (hA : WordSeq D n A) (hB : WordSeq D n B)
    (hb : base D ≤ valueOf D B) :
    (∃ k ≤ n, WordSeq D k (knuthD D A B).1) ∧ (∃ k ≤ n, WordSeq D k (knuthD D A B).2) ∧
      valueOf D (knuthD D A B).1 = valueOf D A / valueOf D B ∧
      valueOf D (knuthD D A B).2 = valueOf D A % valueOf D B := by
  obtain ⟨la, hla, hA', hvA, -⟩ := significant_spec hA
  obtain ⟨m, hm, hB', hvB, hBle⟩ := significant_spec hB
  rw [← hvB] at hb hBle
  have htwo : 1 < m := by
    refine (Nat.pow_lt_pow_iff_right (Nat.one_lt_two_pow hD.ne')).1 ?_
    rw [pow_one]
    exact hb.trans_lt hB'.valueOf_lt
  obtain ⟨k, rfl⟩ : ∃ k, m = k + 2 := ⟨m - 2, by omega⟩
  have hle : base D ^ (k + 1) ≤ valueOf D (significant B) := hBle (Nat.succ_pos _)
  rw [← hvA, ← hvB]
  rcases Nat.lt_or_ge la (k + 2) with hshort | hlong
  · have hlt : valueOf D (significant A) < valueOf D (significant B) :=
      hA'.valueOf_lt.trans_le ((Nat.pow_le_pow_right (base_pos D) (Nat.le_of_lt_succ hshort)).trans hle)
    rw [knuthD_of_lt (by rwa [hA'.1, hB'.1])]
    exact ⟨⟨0, Nat.zero_le _, wordSeq_nil D⟩, ⟨la, hla, hA'⟩, (Nat.div_eq_of_lt hlt).symm, (Nat.mod_eq_of_lt hlt).symm⟩
  · obtain ⟨j, rfl⟩ : ∃ j, la = j + (k + 2) := ⟨la - (k + 2), by omega⟩
    obtain ⟨s, hs⟩ : ∃ s, s = leadingZeros D ((significant B).getD (k + 1) 0) := ⟨_, rfl⟩
    obtain ⟨hsD, hV, hvV, hnorm⟩ := normalize_spec hB' hle hs
    have hpos := Nat.two_pow_pos s
    have hfit : 2 * (valueOf D (significant A) * 2 ^ s) < base D ^ (j + 1 + (k + 2)) :=
      (two_mul_shifted_lt hA'.valueOf_lt hsD).trans_eq (by ring)
    obtain ⟨hU, hmod⟩ := shiftInto_spec (n := j + 1 + (k + 2)) (low := 0) hsD.le hA'.2 hpos
    have hvU : valueOf D (shiftInto D s (j + 1 + (k + 2)) (significant A) 0) = valueOf D (significant A) * 2 ^ s :=
      hmod.eq_of_lt_of_lt hU.valueOf_lt (by omega)
    obtain ⟨hq, hr, hquot, hrem⟩ := knuthLoop_split_spec hD hV (hvV.symm ▸ hnorm) hU (by rwa [hvU])
    obtain ⟨hdown, hvdown⟩ := shiftDown_spec hsD.le hr
    rw [hvU, hvV] at hquot hrem
    rw [knuthD_of_le hB'.1 (by rw [hA'.1]; ring) hs]
    refine ⟨⟨j + 1, by omega, hq⟩, ⟨k + 2, hm, hdown⟩, ?_, ?_⟩
    · rw [hquot, Nat.mul_div_mul_right _ _ hpos]
    · rw [hvdown, hrem, Nat.mul_mod_mul_right, Nat.mul_div_cancel _ hpos]

/-- Settles O56: the words of Algorithm D, padded, stand for the quotient and the remainder. -/
theorem longDivisionIsTheQuotient : Obligations.LongDivisionIsTheQuotient := by
  intro D w a b hw ha hb hle
  have hD := DigitBits.bits_pos D
  obtain ⟨hA, hva⟩ := words_spec hD hw ha
  obtain ⟨hB, hvb⟩ := words_spec hD hw hb
  obtain ⟨⟨kq, hkq, hq⟩, ⟨kr, hkr, hr⟩, hquot, hrem⟩ := knuthD_spec hD hA hB (hvb.symm ▸ hle)
  rw [hva, hvb] at hquot hrem
  obtain ⟨hqpad, hvq⟩ := padTo_spec hq hkq
  obtain ⟨hrpad, hvr⟩ := padTo_spec hr hkr
  exact ⟨eq_words_of_valueOf hD hw hqpad (hvq.trans hquot) ((Nat.div_le_self a b).trans_lt ha),
    eq_words_of_valueOf hD hw hrpad (hvr.trans hrem) ((Nat.mod_le a b).trans_lt ha)⟩

/-! ### Unsigned and signed division at word level (42_arithmetic.md R223 to R225) -/

section
variable {D w u v : Nat} (hD : 0 < D) (hw : 1 ≤ w) (hu : u < 2 ^ w) (hv : v < 2 ^ w) (h0 : v ≠ 0)
include hD hw hu hv h0

/-- Both division paths give the words of quotient and remainder. -/
theorem divWords_words : divWords D (ApInt.words D ⟨w, u⟩) (ApInt.words D ⟨w, v⟩) =
    (ApInt.words D ⟨w, u / v⟩, ApInt.words D ⟨w, u % v⟩) := by
  obtain ⟨hA, hvu⟩ := words_spec hD hw hu
  obtain ⟨hB, hvv⟩ := words_spec hD hw hv
  obtain ⟨k, -, hB', hvB, hle⟩ := significant_spec hB
  rw [hvv] at hvB hle
  have hquot : u / v < 2 ^ w := (Nat.div_le_self u v).trans_lt hu
  have hrem : u % v < 2 ^ w := (Nat.mod_le u v).trans_lt hu
  unfold divWords
  split
  · next d hd =>
    rw [hd, valueOf_singleton] at hvB
    subst hvB
    have hpos := Nat.pos_of_ne_zero h0
    have hlt : u % d < base D := (Nat.mod_lt u hpos).trans (hB'.2 d (hd ▸ List.mem_cons_self))
    obtain ⟨hrpad, hvrpad⟩ := padTo_spec ((wordSeq_nil D).cons hlt) (nwords_pos hD hw)
    rw [divSmall_words hD hw hu hpos, hA.1]
    exact Prod.ext rfl (eq_words_of_valueOf hD hw hrpad (hvrpad.trans (valueOf_singleton _)) hrem)
  · next hne =>
    have htwo : base D ≤ v := by
      rcases k with _ | _ | k
      · rw [hB'.eq_nil] at hvB
        exact absurd hvB.symm h0
      · obtain ⟨d, ds, hcons, -, hds⟩ := hB'.exists_cons
        rw [hds.eq_nil] at hcons
        exact absurd hcons (hne d)
      · exact (Nat.le_self_pow (Nat.succ_ne_zero k) _).trans (hle (Nat.succ_pos _))
    obtain ⟨⟨kq, hkq, hq⟩, ⟨kr, hkr, hr⟩, hvq, hvr⟩ := knuthD_spec hD hA hB (hvv.symm ▸ htwo)
    rw [hvu, hvv] at hvq hvr
    obtain ⟨hqpad, hvqpad⟩ := padTo_spec hq hkq
    obtain ⟨hrpad, hvrpad⟩ := padTo_spec hr hkr
    rw [hA.1]
    exact Prod.ext (eq_words_of_valueOf hD hw hqpad (hvqpad.trans hvq) hquot)
      (eq_words_of_valueOf hD hw hrpad (hvrpad.trans hvr) hrem)

end

/-- A UMAG step on the words gives the words of the magnitude. -/
theorem magnitude_words {D : Nat} {a : ApInt} (hD : 0 < D) (hw : 1 ≤ a.w) (hu : a.u < 2 ^ a.w) :
    (if a.signBit then negWords D a.w (a.words D) else a.words D) = ApInt.words D ⟨a.w, a.magnitude⟩ := by
  unfold ApInt.magnitude
  split
  · exact negWords_words hD hw hu
  · rfl

/-- Settles O57: magnitudes, unsigned division and negation at word level are the ones of SDIV and SREM. -/
theorem signedDivisionAtWordLevel : Obligations.SignedDivisionAtWordLevel := by
  intro D a b hw hab hau hbu h0
  have hD := DigitBits.bits_pos D
  refine ⟨negWords_words hD hw hau, ?_⟩
  have hquot : (a.sint.tdiv b.sint % 2 ^ a.w).toNat = signedQuotient a b := by
    rw [← signedQuotient_eq_emod hw hab hau hbu, Int.toNat_natCast]
  have hrem : (a.sint.tmod b.sint % 2 ^ a.w).toNat = signedRemainder a b := by
    rw [← signedRemainder_eq_emod hw hab hau hbu, Int.toNat_natCast]
  have hb := magnitude_words hD (hab ▸ hw) hbu
  have hblt := magnitude_lt (hab ▸ hw) hbu
  rw [← hab] at hb hblt
  have hb0 : b.magnitude ≠ 0 := by
    rw [magnitude_eq_natAbs (hab ▸ hw) hbu]
    exact (natAbs_sint_pos (hab ▸ hw) hbu h0).ne'
  have halt := magnitude_lt hw hau
  rw [hquot, hrem, sdivWords, magnitude_words hD hw hau, hb, divWords_words hD hw halt hblt hb0]
  dsimp only
  rw [negWords_words hD hw ((Nat.div_le_self _ _).trans_lt halt), negWords_words hD hw ((Nat.mod_le _ _).trans_lt halt),
    signedQuotient, signedRemainder, ← apply_ite fun q => ApInt.words D.bits ⟨a.w, q⟩,
    ← apply_ite fun r => ApInt.words D.bits ⟨a.w, r⟩]

end Sys2Proof.Machine

/-! SUPPORT. The bitwise array and the word-and-bit shifter: each gives the words of the value the command
writes (43_bitshift.md R250 to R254, R270). -/

namespace Sys2Proof.Machine

/-! ### The bits of the words (46_host_exchange.md R352) -/

theorem testBit_digit (D u k j : Nat) :
    (u / base D ^ k % base D).testBit j = (decide (j < D) && u.testBit (k * D + j)) := by
  rw [base, ← pow_mul, Nat.testBit_mod_two_pow, Nat.testBit_div_two_pow, Nat.mul_comm, Nat.add_comm]

theorem words_zero (D w : Nat) : ApInt.words D ⟨w, 0⟩ = List.replicate (nwords D w) 0 := by simp [ApInt.words]

/-- Masking the low digits of any number gives the words of the number modulo `2^w` (41_storage_width.md R151). -/
theorem maskTop_words {D w : Nat} (hD : 0 < D) (hw : 1 ≤ w) (v : Nat) :
    maskTop D w (ApInt.words D ⟨w, v⟩) = ApInt.words D ⟨w, v % 2 ^ w⟩ := by
  refine maskTop_eq_words hD hw ⟨words_length D _, words_lt D _⟩ ?_
  rw [ApInt.words, valueOf_map_range]
  exact (Nat.mod_modEq _ _).of_dvd (two_pow_dvd_base_pow hD hw)

theorem mul_two_pow_mod_of_le {w n : Nat} (h : w ≤ n) (u : Nat) : u * 2 ^ n % 2 ^ w = 0 :=
  Nat.mod_eq_zero_of_dvd ((pow_dvd_pow 2 h).mul_left u)

theorem div_two_pow_of_le {w u n : Nat} (hu : u < 2 ^ w) (h : w ≤ n) : u / 2 ^ n = 0 :=
  Nat.div_eq_of_lt (hu.trans_le (Nat.pow_le_pow_right Nat.two_pos h))

/-! ### The bitwise array (43_bitshift.md R250) -/

section
variable {f : Nat → Nat → Nat} {g : Bool → Bool → Bool} (h0 : g false false = false)
  (hf : ∀ x y k, (f x y).testBit k = g (x.testBit k) (y.testBit k))
include h0 hf

/-- A function of the bits that gives 0 for two zero bits sets no bit above its operands. -/
theorem bitwise_lt {w x y : Nat} (hx : x < 2 ^ w) (hy : y < 2 ^ w) : f x y < 2 ^ w := by
  refine Nat.lt_pow_two_of_testBit _ fun k hk => ?_
  have hpow : 2 ^ w ≤ 2 ^ k := Nat.pow_le_pow_right Nat.two_pos hk
  rw [hf, Nat.testBit_lt_two_pow (hx.trans_le hpow), Nat.testBit_lt_two_pow (hy.trans_le hpow), h0]

theorem bitwise_digit (D x y k : Nat) :
    f x y / base D ^ k % base D = f (x / base D ^ k % base D) (y / base D ^ k % base D) := by
  refine Nat.eq_of_testBit_eq fun j => ?_
  rw [hf, testBit_digit, testBit_digit, testBit_digit, hf]
  cases decide (j < D)
  · exact h0.symm
  · rfl

/-- A function of the bits acts on every word alone. -/
theorem words_bitwise (D w x y : Nat) :
    ApInt.words D ⟨w, f x y⟩ = List.zipWith f (ApInt.words D ⟨w, x⟩) (ApInt.words D ⟨w, y⟩) := by
  simp only [ApInt.words, List.zipWith_map, List.zipWith_self, bitwise_digit h0 hf]

end

/-- ORing the digits of a number into the words one by one. -/
theorem words_or_mapIdx (D w x y : Nat) :
    ApInt.words D ⟨w, x ||| y⟩ = (ApInt.words D ⟨w, x⟩).mapIdx fun k d => d ||| y / base D ^ k % base D :=
  List.ext_getElem (by simp) fun k _ _ => by simp [ApInt.words, bitwise_digit (Bool.or_false _) Nat.testBit_or]

/-- Complementing every word and masking gives the words of the complement (43_bitshift.md R254). -/
theorem notWords_words {D w u : Nat} (hD : 0 < D) (hw : 1 ≤ w) (hu : u < 2 ^ w) :
    notWords D w (ApInt.words D ⟨w, u⟩) = ApInt.words D ⟨w, 2 ^ w - 1 - u⟩ := by
  obtain ⟨hA, hva⟩ := words_spec hD hw hu
  obtain ⟨hC, hvc⟩ := complement_spec hA
  have hdvd := two_pow_dvd_base_pow hD hw
  have hlt : 2 ^ w - 1 - u < 2 ^ w := by omega
  have hmod : valueOf D ((ApInt.words D ⟨w, u⟩).map (2 ^ D - 1 - ·)) ≡ 2 ^ w - 1 - u [MOD 2 ^ w] := by
    refine Nat.ModEq.add_right_cancel' (u + 1) ?_
    calc _ = base D ^ nwords D w := by rw [← hvc, hva, Nat.add_assoc]
      _ ≡ 2 ^ w [MOD 2 ^ w] := (Nat.modEq_zero_iff_dvd.2 hdvd).trans (Nat.modEq_zero_iff_dvd.2 dvd_rfl).symm
      _ = 2 ^ w - 1 - u + (u + 1) := by omega
  rw [notWords, maskTop_eq_words hD hw hC hmod, Nat.mod_eq_of_lt hlt]

/-! ### The word-and-bit shifter (43_bitshift.md R270) -/

/-- Bit `p` of a value, 0 for the positions below bit 0. -/
def bitAt (u : Nat) (p : Int) : Bool := decide (0 ≤ p) && u.testBit p.toNat

theorem bitAt_natCast (u p : Nat) : bitAt u p = u.testBit p := by simp [bitAt]

theorem testBit_div_two_pow_eq_bitAt (u n p : Nat) : (u / 2 ^ n).testBit p = bitAt u ((p : Int) + n) := by
  rw [Nat.testBit_div_two_pow, ← bitAt_natCast]; rfl

theorem testBit_mul_two_pow_eq_bitAt (u n p : Nat) : (u * 2 ^ n).testBit p = bitAt u ((p : Int) - n) := by
  rw [Nat.testBit_mul_two_pow, bitAt, Int.toNat_sub]
  exact congrArg (· && _) (decide_eq_decide.2 (by omega))

section
variable {D w u : Nat} (hD : 0 < D) (hw : 1 ≤ w) (hu : u < 2 ^ w)
include hD hw hu

/-- The words outside the sequence are 0, as the bits of the value are (43_bitshift.md R270). -/
theorem wordAt_words_natCast (k : Nat) : wordAt (ApInt.words D ⟨w, u⟩) k = u / base D ^ k % base D := by
  rw [wordAt, if_pos (Int.natCast_nonneg k), Int.toNat_natCast]
  rcases Nat.lt_or_ge k (nwords D w) with hk | hk
  · simp [ApInt.words, hk]
  · have hle : 2 ^ w ≤ base D ^ k :=
      (Nat.le_of_dvd (Nat.pow_pos (base_pos D)) (two_pow_dvd_base_pow hD hw)).trans
        (Nat.pow_le_pow_right (base_pos D) hk)
    rw [List.getD_eq_default _ _ (by simpa using hk), Nat.div_eq_of_lt (hu.trans_le hle), Nat.zero_mod]

/-- Bit `j` of word `k` stands at position `k*D + j`, also where that is outside the value. -/
theorem testBit_wordAt_words (k : Int) (j : Nat) :
    (wordAt (ApInt.words D ⟨w, u⟩) k).testBit j = (decide (j < D) && bitAt u (k * D + j)) := by
  rcases lt_or_ge k 0 with hk | hk
  · have hpos : k * D ≤ -1 * D := Int.mul_le_mul_of_nonneg_right (by omega) (Int.natCast_nonneg D)
    have hout : j < D → ¬ 0 ≤ k * D + j := by omega
    simp +contextual [wordAt, hk.not_ge, bitAt, hout]
  · lift k to Nat using hk
    rw [wordAt_words_natCast hD hw hu, testBit_digit]
    exact congrArg _ (bitAt_natCast u (k * D + j)).symm

theorem wordAt_words_lt (k : Int) : wordAt (ApInt.words D ⟨w, u⟩) k < 2 ^ D :=
  Nat.lt_pow_two_of_testBit _ fun j hj => by simp [testBit_wordAt_words hD hw hu, hj.not_gt]

/-- Two neighbouring words moved down by `m` bits: word 0 of what stands from bit `k*D + m` on (43_bitshift.md R270). -/
theorem testBit_funnel {m : Nat} (hm : m ≤ D) (k : Int) (j : Nat) :
    (wordAt (ApInt.words D ⟨w, u⟩) k >>> m ||| wordAt (ApInt.words D ⟨w, u⟩) (k + 1) <<< (D - m) % base D).testBit j =
      (decide (j < D) && bitAt u (k * D + m + j)) := by
  rw [Nat.testBit_or, Nat.testBit_shiftRight, base, Nat.testBit_mod_two_pow, Nat.testBit_shiftLeft,
    testBit_wordAt_words hD hw hu, testBit_wordAt_words hD hw hu]
  rcases Nat.lt_or_ge (m + j) D with hlow | hhigh
  · have hj : j < D := by omega
    have hout : ¬ D - m ≤ j := by omega
    simp [hlow, hj, hout, add_assoc]
  · have hpos (h : D - m ≤ j) : (k + 1) * D + (j - (D - m) : Nat) = k * D + m + j := by
      push_cast [Nat.cast_sub h, Nat.cast_sub hm]; ring
    rcases Nat.lt_or_ge j D with hj | hj
    · have hin : D - m ≤ j := by omega
      have hlt : j - (D - m) < D := by omega
      rw [hpos hin]
      simp [hhigh.not_gt, hj, hin, hlt]
    · simp [hhigh.not_gt, hj.not_gt]

/-- A word of the left shift is the digit of the shifted value in its place. -/
theorem shl_digit {bs : Nat} (hbs : bs < D) (ws i : Nat) :
    (wordAt (ApInt.words D ⟨w, u⟩) ((i : Int) - ws) <<< bs % base D |||
      if bs = 0 then 0 else wordAt (ApInt.words D ⟨w, u⟩) ((i : Int) - ws - 1) >>> (D - bs)) =
    u * 2 ^ (ws * D + bs) / base D ^ i % base D := by
  have hzero : bs = 0 → 0 = wordAt (ApInt.words D ⟨w, u⟩) ((i : Int) - ws - 1) >>> (D - bs) := by
    rintro rfl
    rw [Nat.shiftRight_eq_div_pow]
    exact (Nat.div_eq_of_lt (wordAt_words_lt hD hw hu _)).symm
  refine Nat.eq_of_testBit_eq fun j => ?_
  have hfunnel := testBit_funnel hD hw hu (Nat.sub_le D bs) ((i : Int) - ws - 1) j
  have hpos : ((i : Int) - ws - 1) * D + (D - bs : Nat) + j = (i * D + j : Nat) - (ws * D + bs : Nat) := by
    push_cast [Nat.cast_sub hbs.le]; ring
  rw [sub_add_cancel, Nat.sub_sub_self hbs.le, hpos] at hfunnel
  rw [ite_eq_right_iff.2 hzero, Nat.or_comm, hfunnel, testBit_digit, testBit_mul_two_pow_eq_bitAt]

/-- A word of the right shift is the digit of the shifted value in its place. -/
theorem lshr_digit {bs : Nat} (hbs : bs < D) (ws i : Nat) :
    (wordAt (ApInt.words D ⟨w, u⟩) ((i : Int) + ws) >>> bs |||
      if bs = 0 then 0 else wordAt (ApInt.words D ⟨w, u⟩) ((i : Int) + ws + 1) <<< (D - bs) % base D) =
    u / 2 ^ (ws * D + bs) / base D ^ i % base D := by
  have hzero : bs = 0 → 0 = wordAt (ApInt.words D ⟨w, u⟩) ((i : Int) + ws + 1) <<< (D - bs) % base D := by
    rintro rfl
    rw [Nat.sub_zero, Nat.shiftLeft_eq]
    exact (Nat.mul_mod_left _ _).symm
  refine Nat.eq_of_testBit_eq fun j => ?_
  have hpos : ((i : Int) + ws) * D + bs + j = (i * D + j : Nat) + (ws * D + bs : Nat) := by push_cast; ring
  rw [ite_eq_right_iff.2 hzero, testBit_funnel hD hw hu hbs.le, hpos, testBit_digit, testBit_div_two_pow_eq_bitAt]

theorem shlWords_words (n : Nat) : shlWords D w n (ApInt.words D ⟨w, u⟩) = ApInt.words D ⟨w, u * 2 ^ n % 2 ^ w⟩ := by
  simp only [shlWords, words_length, bind_pure_comp, List.map_eq_map, List.map_map, Function.comp_def,
    shl_digit hD hw hu (Nat.mod_lt n hD), Nat.div_add_mod']
  exact maskTop_words hD hw _

theorem lshrWords_words (n : Nat) : lshrWords D n (ApInt.words D ⟨w, u⟩) = ApInt.words D ⟨w, u / 2 ^ n⟩ := by
  simp only [lshrWords, words_length, bind_pure_comp, List.map_eq_map, List.map_map, Function.comp_def,
    lshr_digit hD hw hu (Nat.mod_lt n hD), Nat.div_add_mod']
  rfl

theorem shlDatapath_words (n : Nat) :
    shlDatapath D w n (ApInt.words D ⟨w, u⟩) = ApInt.words D ⟨w, u * 2 ^ n % 2 ^ w⟩ := by
  unfold shlDatapath
  split
  · exact shlWords_words hD hw hu n
  · next h => rw [mul_two_pow_mod_of_le (not_lt.1 h), words_zero, words_length]

theorem lshrDatapath_words (n : Nat) :
    lshrDatapath D w n (ApInt.words D ⟨w, u⟩) = ApInt.words D ⟨w, u / 2 ^ n⟩ := by
  unfold lshrDatapath
  split
  · exact lshrWords_words hD hw hu n
  · next h => rw [div_two_pow_of_le hu (not_lt.1 h), words_zero, words_length]

end

/-- Settles O58: word by word the shifter gives the digits of the shifted value; for an amount of at least `w` that
value is 0, and so is every word. -/
theorem wordShifterIsTheShift : Obligations.WordShifterIsTheShift := fun D _ _ n hw ha =>
  ⟨shlDatapath_words (DigitBits.bits_pos D) hw ha n, lshrDatapath_words (DigitBits.bits_pos D) hw ha n⟩

end Sys2Proof.Machine

/-! SUPPORT. AND, OR, XOR, NOT, the shifts and the rotates: the patterns they write, at value level and at word level
(43_bitshift.md R250 to R259, R271). -/

namespace Sys2Proof.Machine

/-! ### AND, OR, XOR, NOT -/

/-- A two-source command that writes a function of the bits of its sources (43_bitshift.md R250). -/
theorem twoSource_bitwise {i : Instr} {s : State} {rd rs1 rs2 : RegNo} {f : Nat → Nat → Nat} {g : Bool → Bool → Bool}
    (h : exec i s = s.finish (sources s rs1 rs2 >>= fun p => pure (writes rd p.1.w (f p.1.u p.2.u)))) (hinv : s.Inv)
    (h0 : g false false = false) (hf : ∀ x y k, (f x y).testBit k = g (x.testBit k) (y.testBit k)) :
    TwoSource i s rs1 rs2 fun a b => ∃ v : ApInt, v.w = a.w ∧ v.u = f a.u b.u ∧
      (∀ k, v.u.testBit k = g (a.u.testBit k) (b.u.testBit k)) ∧
      v.words s.cfg.digitBits.bits =
        List.zipWith f (a.words s.cfg.digitBits.bits) (b.words s.cfg.digitBits.bits) ∧
      WritesReg i s rd (some v) false := by
  refine twoSource_of_exec h fun ⟨w, x⟩ ⟨w', y⟩ ha hb hab h => ?_
  obtain ⟨-, -, hx⟩ := hinv.regs rs1 _ ha
  obtain ⟨-, -, hy⟩ := hinv.regs rs2 _ hb
  cases hab
  exact ⟨⟨w, f x y⟩, rfl, rfl, hf x y, words_bitwise h0 hf _ w x y,
    canon_of_lt (bitwise_lt h0 hf hx hy) ▸ writesReg_of_exec h⟩

/-- Settles O45: AND, OR and XOR are functions of the bits; NOT is what is left up to `2^w - 1`. -/
theorem bitwiseCommands : Obligations.BitwiseCommands := by
  refine ⟨fun rd rs1 rs2 => ⟨spelt_of_wellFormed (i := .and rd rs1 rs2) rfl rfl,
    spelt_of_wellFormed (i := .or rd rs1 rs2) rfl rfl, spelt_of_wellFormed (i := .xor rd rs1 rs2) rfl rfl,
    spelt_of_wellFormed (i := .not rd rs1) rfl rfl⟩, fun s rd rs1 rs2 hinv => ⟨?_, ?_, ?_, ?_⟩⟩
  · exact twoSource_bitwise rfl hinv (Bool.and_false _) Nat.testBit_and
  · exact twoSource_bitwise rfl hinv (Bool.or_false _) Nat.testBit_or
  · exact twoSource_bitwise rfl hinv (bne_self_eq_false _) Nat.testBit_xor
  · refine oneSource_of_exec rfl fun a ha h => ?_
    obtain ⟨hw, -, hu⟩ := hinv.regs rs1 a ha
    have hlt : 2 ^ a.w - 1 - a.u < 2 ^ a.w := by omega
    refine ⟨⟨a.w, 2 ^ a.w - 1 - a.u⟩, rfl, rfl, fun k hk => ?_,
      (notWords_words (DigitBits.bits_pos _) hw hu).symm, canon_of_lt hlt ▸ writesReg_of_exec h⟩
    rw [Nat.sub_sub, Nat.add_comm, Nat.testBit_two_pow_sub_succ hu, decide_eq_true hk, Bool.true_and]

/-! ### SHL, LSHR, ASHR -/

/-- SHL writes the product modulo `2^w` for every amount (43_bitshift.md R255). -/
theorem canon_shlValue (w u n : Nat) : canon w (shlValue w u n) = ⟨w, u * 2 ^ n % 2 ^ w⟩ := by
  refine congrArg (ApInt.mk w) ?_
  unfold shlValue
  split
  · rw [Nat.shiftLeft_eq]
  · next h => rw [mul_two_pow_mod_of_le (not_lt.1 h), Nat.zero_mod]

/-- LSHR's quotient needs no reduction (43_bitshift.md R256). -/
theorem canon_shiftRight {w u : Nat} (hu : u < 2 ^ w) (n : Nat) : canon w (u >>> n) = ⟨w, u / 2 ^ n⟩ := by
  rw [Nat.shiftRight_eq_div_pow]
  exact canon_of_lt ((Nat.div_le_self _ _).trans_lt hu)

/-- A right shift clears the low bits when it is undone. -/
theorem div_mul_two_pow_mod {w u : Nat} (hu : u < 2 ^ w) (n : Nat) :
    u / 2 ^ n * 2 ^ n % 2 ^ w = if n < w then u - u % 2 ^ n else 0 := by
  split
  · rw [Nat.div_mul_self_eq_mod_sub_self, Nat.mod_eq_of_lt ((Nat.sub_le _ _).trans_lt hu)]
  · next h => rw [div_two_pow_of_le hu (not_lt.1 h), Nat.zero_mul, Nat.zero_mod]

/-- ASHR's pattern (43_bitshift.md R257): the bits move down by at most `w`, and copies of the sign bit fill up. -/
def ashrPattern (a : ApInt) (n : Nat) : Nat :=
  a.u / 2 ^ min n a.w ||| if a.signBit then 2 ^ a.w - 2 ^ (a.w - min n a.w) else 0

section
variable {a : ApInt} (hu : a.u < 2 ^ a.w)
include hu

theorem ashrPattern_of_signBit_eq_false (hs : a.signBit = false) (n : Nat) : ashrPattern a n = a.u / 2 ^ n := by
  rw [ashrPattern, hs, if_neg Bool.false_ne_true, Nat.or_zero]
  rcases le_total n a.w with h | h
  · rw [min_eq_left h]
  · rw [min_eq_right h, Nat.div_eq_of_lt hu, div_two_pow_of_le hu h]

theorem ashrPattern_of_signBit (hs : a.signBit = true) (n : Nat) :
    ashrPattern a n = a.u / 2 ^ min n a.w + (2 ^ a.w - 2 ^ (a.w - min n a.w)) := by
  have hsplit : 2 ^ a.w = 2 ^ (a.w - min n a.w) * 2 ^ min n a.w := by
    rw [← pow_add, Nat.sub_add_cancel (min_le_right n a.w)]
  have hlow : a.u / 2 ^ min n a.w < 2 ^ (a.w - min n a.w) := Nat.div_lt_of_lt_mul (by rwa [Nat.mul_comm, ← hsplit])
  have hfill : 2 ^ a.w - 2 ^ (a.w - min n a.w) = 2 ^ (a.w - min n a.w) * (2 ^ min n a.w - 1) := by
    rw [hsplit, Nat.mul_sub_one]
  rw [ashrPattern, if_pos hs, hfill, Nat.or_comm, ← Nat.two_pow_add_eq_or_of_lt hlow, Nat.add_comm]

theorem ashrPattern_lt (n : Nat) : ashrPattern a n < 2 ^ a.w := by
  refine Nat.or_lt_two_pow ((Nat.div_le_self _ _).trans_lt hu) ?_
  have hpos := Nat.two_pow_pos a.w
  have hpos' := Nat.two_pow_pos (a.w - min n a.w)
  split <;> omega

/-- From the BitWidth on only copies of the sign bit are left (43_bitshift.md R257). -/
theorem ashrPattern_of_le {n : Nat} (h : a.w ≤ n) : ashrPattern a n = if a.signBit then 2 ^ a.w - 1 else 0 := by
  rw [ashrPattern, min_eq_right h, Nat.div_eq_of_lt hu, Nat.zero_or, Nat.sub_self, pow_zero]

/-- ASHR's pattern is the signed reading divided by `2^n`, modulo `2^w` (43_bitshift.md R257). -/
theorem natCast_ashrPattern (n : Nat) : (ashrPattern a n : Int) = a.sint / 2 ^ n % 2 ^ a.w := by
  have hlt : (ashrPattern a n : Int) < 2 ^ a.w := by exact_mod_cast ashrPattern_lt hu n
  rw [← Int.emod_eq_of_lt (Int.natCast_nonneg _) hlt]
  cases hs : a.signBit with
  | false =>
    rw [ashrPattern_of_signBit_eq_false hu hs, ApInt.sint, if_neg (ne_true_of_eq_false hs)]
    push_cast
    rfl
  | true =>
    rw [ashrPattern_of_signBit hu hs, ApInt.sint, if_pos hs, Nat.cast_add,
      Nat.cast_sub (Nat.pow_le_pow_right Nat.two_pos (Nat.sub_le _ _))]
    rcases le_total n a.w with h | h
    · have hsplit : (2 : Int) ^ a.w = 2 ^ (a.w - n) * 2 ^ n := by rw [← pow_add, Nat.sub_add_cancel h]
      have hdiv : ((a.u : Int) - 2 ^ a.w) / 2 ^ n = a.u / 2 ^ n - 2 ^ (a.w - n) := by
        rw [hsplit, Int.sub_mul_ediv_right _ _ (by positivity)]
      rw [min_eq_left h, hdiv]
      push_cast
      rw [← add_sub_assoc, add_sub_right_comm, Int.add_emod_right]
    · have hpow : (2 : Int) ^ a.w ≤ 2 ^ n := pow_le_pow_right₀ one_le_two h
      have hu' : (a.u : Int) < 2 ^ a.w := mod_cast hu
      have hdiv : ((a.u : Int) - 2 ^ a.w) / 2 ^ n = -1 := Int.ediv_eq_neg_one_of_neg_of_le (by omega) (by omega)
      rw [min_eq_right h, hdiv, Nat.div_eq_of_lt hu, Nat.sub_self, pow_zero]
      push_cast
      rw [← Int.add_emod_right (-1)]
      exact congrArg (· % _) (by ring)

/-- ASHR writes its pattern (43_bitshift.md R257). -/
theorem canon_ashr (n : Nat) :
    canon a.w ((a.sint >>> n) % (2 ^ a.w : Nat)).toNat = ⟨a.w, ashrPattern a n⟩ := by
  have hval : (a.sint >>> n) % (2 ^ a.w : Nat) = (ashrPattern a n : Int) := by
    rw [natCast_ashrPattern hu, Int.shiftRight_eq_div_pow]
    push_cast
    rfl
  rw [hval, Int.toNat_natCast, canon_of_lt (ashrPattern_lt hu n)]

/-- LSHR's words with the bits above set one by one are the words of ASHR's pattern (43_bitshift.md R257). -/
theorem ashrWords_words {D : Nat} (hD : 0 < D) (hw : 1 ≤ a.w) (n : Nat) :
    ashrWords D a.w n a.signBit (a.words D) = ApInt.words D ⟨a.w, ashrPattern a n⟩ := by
  rw [ashrWords, lshrDatapath_words hD hw hu, ashrPattern]
  split
  · exact (words_or_mapIdx D a.w _ _).symm
  · rw [Nat.or_zero]

end

/-- Behind a VALID source a one-source command is what follows the check (30_encoding.md R100 stage 3). -/
theorem finish_source {s : State} {rs1 : RegNo} {a : ApInt} (ha : s.readX rs1 = some a)
    (g : ApInt → Except CmdError Effect) : s.finish (source s rs1 >>= g) = s.finish (g a) := by
  rw [source_ok.2 ha]; rfl

section
variable {s : State} {rs1 : RegNo} {a : ApInt} (ha : s.readX rs1 = some a)
include ha

theorem exec_shl (rd : RegNo) (imm : Imm) :
    exec (.shl rd rs1 imm) s = s.finish (.ok { reg := some (rd, some ⟨a.w, a.u * 2 ^ imm.toNat % 2 ^ a.w⟩) }) :=
  canon_shlValue a.w a.u imm.toNat ▸ finish_source ha _

theorem exec_lshr (hu : a.u < 2 ^ a.w) (rd : RegNo) (imm : Imm) :
    exec (.lshr rd rs1 imm) s = s.finish (.ok { reg := some (rd, some ⟨a.w, a.u / 2 ^ imm.toNat⟩) }) :=
  canon_shiftRight hu imm.toNat ▸ finish_source ha _

theorem exec_ashr (hu : a.u < 2 ^ a.w) (rd : RegNo) (imm : Imm) :
    exec (.ashr rd rs1 imm) s = s.finish (.ok { reg := some (rd, some ⟨a.w, ashrPattern a imm.toNat⟩) }) :=
  canon_ashr hu imm.toNat ▸ finish_source ha _

end

/-- Settles O46: each command writes its pattern for every amount; after LSHR the product of SHL is the value without
its low bits. -/
theorem shiftCommands : Obligations.ShiftCommands := by
  refine ⟨fun rd rs1 imm => ⟨spelt_of_wellFormed (i := .shl rd rs1 imm) rfl rfl,
    spelt_of_wellFormed (i := .lshr rd rs1 imm) rfl rfl, spelt_of_wellFormed (i := .ashr rd rs1 imm) rfl rfl⟩,
    fun s rd rs1 imm hinv => ⟨?_, ?_, ?_⟩, fun s rt rd rs1 imm a hinv ha => ?_⟩
  · exact oneSource_of_exec rfl fun a ha _ => ⟨⟨a.w, a.u * 2 ^ imm.toNat % 2 ^ a.w⟩, rfl, rfl,
      fun h => mul_two_pow_mod_of_le h a.u, writesReg_of_exec (exec_shl ha rd imm)⟩
  · refine oneSource_of_exec rfl fun a ha _ => ?_
    obtain ⟨-, -, hu⟩ := hinv.regs rs1 a ha
    exact ⟨⟨a.w, a.u / 2 ^ imm.toNat⟩, rfl, rfl, div_two_pow_of_le hu, writesReg_of_exec (exec_lshr ha hu rd imm)⟩
  · refine oneSource_of_exec rfl fun a ha _ => ?_
    obtain ⟨hw, -, hu⟩ := hinv.regs rs1 a ha
    exact ⟨⟨a.w, ashrPattern a imm.toNat⟩, rfl, natCast_ashrPattern hu _, ashrPattern_of_le hu,
      (ashrWords_words hu (DigitBits.bits_pos _) hw _).symm, writesReg_of_exec (exec_ashr ha hu rd imm)⟩
  · obtain ⟨-, -, hu⟩ := hinv.regs rs1 a ha
    obtain ⟨hrt, -⟩ := commit_reg s rt (some ⟨a.w, a.u / 2 ^ imm.toNat⟩) false 0#64
    refine ⟨_, exec_lshr ha hu rt imm, ?_⟩
    rw [← div_mul_two_pow_mod hu imm.toNat]
    exact writesReg_of_exec (exec_shl hrt rd imm)

/-! ### ROL, ROR -/

theorem rolPattern_eq (w u n : Nat) : rolPattern w u n =
    if n % w = 0 then u else u * 2 ^ (n % w) % 2 ^ w ||| u / 2 ^ (w - n % w) := rfl

theorem rorPattern_eq (w u n : Nat) : rorPattern w u n =
    if n % w = 0 then u else u / 2 ^ (n % w) ||| u * 2 ^ (w - n % w) % 2 ^ w := rfl

/-- The amount counts modulo the BitWidth (43_bitshift.md R271). -/
theorem rolPattern_mod (w u n : Nat) : rolPattern w u (n % w) = rolPattern w u n := by
  rw [rolPattern_eq, rolPattern_eq, Nat.mod_mod]

theorem rorPattern_mod (w u n : Nat) : rorPattern w u (n % w) = rorPattern w u n := by
  rw [rorPattern_eq, rorPattern_eq, Nat.mod_mod]

/-- `ror n` is `rol (w - n mod w)` (43_bitshift.md R259). -/
theorem rorPattern_eq_rolPattern {w : Nat} (hw : 1 ≤ w) (u n : Nat) :
    rorPattern w u n = rolPattern w u (w - n % w) := by
  have hr : n % w < w := Nat.mod_lt n hw
  rw [rolPattern_eq, rorPattern_eq]
  split
  · next h => rw [h, Nat.sub_zero, Nat.mod_self, if_pos rfl]
  · next h =>
    rw [Nat.mod_eq_of_lt (by omega : w - n % w < w), if_neg (by omega), Nat.sub_sub_self hr.le, Nat.or_comm]

section
variable {w u : Nat} (hu : u < 2 ^ w)
include hu

theorem rolPattern_lt (n : Nat) : rolPattern w u n < 2 ^ w := by
  rw [rolPattern_eq]
  split
  · exact hu
  · exact Nat.or_lt_two_pow (Nat.mod_lt _ (Nat.two_pow_pos w)) ((Nat.div_le_self _ _).trans_lt hu)

/-- Bit `k` goes to bit `(k + n) mod w` (43_bitshift.md R258): below `w` by the left shift, else by the right one. -/
theorem testBit_rolPattern {k : Nat} (hk : k < w) (n : Nat) :
    (rolPattern w u n).testBit ((k + n) % w) = u.testBit k := by
  have hr : n % w < w := Nat.mod_lt n (by omega)
  rw [← Nat.add_mod_mod, rolPattern_eq]
  split
  · next h => rw [h, Nat.add_zero, Nat.mod_eq_of_lt hk]
  · rw [Nat.testBit_or, Nat.testBit_mod_two_pow, Nat.testBit_mul_two_pow, Nat.testBit_div_two_pow]
    rcases Nat.lt_or_ge (k + n % w) w with h | h
    · have hout : u.testBit (k + n % w + (w - n % w)) = false :=
        Nat.testBit_lt_two_pow (hu.trans_le (Nat.pow_le_pow_right Nat.two_pos (by omega)))
      simp [Nat.mod_eq_of_lt h, h, hout]
    · have hmod : (k + n % w) % w = k + n % w - w := by
        rw [Nat.mod_eq_sub_mod h, Nat.mod_eq_of_lt (by omega)]
      have hout : ¬ n % w ≤ k + n % w - w := by omega
      have hpos : k + n % w - w + (w - n % w) = k := by omega
      simp [hmod, hout, hpos]

/-- ROR reverses what ROL does to the positions (43_bitshift.md R259). -/
theorem testBit_rorPattern {k : Nat} (hk : k < w) (n : Nat) :
    (rorPattern w u n).testBit k = u.testBit ((k + n) % w) := by
  have hw : 1 ≤ w := by omega
  have hr : n % w < w := Nat.mod_lt n hw
  have hback : ((k + n) % w + (w - n % w)) % w = k := by
    have hdiv := Nat.div_add_mod n w
    have hsum : k + n + (w - n % w) = k + w * (n / w + 1) := by rw [Nat.mul_add_one]; omega
    rw [Nat.mod_add_mod, hsum, Nat.add_mul_mod_self_left, Nat.mod_eq_of_lt hk]
  rw [rorPattern_eq_rolPattern hw, ← testBit_rolPattern hu (Nat.mod_lt _ hw) (w - n % w), hback]

/-- ROL's words are the two shifts ORed word by word (43_bitshift.md R258). -/
theorem rolWords_words {D : Nat} (hD : 0 < D) (hw : 1 ≤ w) (n : Nat) :
    rolWords D w n (ApInt.words D ⟨w, u⟩) = ApInt.words D ⟨w, rolPattern w u n⟩ := by
  rw [rolWords, rolPattern_eq]
  split
  · rfl
  · rw [shlWords_words hD hw hu, lshrWords_words hD hw hu,
      words_bitwise (Bool.or_false _) Nat.testBit_or]

end

section
variable {s : State} {rs1 : RegNo} {a : ApInt} (ha : s.readX rs1 = some a) (hu : a.u < 2 ^ a.w)
include ha hu

theorem exec_rol (rd : RegNo) (imm : Imm) :
    exec (.rol rd rs1 imm) s = s.finish (.ok { reg := some (rd, some ⟨a.w, rolPattern a.w a.u imm.toNat⟩) }) :=
  canon_of_lt (rolPattern_lt hu imm.toNat) ▸ finish_source ha _

theorem exec_ror (hw : 1 ≤ a.w) (rd : RegNo) (imm : Imm) :
    exec (.ror rd rs1 imm) s = s.finish (.ok { reg := some (rd, some ⟨a.w, rorPattern a.w a.u imm.toNat⟩) }) := by
  have hlt : rorPattern a.w a.u imm.toNat < 2 ^ a.w := rorPattern_eq_rolPattern hw a.u _ ▸ rolPattern_lt hu _
  exact canon_of_lt hlt ▸ finish_source ha _

end

/-- Settles O47: the rotated pattern bit by bit and word by word, and ROR as the ROL by the rest of the BitWidth. -/
theorem rotateCommands : Obligations.RotateCommands := by
  refine ⟨fun rd rs1 imm => ⟨spelt_of_wellFormed (i := .rol rd rs1 imm) rfl rfl,
    spelt_of_wellFormed (i := .ror rd rs1 imm) rfl rfl⟩, fun s rd rs1 imm hinv => ⟨?_, ?_⟩⟩
  all_goals
    refine oneSource_of_exec rfl fun a ha _ => ?_
    obtain ⟨hw, -, hu⟩ := hinv.regs rs1 a ha
  · exact ⟨⟨a.w, rolPattern a.w a.u imm.toNat⟩, rfl, rolPattern_lt hu _, fun k hk => testBit_rolPattern hu hk _, rfl,
      (rolWords_words hu (DigitBits.bits_pos _) hw _).symm, writesReg_of_exec (exec_rol ha hu rd imm)⟩
  · have hrol := rorPattern_eq_rolPattern hw a.u imm.toNat
    have hlt : a.w < 2 ^ 32 := hinv.toNat_ofNat_width ha ▸ BitVec.isLt _
    have himm : (BitVec.ofNat 32 (a.w - imm.toNat % a.w)).toNat = a.w - imm.toNat % a.w :=
      Nat.mod_eq_of_lt ((Nat.sub_le _ _).trans_lt hlt)
    refine ⟨⟨a.w, rorPattern a.w a.u imm.toNat⟩, rfl, hrol ▸ rolPattern_lt hu _, fun k hk => testBit_rorPattern hu hk _,
      rfl, ?_, writesReg_of_exec (exec_ror ha hu hw rd imm)⟩
    rw [exec_ror ha hu hw, exec_rol ha hu, himm, hrol]

/-! ### Amounts -/

/-- Settles O48: no command checks its amount, and the patterns depend on it as R271 says. -/
theorem anyAmountIsLegal : Obligations.AnyAmountIsLegal := by
  intro s rd rs1 imm a hinv ha
  obtain ⟨hw, -, hu⟩ := hinv.regs rs1 a ha
  have hshl := exec_shl ha rd imm
  have hlshr := exec_lshr ha hu rd imm
  have hashr := exec_ashr ha hu rd imm
  have himm : (BitVec.ofNat 32 (imm.toNat % a.w)).toNat = imm.toNat % a.w :=
    Nat.mod_eq_of_lt ((Nat.mod_le _ _).trans_lt imm.isLt)
  refine ⟨⟨_, writesReg_of_exec hshl⟩, ⟨_, writesReg_of_exec hlshr⟩, ⟨_, writesReg_of_exec hashr⟩,
    ⟨_, writesReg_of_exec (exec_rol ha hu rd imm)⟩, ⟨_, writesReg_of_exec (exec_ror ha hu hw rd imm)⟩, fun h => ?_, ?_,
    ?_⟩
  · rw [mul_two_pow_mod_of_le h] at hshl
    rw [div_two_pow_of_le hu h] at hlshr
    rw [ashrPattern_of_le hu h] at hashr
    exact ⟨writesReg_of_exec hshl, writesReg_of_exec hlshr, writesReg_of_exec hashr⟩
  · rw [exec_rol ha hu, exec_rol ha hu, himm, rolPattern_mod]
  · rw [exec_ror ha hu hw, exec_ror ha hu hw, himm, rorPattern_mod]

end Sys2Proof.Machine

/-! SUPPORT. UCMP, SCMP, ISZERO, ISONES and SIGN: the orders and the tests they answer, at value level and at word level
(44_compare.md R290 to R295). -/

namespace Sys2Proof.Machine

/-! ### Orders (44_compare.md R290) -/

/-- A command that answers the code of an order answers 0, 1 or 2 (44_compare.md R290). -/
theorem writesNothing_of_compare {α : Type} [LinearOrder α] {i : Instr} {s : State} {o : Ordering} {x y : α}
    (h : exec i s = s.finish (.ok (answers (orderCode o)))) (ho : o = compare x y) :
    (x < y → WritesNothing i s false 0) ∧ (x = y → WritesNothing i s false 1) ∧
      (y < x → WritesNothing i s false 2) := by
  have hcode {c : Ordering} (hc : compare x y = c) : WritesNothing i s false (orderCode c) := by
    rw [← hc, ← ho]
    refine writesNothing_of_exec h ?_
    cases o <;> decide
  exact ⟨fun hlt => hcode (compare_lt_iff_lt.2 hlt), fun heq => hcode (compare_eq_iff_eq.2 heq),
    fun hgt => hcode (compare_gt_iff_gt.2 hgt)⟩

/-! ### The unsigned order (44_compare.md R291) -/

theorem unsignedOrder_eq_compare (a b : ApInt) : unsignedOrder a b = compare a.u b.u := rfl

theorem ucmpWords_cons (a b : Digit) (as bs : List Digit) :
    ucmpWords (a :: as) (b :: bs) = (ucmpWords as bs).then (compare a b) := by
  rw [ucmpWords]
  cases ucmpWords as bs <;> rfl

/-- Of two numbers with a lowest word each, the rests decide, and only behind equal rests the lowest words. -/
theorem compare_digit_add {D a b x y : Nat} (ha : a < base D) (hb : b < base D) :
    compare (a + base D * x) (b + base D * y) = (compare x y).then (compare a b) := by
  have below {a b x y : Nat} (ha : a < base D) (hlt : x < y) : a + base D * x < b + base D * y :=
    calc a + base D * x < base D + base D * x := Nat.add_lt_add_right ha _
      _ = base D * (x + 1) := by ring
      _ ≤ base D * y := Nat.mul_le_mul_left _ hlt
      _ ≤ b + base D * y := Nat.le_add_left _ _
  rcases lt_trichotomy x y with h | rfl | h
  · rw [compare_lt_iff_lt.2 h, compare_lt_iff_lt.2 (below ha h)]; rfl
  · rw [compare_eq_iff_eq.2 (rfl : x = x), Ordering.then, ← cmp_eq_compare, ← cmp_eq_compare, cmp_add_right]
  · rw [compare_gt_iff_gt.2 h, compare_gt_iff_gt.2 (below hb h)]; rfl

/-- The first word that differs, from the top down, decides the order of the numbers (44_compare.md R291). -/
theorem ucmpWords_eq_compare {D n : Nat} {A B : List Digit} (hA : WordSeq D n A) (hB : WordSeq D n B) :
    ucmpWords A B = compare (valueOf D A) (valueOf D B) := by
  induction n generalizing A B with
  | zero => rw [hA.eq_nil, hB.eq_nil]; rfl
  | succ n ih =>
    obtain ⟨a, as, rfl, ha, has⟩ := hA.exists_cons
    obtain ⟨b, bs, rfl, hb, hbs⟩ := hB.exists_cons
    rw [ucmpWords_cons, ih has hbs, valueOf, valueOf, compare_digit_add ha hb]

theorem ucmpWords_words {D : Nat} {a b : ApInt} (hD : 0 < D) (hw : 1 ≤ a.w) (hab : a.w = b.w) (hau : a.u < 2 ^ a.w)
    (hbu : b.u < 2 ^ b.w) : ucmpWords (a.words D) (b.words D) = compare a.u b.u := by
  have hA : WordSeq D (nwords D a.w) (a.words D) := ⟨words_length D a, words_lt D a⟩
  have hB : WordSeq D (nwords D a.w) (b.words D) := ⟨hab ▸ words_length D b, words_lt D b⟩
  rw [ucmpWords_eq_compare hA hB, valueOf_words hD hw hau, valueOf_words hD (hab ▸ hw) hbu]

/-! ### The signed order (44_compare.md R292) -/

theorem sint_of_signBit {a : ApInt} (h : a.signBit = true) : a.sint = a.u - 2 ^ a.w := if_pos h

theorem sint_of_signBit_eq_false {a : ApInt} (h : a.signBit = false) : a.sint = a.u :=
  if_neg (ne_true_of_eq_false h)

/-- The sign bit is the sign of the signed reading (44_compare.md R295). -/
theorem signBit_iff_sint_neg {a : ApInt} (hu : a.u < 2 ^ a.w) : a.signBit = true ↔ a.sint < 0 := by
  have hu' : (a.u : Int) < 2 ^ a.w := mod_cast hu
  cases hs : a.signBit with
  | false => rw [sint_of_signBit_eq_false hs]; simp
  | true => rw [sint_of_signBit hs]; simp [hu']

section
variable {a b : ApInt}

/-- A negative value orders before one that is not negative. -/
theorem sint_lt_of_signBit (hu : a.u < 2 ^ a.w) (ha : a.signBit = true) (hb : b.signBit = false) : a.sint < b.sint := by
  have hneg := (signBit_iff_sint_neg hu).1 ha
  rw [sint_of_signBit_eq_false hb]
  omega

/-- With equal signs the signed readings are as far apart as the patterns. -/
theorem sint_sub_sint (hab : a.w = b.w) (hs : a.signBit = b.signBit) : a.sint - b.sint = a.u - b.u := by
  rw [ApInt.sint, ApInt.sint, hs, hab]
  split
  · exact sub_sub_sub_cancel_right _ _ _
  · rfl

/-- With equal signs the order of the signed readings is the one of the patterns. -/
theorem sint_lt_sint_iff (hab : a.w = b.w) (hs : a.signBit = b.signBit) : a.sint < b.sint ↔ a.u < b.u := by
  have hsub := sint_sub_sint hab hs
  omega

theorem compare_sint (hab : a.w = b.w) (hs : a.signBit = b.signBit) : compare a.sint b.sint = compare a.u b.u := by
  rcases lt_trichotomy a.u b.u with h | h | h
  · rw [compare_lt_iff_lt.2 h, compare_lt_iff_lt.2 ((sint_lt_sint_iff hab hs).2 h)]
  · have hsub := sint_sub_sint hab hs
    rw [compare_eq_iff_eq.2 h, compare_eq_iff_eq.2 (by omega)]
  · rw [compare_gt_iff_gt.2 h, compare_gt_iff_gt.2 ((sint_lt_sint_iff hab.symm hs.symm).2 h)]

/-- The sign bits first, then the patterns: the order of the signed readings (44_compare.md R292). -/
theorem signedOrder_eq_compare (hab : a.w = b.w) (hau : a.u < 2 ^ a.w) (hbu : b.u < 2 ^ b.w) :
    signedOrder a b = compare a.sint b.sint := by
  unfold signedOrder
  split
  · next ha hb => exact (compare_lt_iff_lt.2 (sint_lt_of_signBit hau ha hb)).symm
  · next ha hb => exact (compare_gt_iff_gt.2 (sint_lt_of_signBit hbu hb ha)).symm
  · next hlt hgt =>
    have hs : a.signBit = b.signBit := Bool.eq_iff_iff.2
      ⟨fun ha => eq_true_of_ne_false (hlt ha), fun hb => eq_true_of_ne_false fun ha => hgt ha hb⟩
    rw [compare_sint hab hs, unsignedOrder_eq_compare]

end

/-- Settles O49: behind the checks of the sources each command answers the code of its order. -/
theorem compareCommands : Obligations.CompareCommands := by
  refine ⟨fun rs1 rs2 => ⟨spelt_of_wellFormed (i := .ucmp rs1 rs2) rfl rfl,
    spelt_of_wellFormed (i := .scmp rs1 rs2) rfl rfl⟩, fun s rs1 rs2 hinv => ⟨?_, ?_⟩⟩
  all_goals
    refine twoSource_of_exec rfl fun a b ha hb hab h => ?_
    obtain ⟨hw, -, hau⟩ := hinv.regs rs1 a ha
    obtain ⟨-, -, hbu⟩ := hinv.regs rs2 b hb
  · obtain ⟨hlt, heq, hgt⟩ := writesNothing_of_compare h (unsignedOrder_eq_compare a b)
    exact ⟨hlt, heq, hgt, ucmpWords_words (DigitBits.bits_pos _) hw hab hau hbu⟩
  · obtain ⟨hlt, heq, hgt⟩ := writesNothing_of_compare h (signedOrder_eq_compare hab hau hbu)
    exact ⟨hlt, heq, hgt, sint_lt_of_signBit hau, sint_lt_sint_iff hab⟩

/-! ### The tests (44_compare.md R293 to R295) -/

/-- Values of one BitWidth are equal exactly if their words are. -/
theorem words_inj {D w u v : Nat} (hD : 0 < D) (hw : 1 ≤ w) (hu : u < 2 ^ w) (hv : v < 2 ^ w) :
    ApInt.words D ⟨w, u⟩ = ApInt.words D ⟨w, v⟩ ↔ u = v := by
  refine ⟨fun h => ?_, fun h => h ▸ rfl⟩
  rw [← (words_spec hD hw hu).2, h, (words_spec hD hw hv).2]

theorem isZeroWords_iff (A : List Digit) : isZeroWords A = true ↔ A = List.replicate A.length 0 := by
  simp [isZeroWords, List.eq_replicate_iff]

theorem isOnesWords_concat (D w : Nat) (d : Digit) :
    ∀ ds : List Digit, isOnesWords D w (ds ++ [d]) = (ds.all (· == base D - 1) && d == topmask D w)
  | [] => rfl
  | [_] => by simp [isOnesWords]
  | e :: f :: ds =>
    (congrArg (e == base D - 1 && ·) (isOnesWords_concat D w d (f :: ds))).trans (Bool.and_assoc _ _ _).symm

section
variable {D w u : Nat} (hD : 0 < D) (hw : 1 ≤ w) (hu : u < 2 ^ w)
include hD hw

/-- The words of the greatest pattern: all ones below the top, `topmask(w)` on top (44_compare.md R294). -/
theorem words_allOnes :
    ApInt.words D ⟨w, 2 ^ w - 1⟩ = List.replicate (nwords D w - 1) (base D - 1) ++ [topmask D w] := by
  have hbase := base_pos D
  have htop : topmask D w < base D := by
    have hle : 2 ^ topBits D w ≤ base D := Nat.pow_le_pow_right Nat.two_pos (topBits_bounds hD hw).2
    rw [topmask_eq hD hw]
    omega
  have hseq := (wordSeq_replicate (Nat.sub_one_lt hbase.ne') (nwords D w - 1)).append ((wordSeq_nil D).cons htop)
  have hones : valueOf D (List.replicate (nwords D w - 1) (base D - 1)) + 1 = _ := valueOf_replicate_ones _
  have hval : valueOf D (List.replicate (nwords D w - 1) (base D - 1) ++ [topmask D w]) = 2 ^ w - 1 := by
    rw [valueOf_append, valueOf_singleton, List.length_replicate, topmask_eq hD hw, two_pow_eq_base_pow_mul hD hw,
      Nat.mul_sub_one]
    have hle := Nat.le_mul_of_pos_right (base D ^ (nwords D w - 1)) (Nat.two_pow_pos (topBits D w))
    omega
  rw [Nat.zero_add, Nat.sub_add_cancel (nwords_pos hD hw)] at hseq
  exact (eq_words_of_valueOf hD hw hseq hval (Nat.sub_one_lt (Nat.two_pow_pos w).ne')).symm

/-- Bit `w - 1` is bit `(w - 1) mod D` of the top word (44_compare.md R295). -/
theorem signWords_words (u : Nat) : signWords D w (ApInt.words D ⟨w, u⟩) = u.testBit (w - 1) := by
  have hn : nwords D w - 1 = (w - 1) / D := by
    rw [nwords, Nat.sub_add_comm hw, Nat.add_div_right _ hD, Nat.add_one_sub_one]
  rw [signWords, words_getLast? (nwords_pos hD hw), Option.getD_some, testBit_digit, hn, Nat.div_add_mod',
    decide_eq_true (Nat.mod_lt _ hD), Bool.true_and]

include hu

theorem isZeroWords_words : isZeroWords (ApInt.words D ⟨w, u⟩) = decide (u = 0) := by
  rw [Bool.eq_iff_iff, isZeroWords_iff, words_length, ← words_zero, words_inj hD hw hu (Nat.two_pow_pos w),
    decide_eq_true_iff]

theorem isOnesWords_words : isOnesWords D w (ApInt.words D ⟨w, u⟩) = decide (u = 2 ^ w - 1) := by
  obtain ⟨es, d, hds, hes⟩ := exists_concat_of_length_eq_nwords hD hw (words_length D ⟨w, u⟩)
  rw [Bool.eq_iff_iff, decide_eq_true_iff, ← words_inj hD hw hu (Nat.sub_one_lt (Nat.two_pow_pos w).ne'),
    words_allOnes hD hw, hds, isOnesWords_concat, List.append_singleton_inj]
  simp [List.eq_replicate_iff, hes]

end

/-- Settles O50: each flag is the test of the pattern, and the words give the same answer. -/
theorem testCommands : Obligations.TestCommands := by
  refine ⟨fun rs1 => ⟨spelt_of_wellFormed (i := .iszero rs1) rfl rfl, spelt_of_wellFormed (i := .isones rs1) rfl rfl,
    spelt_of_wellFormed (i := .sign rs1) rfl rfl⟩, fun s rs1 hinv => ⟨?_, ?_, ?_⟩⟩
  all_goals
    have hD := DigitBits.bits_pos s.cfg.digitBits
    refine oneSource_of_exec rfl fun a ha h => ?_
    obtain ⟨hw, -, hu⟩ := hinv.regs rs1 a ha
    refine ⟨writesNothing_of_exec h (by decide), ?_⟩
  · exact isZeroWords_words hD hw hu
  · exact isOnesWords_words hD hw hu
  · exact ⟨signWords_words hD hw a.u, signBit_iff_sint_neg hu⟩

end Sys2Proof.Machine

/-! SUPPORT. FROMPRIM and TOPRIM, and the characters of digit strings (45_convert_radix.md R310, R311, R321). -/

namespace Sys2Proof.Machine

/-! ### A command behind a check (30_encoding.md R100) -/

section
variable {i : Instr} {s : State} {α : Type} {x : Except CmdError α} {g : α → Except CmdError Effect}
  (h : exec i s = s.finish (x >>= g))
include h

theorem fails_of_error {e : CmdError} (hx : x = .error e) : Fails i s e := by
  subst hx
  exact fails_of_exec h

theorem exec_of_ok {v : α} (hx : x = .ok v) : exec i s = s.finish (g v) := by
  subst hx
  exact h

end

theorem writesMemory_of_exec {i : Instr} {s : State} {m : Memory} {data : Nat}
    (h : exec i s = s.finish (.ok { xbuf := some m, data := BitVec.ofNat 64 data })) (hd : data < 2 ^ 64) :
    WritesMemory i s m data := by
  have hdata : (BitVec.ofNat 64 data).toNat = data := Nat.mod_eq_of_lt hd
  have hc := commit_memory s m (BitVec.ofNat 64 data)
  rw [hdata] at hc
  exact ⟨_, h, hc⟩

/-! ### FROMPRIM, TOPRIM -/

/-- A primitive fits the 64 bits of the data word and of the response's data (30_encoding.md R97). -/
theorem two_pow_PW_le (pw : PrimWidth) : 2 ^ PW pw ≤ 2 ^ 64 := by cases pw <;> decide

section
variable {w : Nat} {pw : PrimWidth} (cdata : Word64)

theorem primValue_of_le (h : w ≤ PW pw) (sgn : Signedness) : primValue w sgn pw cdata = cdata.toNat % 2 ^ PW pw :=
  if_pos h

theorem primValue_unsigned (h : PW pw < w) : primValue w .unsigned pw cdata = cdata.toNat % 2 ^ PW pw :=
  if_neg (Nat.not_le.2 h)

theorem primValue_signed (h : PW pw < w) :
    primValue w .signed pw cdata = sextTo w (cdata.toNat % 2 ^ PW pw) (PW pw) :=
  if_neg (Nat.not_le.2 h)

/-- An extended primitive is below `2^w`. -/
theorem primValue_lt (h : PW pw < w) (sgn : Signedness) : primValue w sgn pw cdata < 2 ^ w := by
  have hp : cdata.toNat % 2 ^ PW pw < 2 ^ PW pw := Nat.mod_lt _ (Nat.two_pow_pos _)
  cases sgn with
  | unsigned => rw [primValue_unsigned cdata h]; exact hp.trans (Nat.pow_lt_pow_right Nat.one_lt_two h)
  | signed => rw [primValue_signed cdata h]; exact sextTo_lt (a := ⟨PW pw, _⟩) hp h.le

end

/-- Settles O34: the canonicalised primitive, which is the extended one itself where the BitWidth has room for it. -/
theorem fromprimBuildsTheValue : Obligations.FromprimBuildsTheValue := by
  refine ⟨fun rd sgn pw imm v => spelt_of_wellFormed (i := .fromprim rd sgn pw imm v) rfl rfl,
    fun s rd sgn pw imm v => widthChecked_of_exec rfl fun _ _ h =>
      ⟨_, rfl, writesReg_of_exec h, fun hle => ?_, fun hlt hs => ?_, fun hlt hs => ?_⟩⟩
  · rw [canon, primValue_of_le v hle]
  · rw [canon, Nat.mod_eq_of_lt (primValue_lt v hlt sgn), hs, primValue_unsigned v hlt]
  · rw [canon, Nat.mod_eq_of_lt (primValue_lt v hlt sgn), hs, primValue_signed v hlt, sextTo]

/-- A TOPRIM that passes the range test answers its number, which fits the response's data. -/
theorem writesNothing_of_primOf {s : State} {rs1 : RegNo} {sgn : Signedness} {pw : PrimWidth} {a : ApInt} {v : Nat}
    (h : exec (.toprim rs1 sgn pw) s = s.finish (primOf sgn pw a >>= fun v => pure (answers v)))
    (hv : primOf sgn pw a = .ok v) (hlt : v < 2 ^ PW pw) : WritesNothing (.toprim rs1 sgn pw) s false v :=
  writesNothing_of_exec (exec_of_ok h hv) (hlt.trans_le (two_pow_PW_le pw))

/-- Settles O35: the range test on the reading asked for; a BitWidth of at most `PW` bounds both readings. -/
theorem toprimAnswersTheValueOrFails : Obligations.ToprimAnswersTheValueOrFails := by
  refine ⟨fun rs1 sgn pw => spelt_of_wellFormed (i := .toprim rs1 sgn pw) rfl rfl, fun s rs1 pw hinv => ⟨?_, ?_⟩⟩
  all_goals
    refine oneSource_of_exec rfl fun a ha h => ?_
    obtain ⟨hw, -, hu⟩ := hinv.regs rs1 a ha
  · have hok : a.u < 2 ^ PW pw → WritesNothing (.toprim rs1 .unsigned pw) s false a.u := fun hlt =>
      writesNothing_of_primOf h (if_neg (Nat.not_le.2 hlt)) hlt
    exact ⟨fun hle => fails_of_error h (if_pos hle), hok,
      fun hle => hok (hu.trans_le (Nat.pow_le_pow_right Nat.two_pos hle))⟩
  · have hok : -(2 ^ (PW pw - 1)) ≤ a.sint → a.sint < 2 ^ (PW pw - 1) →
        WritesNothing (.toprim rs1 .signed pw) s false (a.sint % 2 ^ PW pw).toNat := fun hl hlt =>
      have hpos : (0 : Int) < 2 ^ PW pw := by positivity
      have hmod := Int.emod_lt_of_pos a.sint hpos
      writesNothing_of_primOf h (if_neg (not_or.2 ⟨not_lt.2 hl, not_le.2 hlt⟩)) (by zify; omega)
    refine ⟨fun hbad => fails_of_error h (if_pos hbad), hok, fun hle => ?_⟩
    have hhalf : (2 : Int) ^ (a.w - 1) ≤ 2 ^ (PW pw - 1) := pow_le_pow_right₀ (by decide) (Nat.sub_le_sub_right hle 1)
    obtain ⟨hl, hlt⟩ := sint_bounds hw hu
    exact hok (by omega) (by omega)

/-! ### The characters (45_convert_radix.md R321) -/

theorem validDigit_iff {radix : Nat} {c : Digit} :
    ValidDigit radix c ↔ digitval c ≠ none ∧ (digitval c).getD 0 < radix := by
  unfold ValidDigit
  cases digitval c <;> simp

theorem digitval_digitChar : ∀ v < 36, digitval (digitChar v) = some v := by decide

theorem digitChar_not_upperCase : ∀ v < 36, ¬(0x41 ≤ digitChar v ∧ digitChar v ≤ 0x5A) := by decide

/-- Only the digit 0 is written `0`. -/
theorem digitChar_ne_zeroChar {v : Nat} (h : v ≠ 0) : digitChar v ≠ 0x30 := by
  unfold digitChar
  split
  · exact (by omega : 0x30 + v ≠ 0x30)
  · exact (by omega : 0x61 + (v - 10) ≠ 0x30)

/-- Settles O36: the three ranges of characters are disjoint, and a digit below 36 is written from the first two. -/
theorem digitCharactersHaveTheirValues : Obligations.DigitCharactersHaveTheirValues := by
  refine ⟨fun c => ⟨fun hl hu => if_pos ⟨hl, hu⟩, fun hl hu => ?_, fun hl hu => ?_, fun h0 h1 h2 => ?_⟩,
    fun _ _ => validDigit_iff, fun v hv => ⟨digitval_digitChar v hv, digitChar_not_upperCase v hv⟩, rfl⟩
  · rw [digitval, if_neg fun ⟨_, h⟩ => absurd (hl.trans h) (by decide), if_pos ⟨hl, hu⟩]
  · rw [digitval, if_neg fun ⟨_, h⟩ => absurd (hl.trans h) (by decide),
      if_neg fun ⟨h, _⟩ => absurd (h.trans hu) (by decide), if_pos ⟨hl, hu⟩]
  · rw [digitval, if_neg h0, if_neg h1, if_neg h2]

end Sys2Proof.Machine

/-! SUPPORT. The digit string of a number, PARSE's checks and value, FORMAT's text, and the round trip
(45_convert_radix.md R322, R323, R327). -/

namespace Sys2Proof.Machine

/-! ### The digit string of a number (45_convert_radix.md R323) -/

theorem digitsLoop_zero (radix fuel : Nat) (acc : List Digit) : digitsLoop radix fuel 0 acc = acc := by
  cases fuel <;> rfl

/-- With enough fuel the loop writes the digits of the number, most significant first. -/
theorem digitsLoop_eq {radix : Nat} (hr : 1 < radix) {fuel m : Nat} (h : m < radix ^ fuel) (acc : List Digit) :
    digitsLoop radix fuel m acc = ((Nat.digits radix m).map digitChar).reverse ++ acc := by
  induction fuel generalizing m acc with
  | zero =>
    obtain rfl : m = 0 := by simpa using h
    rw [digitsLoop_zero, Nat.digits_zero]; rfl
  | succ fuel ih =>
    rw [digitsLoop]
    split
    · next h0 => rw [h0, Nat.digits_zero]; rfl
    · next h0 =>
      rw [ih (Nat.div_lt_of_lt_mul (pow_succ' radix fuel ▸ h)), Nat.digits_def' hr (Nat.pos_of_ne_zero h0)]
      simp

theorem digits_zero (radix : Nat) : digits 0 radix = [0x30] := rfl

theorem digits_of_ne_zero {m radix : Nat} (hr : 1 < radix) (h : m ≠ 0) :
    digits m radix = ((Nat.digits radix m).map digitChar).reverse := by
  rw [digits, if_neg h, digitsLoop_eq hr (Nat.lt_pow_self hr), List.append_nil]

/-- The characters of digits, most significant first, stand for the number of the digits. -/
theorem textValue_reverse_map_digitChar (radix : Nat) {ds : List Nat} (h : ∀ d ∈ ds, d < 36) :
    textValue radix (ds.map digitChar).reverse = Nat.ofDigits radix ds := by
  rw [textValue, List.foldl_reverse]
  induction ds with
  | nil => rfl
  | cons d ds ih =>
    obtain ⟨hd, hds⟩ := List.forall_mem_cons.1 h
    rw [List.map_cons, List.foldr_cons, ih hds, digitval_digitChar d hd, Nat.ofDigits_cons, Option.getD_some,
      Nat.mul_comm, Nat.add_comm]

section
variable {radix : Nat} (hr : 2 ≤ radix) (hr' : radix ≤ 36) (m : Nat)
include hr

theorem digits_ne_nil : digits m radix ≠ [] := by
  rcases eq_or_ne m 0 with rfl | h
  · exact List.cons_ne_nil _ _
  · rw [digits_of_ne_zero hr h]
    simpa [Nat.digits_eq_nil_iff_eq_zero] using h

/-- Only `0` is written with a leading `0`. -/
theorem head?_digits {m : Nat} (h : m ≠ 0) : ∃ c, (digits m radix).head? = some c ∧ c ≠ 0x30 := by
  have hnil := Nat.digits_ne_nil_iff_ne_zero (b := radix).2 h
  refine ⟨digitChar ((Nat.digits radix m).getLast hnil), ?_, digitChar_ne_zeroChar (Nat.getLast_digit_ne_zero radix h)⟩
  rw [digits_of_ne_zero hr h, List.head?_reverse, List.getLast?_map, List.getLast?_eq_getLast_of_ne_nil hnil]
  rfl

include hr'

/-- Each character is a digit of the radix, a letter in lower case. -/
theorem mem_digits {c : Digit} (hc : c ∈ digits m radix) : ValidDigit radix c ∧ ¬(0x41 ≤ c ∧ c ≤ 0x5A) := by
  have hchar : ∃ v < radix, digitChar v = c := by
    rcases eq_or_ne m 0 with rfl | h
    · exact ⟨0, by omega, (List.mem_singleton.1 hc).symm⟩
    · rw [digits_of_ne_zero hr h, List.mem_reverse, List.mem_map] at hc
      exact hc.imp fun v hv => ⟨Nat.digits_lt_base hr hv.1, hv.2⟩
  obtain ⟨v, hv, rfl⟩ := hchar
  exact ⟨⟨v, digitval_digitChar v (hv.trans_le hr'), hv⟩, digitChar_not_upperCase v (hv.trans_le hr')⟩

/-- The digit string stands for its number (45_convert_radix.md R322, R323). -/
theorem textValue_digits : textValue radix (digits m radix) = m := by
  rcases eq_or_ne m 0 with rfl | h
  · simp [digits_zero, textValue, digitval]
  · rw [digits_of_ne_zero hr h,
      textValue_reverse_map_digitChar radix fun d hd => (Nat.digits_lt_base hr hd).trans_le hr', Nat.ofDigits_digits]

theorem isDigitsOf_digits : IsDigitsOf radix m (digits m radix) :=
  ⟨fun h => h ▸ digits_zero radix,
    fun h => ⟨fun _ hc => mem_digits hr hr' m hc, head?_digits hr h, textValue_digits hr hr' m⟩⟩

end

/-! ### PARSE (45_convert_radix.md R322) -/

/-- Digits of the radix accumulate to the number they stand for. -/
theorem parseDigits_of_forall {radix : Nat} {cs : List Digit} (h : ∀ c ∈ cs, ValidDigit radix c) (V : Nat) :
    parseDigits radix cs V = .ok (cs.foldl (fun V c => V * radix + (digitval c).getD 0) V) := by
  induction cs generalizing V with
  | nil => rfl
  | cons c cs ih =>
    obtain ⟨⟨v, hv, hlt⟩, hcs⟩ := List.forall_mem_cons.1 h
    simp only [parseDigits, hv, if_neg (Nat.not_le.2 hlt), ih hcs, List.foldl_cons, Option.getD_some]

/-- A character that is no digit of the radix ends the accumulation, wherever it stands. -/
theorem parseDigits_of_exists {radix : Nat} {cs : List Digit} (h : ∃ c ∈ cs, ¬ValidDigit radix c) (V : Nat) :
    parseDigits radix cs V = .error .invalidDigitForRadix := by
  induction cs generalizing V with
  | nil => simp at h
  | cons c cs ih =>
    rw [parseDigits]
    split
    · rfl
    · next v hv =>
      split
      · rfl
      · next hlt =>
        exact ih (((List.exists_mem_cons_iff _ _ _).1 h).resolve_left fun hc => hc ⟨v, hv, Nat.not_le.1 hlt⟩) _

/-- The digits of a text, without the sign PARSE accepts. -/
def unsignedPart (neg : Bool) (t : List Digit) : List Digit := if neg then t.drop 1 else t

theorem parseMagnitude_of_invalid {radix : Nat} {neg : Bool} {t : List Digit}
    (h : unsignedPart neg t = [] ∨ ∃ c ∈ unsignedPart neg t, ¬ValidDigit radix c) :
    parseMagnitude radix neg t = .error .invalidDigitForRadix := by
  by_cases h0 : unsignedPart neg t = []
  · exact if_pos h0
  · exact (if_neg h0).trans (parseDigits_of_exists (h.resolve_left h0) 0)

theorem parseMagnitude_of_valid {radix : Nat} {neg : Bool} {t : List Digit} (h0 : unsignedPart neg t ≠ [])
    (h : ∀ c ∈ unsignedPart neg t, ValidDigit radix c) :
    parseMagnitude radix neg t = .ok (textValue radix (unsignedPart neg t)) :=
  (if_neg h0).trans (parseDigits_of_forall h 0)

/-- The pattern of an accepted number (45_convert_radix.md R322). -/
def parsedPattern (w : Nat) (neg : Bool) (V : Nat) : Nat := if neg then (2 ^ w - V) % 2 ^ w else V

/-- A number in the range PARSE accepts needs no reduction, unless it is negated. -/
theorem parsedPattern_lt {sgn : Signedness} {neg : Bool} {w V : Nat} (h : parseInRange sgn neg w V = true) :
    parsedPattern w neg V < 2 ^ w := by
  have hpos := Nat.two_pow_pos w
  cases neg with
  | true => exact Nat.mod_lt _ hpos
  | false =>
    change V < 2 ^ w
    cases sgn with
    | unsigned =>
      have hle : V ≤ 2 ^ w - 1 := of_decide_eq_true h
      omega
    | signed =>
      have hle : V ≤ 2 ^ (w - 1) - 1 := of_decide_eq_true h
      have hhalf : 2 ^ (w - 1) ≤ 2 ^ w := Nat.pow_le_pow_right Nat.two_pos (Nat.sub_le w 1)
      omega

/-- The numbers PARSE rejects, given that only a signed parse accepts a minus sign (45_convert_radix.md R322, R326). -/
theorem parseInRange_eq_false_iff {sgn : Signedness} {neg : Bool} (hneg : neg = true → sgn = .signed) (w V : Nat) :
    parseInRange sgn neg w V = false ↔ (sgn = .unsigned ∧ 2 ^ w - 1 < V) ∨
      (sgn = .signed ∧ neg = false ∧ 2 ^ (w - 1) - 1 < V) ∨ (neg = true ∧ 2 ^ (w - 1) < V) := by
  cases sgn with
  | unsigned =>
    obtain rfl : neg = false := eq_false_of_ne_true fun h => nomatch hneg h
    simp [parseInRange]
  | signed => cases neg <;> simp [parseInRange]

section
variable {w : Nat} {sgn : Signedness} {radix : BitVec 8} {t : List Digit}

theorem parseText_of_invalidRadix (h : radix.toNat < 2 ∨ 36 < radix.toNat) :
    parseText w sgn radix t = .error .invalidRadix := by
  rw [parseText, radixField_error.2 ⟨h, rfl⟩]; rfl

variable (hr : 2 ≤ radix.toNat) (hr' : radix.toNat ≤ 36)
include hr hr'

theorem parseText_nil : parseText w sgn radix [] = .error .emptyString := by
  rw [parseText, radixField_ok.2 ⟨rfl, hr, hr'⟩]; rfl

/-- Behind the checks of the radix and of the empty text come the digits, then the range. -/
theorem parseText_eq (ht : t ≠ []) :
    parseText w sgn radix t = (parseMagnitude radix.toNat (leadingMinus sgn t) t >>= fun V =>
      if parseInRange sgn (leadingMinus sgn t) w V then .ok (parsedPattern w (leadingMinus sgn t) V)
      else .error .valueOutOfRange) := by
  rw [parseText, radixField_ok.2 ⟨rfl, hr, hr'⟩]
  exact if_neg ht

theorem parseText_of_invalidDigit (ht : t ≠ []) (h : unsignedPart (leadingMinus sgn t) t = [] ∨
    ∃ c ∈ unsignedPart (leadingMinus sgn t) t, ¬ValidDigit radix.toNat c) :
    parseText w sgn radix t = .error .invalidDigitForRadix := by
  rw [parseText_eq hr hr' ht, parseMagnitude_of_invalid h]; rfl

/-- A text of valid digits is decided by the range of its number. -/
theorem parseText_of_valid (h0 : unsignedPart (leadingMinus sgn t) t ≠ [])
    (h : ∀ c ∈ unsignedPart (leadingMinus sgn t) t, ValidDigit radix.toNat c) :
    parseText w sgn radix t =
      if parseInRange sgn (leadingMinus sgn t) w (textValue radix.toNat (unsignedPart (leadingMinus sgn t) t)) then
        .ok (parsedPattern w (leadingMinus sgn t) (textValue radix.toNat (unsignedPart (leadingMinus sgn t) t)))
      else .error .valueOutOfRange := by
  have ht : t ≠ [] := by
    rintro rfl
    cases hneg : leadingMinus sgn [] <;> simp [hneg, unsignedPart] at h0
  rw [parseText_eq hr hr' ht, parseMagnitude_of_valid h0 h]; rfl

end

theorem leadingMinus_eq_entry (sgn : Signedness) (m : Memory) :
    leadingMinus sgn m = (decide (sgn = .signed) && decide (Memory.entry m 0 = some 0x2D)) := by
  rw [leadingMinus, List.head?_eq_getElem?]; rfl

theorem signed_of_leadingMinus {sgn : Signedness} {t : List Digit} (h : leadingMinus sgn t = true) : sgn = .signed :=
  of_decide_eq_true ((Bool.and_eq_true _ _).mp h).1

/-- Settles O37: behind each check of the text, and then by the range of its number in the reading asked for. -/
theorem parseReadsTheText : Obligations.ParseReadsTheText := by
  refine ⟨fun rd sgn radix imm => spelt_of_wellFormed (i := .parse rd sgn radix imm) rfl rfl,
    fun s rd sgn radix imm neg rest hneg hrest => widthChecked_of_exec rfl fun _ _ h =>
      ⟨fun hbad => fails_of_error h (parseText_of_invalidRadix hbad), fun hr hr' => ⟨fun hlen => ?_, fun hlen => ?_⟩⟩⟩
  · rw [List.eq_nil_of_length_eq_zero hlen, parseText_nil hr hr'] at h
    exact fails_of_exec h
  · rw [← leadingMinus_eq_entry] at hneg
    replace hrest : rest = unsignedPart neg s.xbuf := hrest
    have ht : s.xbuf ≠ [] := fun h0 => hlen (congrArg List.length h0)
    refine ⟨fun hbad => ?_, fun h0 hvalid => ?_⟩
    · rw [hrest, hneg] at hbad
      exact fails_of_error h (parseText_of_invalidDigit hr hr' ht hbad)
    · have htext := parseText_of_valid (w := imm.toNat) (sgn := sgn) (t := s.xbuf) hr hr' (hneg ▸ hrest ▸ h0)
        (hneg ▸ hrest ▸ hvalid)
      rw [← hneg, ← hrest] at htext
      generalize textValue radix.toNat rest = V at htext ⊢
      have hout (hV : parseInRange sgn neg imm.toNat V = false) :=
        fails_of_error h (htext.trans (if_neg (ne_true_of_eq_false hV)))
      have hin (hV : parseInRange sgn neg imm.toNat V = true) : WritesReg (.parse rd sgn radix imm) s rd
          (some ⟨imm.toNat, parsedPattern imm.toNat neg V⟩) false :=
        canon_of_lt (parsedPattern_lt hV) ▸ writesReg_of_exec (exec_of_ok h (htext.trans (if_pos hV)))
      have hsigned (hn : neg = true) : sgn = .signed := signed_of_leadingMinus (hneg ▸ hn)
      refine ⟨fun hV => hout ((parseInRange_eq_false_iff hsigned _ _).2 hV), fun hs hV => ?_, fun hs hn hV => ?_,
        fun hn hV => ?_⟩
      · obtain rfl : neg = false := eq_false_of_ne_true fun hn => nomatch hs.symm.trans (hsigned hn)
        subst hs
        exact hin (decide_eq_true hV)
      · subst hs hn
        exact hin (decide_eq_true hV)
      · obtain rfl := hsigned hn
        subst hn
        exact hin (decide_eq_true hV)

/-! ### FORMAT (45_convert_radix.md R323) -/

theorem formatText_of_signBit {radix : Nat} {a : ApInt} (hs : a.signBit = true) :
    formatText .signed radix a = minusChar :: digits (2 ^ a.w - a.u) radix := if_pos ⟨rfl, hs⟩

theorem formatText_of_nonneg {sgn : Signedness} {radix : Nat} {a : ApInt} (h : sgn = .unsigned ∨ a.signBit = false) :
    formatText sgn radix a = digits a.u radix :=
  if_neg fun ⟨hs, hb⟩ => h.elim (fun h => nomatch hs.symm.trans h) fun h => nomatch hb.symm.trans h

/-- FORMAT writes a minus sign or it does not. -/
theorem negative_or_nonneg (sgn : Signedness) (a : ApInt) :
    (sgn = .signed ∧ a.signBit = true) ∨ (sgn = .unsigned ∨ a.signBit = false) := by
  cases sgn with
  | unsigned => exact .inr (.inl rfl)
  | signed => cases a.signBit <;> simp

section
variable {s : State} {rs1 : RegNo} {a : ApInt} {sgn : Signedness} {radix : BitVec 8}

theorem exec_format (ha : s.readX rs1 = some a) (hr : 2 ≤ radix.toNat) (hr' : radix.toNat ≤ 36) :
    exec (.format rs1 sgn radix) s = s.finish (.ok
      { xbuf := some (formatText sgn radix.toNat a),
        data := BitVec.ofNat 64 (formatText sgn radix.toNat a).length }) := by
  rw [exec, execFormat, finish_source ha, radixField_ok.2 ⟨rfl, hr, hr'⟩]; rfl

/-- The text fits XBUF, and its length the response's data. -/
theorem writesMemory_format (hinv : s.Inv) (ha : s.readX rs1 = some a) (hr : 2 ≤ radix.toNat)
    (hr' : radix.toNat ≤ 36) : (formatText sgn radix.toNat a).length ≤ s.cfg.maxWidth + 1 ∧
      WritesMemory (.format rs1 sgn radix) s (formatText sgn radix.toNat a) (formatText sgn radix.toNat a).length := by
  obtain ⟨hw1, hwm, hu⟩ := hinv.regs rs1 a ha
  obtain ⟨-, hmax⟩ := hinv.cfg
  have hlen := formatText_length (sgn := sgn) hr hw1 hu
  exact ⟨by omega, writesMemory_of_exec (exec_format ha hr hr') (by omega)⟩

end

/-- Settles O38: behind the checks the text is a digit string, after a minus sign for a negative signed reading. -/
theorem formatWritesTheShortestText : Obligations.FormatWritesTheShortestText := by
  refine ⟨fun rs1 sgn radix => spelt_of_wellFormed (i := .format rs1 sgn radix) rfl rfl,
    fun s rs1 sgn radix hinv => oneSource_of_exec rfl fun a ha h =>
      ⟨fun hbad => fails_of_error h (radixField_error.2 ⟨hbad, rfl⟩), fun hr hr' => ?_⟩⟩
  obtain ⟨hw1, -, hu⟩ := hinv.regs rs1 a ha
  obtain ⟨hfit, hwrites⟩ := writesMemory_format (sgn := sgn) hinv ha hr hr'
  have hlen := formatText_length (sgn := sgn) hr hw1 hu
  rcases negative_or_nonneg sgn a with ⟨rfl, hs⟩ | hnonneg
  · refine ⟨_, digits (2 ^ a.w - a.u) radix.toNat,
      fun _ _ => ⟨formatText_of_signBit hs, isDigitsOf_digits hr hr' _⟩, ?_, hlen, hfit, hwrites⟩
    rintro (hc | hc)
    · cases hc
    · cases hs.symm.trans hc
  · refine ⟨_, digits a.u radix.toNat, fun hsgn hb => ?_,
      fun _ => ⟨formatText_of_nonneg hnonneg, isDigitsOf_digits hr hr' _⟩, hlen, hfit, hwrites⟩
    rcases hnonneg with hc | hc
    · cases hsgn.symm.trans hc
    · cases hb.symm.trans hc

/-! ### PARSE after FORMAT (45_convert_radix.md R327) -/

/-- A digit string has no minus sign. -/
theorem leadingMinus_digits {radix : Nat} (hr : 2 ≤ radix) (hr' : radix ≤ 36) (sgn : Signedness) (m : Nat) :
    leadingMinus sgn (digits m radix) = false := by
  have hhead : (digits m radix).head? ≠ some minusChar := fun h => by
    obtain ⟨⟨v, hv, -⟩, -⟩ := mem_digits hr hr' m (List.mem_of_head? h)
    cases hv
  rw [leadingMinus, decide_eq_false hhead, Bool.and_false]

section
variable {a : ApInt} {sgn : Signedness} {radix : BitVec 8} (hw : 1 ≤ a.w) (hu : a.u < 2 ^ a.w) (hr : 2 ≤ radix.toNat)
  (hr' : radix.toNat ≤ 36)
include hr hr'

/-- PARSE of a digit string behind the sign it accepts: the number's pattern, if the number is in range. -/
theorem parseText_of_unsignedPart_digits {neg : Bool} {t : List Digit} {w m : Nat} (hneg : leadingMinus sgn t = neg)
    (ht : unsignedPart neg t = digits m radix.toNat) (hm : parseInRange sgn neg w m = true) :
    parseText w sgn radix t = .ok (parsedPattern w neg m) := by
  subst hneg
  have h0 := digits_ne_nil hr m
  have hvalid : ∀ c ∈ digits m radix.toNat, ValidDigit radix.toNat c := fun _ hc => (mem_digits hr hr' m hc).1
  rw [← ht] at h0 hvalid
  rw [parseText_of_valid hr hr' h0 hvalid, ht, textValue_digits hr hr', if_pos hm]

include hw hu

/-- PARSE reads FORMAT's text back as the pattern it was written from. -/
theorem parseText_formatText : parseText a.w sgn radix (formatText sgn radix.toNat a) = .ok a.u := by
  have hsign := signBit_iff hw hu
  have hpow : 2 * 2 ^ (a.w - 1) = 2 ^ a.w := mul_pow_sub_one (by omega) 2
  rcases negative_or_nonneg sgn a with ⟨rfl, hs⟩ | hnonneg
  · have hhalf := hsign.1 hs
    have hm : parseInRange .signed true a.w (2 ^ a.w - a.u) = true := decide_eq_true (by omega)
    have hback : parsedPattern a.w true (2 ^ a.w - a.u) = a.u := by
      rw [parsedPattern, if_pos rfl, Nat.sub_sub_self hu.le, Nat.mod_eq_of_lt hu]
    rw [formatText_of_signBit hs]
    exact (parseText_of_unsignedPart_digits hr hr' rfl rfl hm).trans (congrArg _ hback)
  · have hm : parseInRange sgn false a.w a.u = true := by
      cases sgn with
      | unsigned => exact decide_eq_true (Nat.le_sub_one_of_lt hu)
      | signed =>
        have hs : a.signBit = false := hnonneg.resolve_left nofun
        have hlt : a.u < 2 ^ (a.w - 1) := not_le.1 (mt hsign.2 (ne_true_of_eq_false hs))
        exact decide_eq_true (Nat.le_sub_one_of_lt hlt)
    rw [formatText_of_nonneg hnonneg]
    exact parseText_of_unsignedPart_digits hr hr' (leadingMinus_digits hr hr' sgn a.u) rfl hm

end

theorem exec_parse {s : State} {sgn : Signedness} {radix : BitVec 8} {imm : Imm} {v : Nat} (rd : RegNo)
    (hl : 1 ≤ imm.toNat) (hu : imm.toNat ≤ s.cfg.maxWidth) (hv : parseText imm.toNat sgn radix s.xbuf = .ok v) :
    exec (.parse rd sgn radix imm) s = s.finish (.ok (writes rd imm.toNat v)) := by
  simp only [exec, execParse, widthField_ok.2 ⟨rfl, hl, hu⟩, hv, bind, Except.bind, pure, Except.pure]

/-- Settles O39: the state after FORMAT has the text in XBUF, which PARSE reads back. -/
theorem parseAfterFormatRoundTrip : Obligations.ParseAfterFormatRoundTrip := by
  intro s rs1 rd sgn radix a hinv ha hr hr'
  obtain ⟨hw1, hwm, hu⟩ := hinv.regs rs1 a ha
  refine ⟨_, exec_format ha hr hr', writesReg_of_exec ?_⟩
  have hwidth : (BitVec.ofNat 32 a.w).toNat = a.w := hinv.toNat_ofNat_width ha
  rw [exec_parse rd (hwidth.symm ▸ hw1) (hwidth.symm ▸ hwm) (hwidth.symm ▸ parseText_formatText hw1 hu hr hr'), writes,
    hwidth, canon_self hu]

end Sys2Proof.Machine

/-! SUPPORT. The word-level accumulation of PARSE and the word-level digit extraction of FORMAT
(45_convert_radix.md R324, R325). -/

namespace Sys2Proof.Machine

/-! ### Parse accumulation (45_convert_radix.md R324) -/

/-- One step multiplies by the radix and adds the digit value, with a carry of any size out of the top word. -/
theorem accStep_spec {D radix n : Nat} {A : List Digit} {c : Nat} (hA : WordSeq D n A) :
    WordSeq D n (accStep D radix A c).1 ∧
      valueOf D (accStep D radix A c).1 + base D ^ n * (accStep D radix A c).2 = valueOf D A * radix + c := by
  induction n generalizing A c with
  | zero =>
    rw [hA.eq_nil]
    exact ⟨wordSeq_nil D, by simp [accStep, valueOf]⟩
  | succ n ih =>
    obtain ⟨a, as, rfl, -, has⟩ := hA.exists_cons
    obtain ⟨hrs, hval⟩ := ih (c := a * radix / base D + (a * radix % base D + c) / base D) has
    refine ⟨hrs.cons (Nat.mod_lt _ (base_pos D)), ?_⟩
    have hprod := Nat.mod_add_div (a * radix) (base D)
    have hdigit := Nat.mod_add_div (a * radix % base D + c) (base D)
    simp only [accStep, dmulw, valueOf, pow_succ']
    linear_combination hprod + hdigit + base D * hval

/-- A Digit has none of the bits `m` to `D - 1` exactly if it is below `2^m`. -/
theorem and_high_mask_eq_zero_iff {x m D : Nat} (hx : x < 2 ^ D) (hm : m ≤ D) :
    x &&& (2 ^ D - 1 - (2 ^ m - 1)) = 0 ↔ x < 2 ^ m := by
  refine ⟨fun h => ?_, fun h => and_high_mask_eq_zero h hm⟩
  have hpos := Nat.two_pow_pos m
  have hall : (2 ^ m - 1) ||| (2 ^ D - 1 - (2 ^ m - 1)) = 2 ^ D - 1 := by
    have := or_high_mask_add (Nat.sub_one_lt hpos.ne') hm
    omega
  calc x = x &&& (2 ^ D - 1) := by rw [Nat.and_two_pow_sub_one_eq_mod, Nat.mod_eq_of_lt hx]
    _ = x &&& (2 ^ m - 1) := by rw [← hall, Nat.and_or_distrib_left, h, Nat.or_zero]
    _ < 2 ^ m := by rw [Nat.and_two_pow_sub_one_eq_mod]; exact Nat.mod_lt _ hpos

theorem carry_eq_zero_of_accOverflow {D w c : Nat} {A : List Digit} (h : accOverflow D w A c = false) : c = 0 := by
  by_contra hc
  simp [accOverflow, hc] at h

section
variable {D w : Nat} (hD : 0 < D) (hw : 1 ≤ w)
include hD hw

/-- The top word has no bit above `topmask(w)` exactly if the number is below `2^w`. -/
theorem topWord_and_eq_zero_iff {A : List Digit} (hA : WordSeq D (nwords D w) A) :
    (A.getLast?).getD 0 &&& (2 ^ D - 1 - topmask D w) = 0 ↔ valueOf D A < 2 ^ w := by
  obtain ⟨es, d, rfl, hes⟩ := exists_concat_of_length_eq_nwords hD hw hA.1
  obtain ⟨hlt, hd⟩ := List.forall_mem_append.1 hA.2
  have hbase : 0 < base D ^ es.length := Nat.pow_pos (base_pos D)
  have htop : (valueOf D es + base D ^ es.length * d) / base D ^ es.length = d := by
    rw [Nat.add_mul_div_left _ _ hbase, Nat.div_eq_of_lt (valueOf_lt hlt), Nat.zero_add]
  rw [List.getLast?_concat, Option.getD_some, topmask_eq hD hw,
    and_high_mask_eq_zero_iff (hd d List.mem_cons_self) (topBits_bounds hD hw).2, valueOf_append, valueOf_singleton,
    two_pow_eq_base_pow_mul hD hw, ← hes, Nat.mul_comm _ (2 ^ _), ← Nat.div_lt_iff_lt_mul hbase, htop]

/-- The overflow test finds exactly the steps that reach `2^w` (45_convert_radix.md R324). -/
theorem accOverflow_iff {A : List Digit} {c v : Nat} (hA : WordSeq D (nwords D w) A)
    (hv : valueOf D A + base D ^ nwords D w * c = v) : accOverflow D w A c = true ↔ 2 ^ w ≤ v := by
  have hle : 2 ^ w ≤ base D ^ nwords D w := Nat.le_of_dvd (Nat.pow_pos (base_pos D)) (two_pow_dvd_base_pow hD hw)
  have htop := topWord_and_eq_zero_iff hD hw hA
  rw [accOverflow, Bool.or_eq_true, decide_eq_true_iff, decide_eq_true_iff, ne_eq, ne_eq, htop]
  rcases Nat.eq_zero_or_pos c with rfl | hc
  · omega
  · have hmul := Nat.le_mul_of_pos_right (base D ^ nwords D w) hc
    omega

end

/-- What the accumulator and its sticky overflow say of the number read so far. -/
def Accumulates (D w V : Nat) (acc : List Digit) (ov : Bool) : Prop :=
  WordSeq D (nwords D w) acc ∧ (ov = true ↔ 2 ^ w ≤ V) ∧ (ov = false → valueOf D acc = V)

section
variable {D w radix V : Nat} {acc : List Digit} {ov : Bool} (hD : 0 < D) (hw : 1 ≤ w)
include hD hw

/-- A number that overflowed stays too large, as no digit makes it smaller. -/
theorem Accumulates.step (hr : 1 ≤ radix) (h : Accumulates D w V acc ov) (dv : Nat) :
    Accumulates D w (V * radix + dv) (accStep D radix acc dv).1
      (ov || accOverflow D w (accStep D radix acc dv).1 (accStep D radix acc dv).2) := by
  obtain ⟨hseq, hov, hval⟩ := h
  obtain ⟨hseq', hval'⟩ := accStep_spec (radix := radix) (c := dv) hseq
  have hle : V ≤ V * radix := Nat.le_mul_of_pos_right V hr
  cases ov with
  | true =>
    have hbig : 2 ^ w ≤ V := hov.1 rfl
    exact ⟨hseq', iff_of_true rfl (by omega), nofun⟩
  | false =>
    rw [hval rfl] at hval'
    refine ⟨hseq', accOverflow_iff hD hw hseq' hval', fun hfit => ?_⟩
    rwa [carry_eq_zero_of_accOverflow hfit, Nat.mul_zero, Nat.add_zero] at hval'

/-- The invariant holds along the digit values. -/
theorem Accumulates.accumulate (hr : 1 ≤ radix) (dvs : List Nat) (h : Accumulates D w V acc ov) :
    Accumulates D w (dvs.foldl (fun v d => v * radix + d) V) (accumulate D w radix dvs acc ov).1
      (accumulate D w radix dvs acc ov).2 := by
  induction dvs generalizing V acc ov with
  | nil => exact h
  | cons dv dvs ih => exact ih (h.step hD hw hr dv)

/-- From 0 the accumulator holds the number the digit values stand for. -/
theorem accumulates_of_accumulate {dvs : List Nat} (hr : 1 ≤ radix)
    (h : Machine.accumulate D w radix dvs (List.replicate (nwords D w) 0) false = (acc, ov)) :
    Accumulates D w (dvs.foldl (fun v d => v * radix + d) 0) acc ov := by
  have hstart : Accumulates D w 0 (List.replicate (nwords D w) 0) false :=
    ⟨wordSeq_replicate (base_pos D) _, iff_of_false nofun (Nat.two_pow_pos w).not_ge, fun _ => valueOf_replicate_zero _⟩
  have hend := hstart.accumulate hD hw hr dvs
  rwa [h] at hend

/-- Without overflow the accumulator is the words of the number (45_convert_radix.md R324). -/
theorem Accumulates.eq_words (h : Accumulates D w V acc ov) (hfit : ov = false) : acc = ApInt.words D ⟨w, V⟩ := by
  obtain ⟨hseq, hov, hval⟩ := h
  exact eq_words_of_valueOf hD hw hseq (hval hfit) (not_le.1 (mt hov.2 (ne_true_of_eq_false hfit)))

end

/-- A number below `2^w` has its sign bit clear exactly if it is in the lower half (00_scope.md R11). -/
theorem testBit_top_eq_false_iff {w V : Nat} (hw : 1 ≤ w) (hV : V < 2 ^ w) :
    V.testBit (w - 1) = false ↔ V < 2 ^ (w - 1) := by
  rw [← not_le, ← signBit_iff (a := ⟨w, V⟩) hw hV, Bool.not_eq_true]; rfl

/-- Settles O59: the accumulator holds the number read, and the ranges are bounds on a number below `2^w`. -/
theorem parseAccumulationIsTheNumber : Obligations.ParseAccumulationIsTheNumber := by
  intro D w radix V dvs acc ov hw hr _ _ hV hacc
  have hD := DigitBits.bits_pos D
  have hend : Accumulates D.bits w V acc ov := hV ▸ accumulates_of_accumulate hD hw (Nat.one_le_of_lt hr) hacc
  have hwords := hend.eq_words hD hw
  obtain ⟨-, hov, -⟩ := hend
  have hpos := Nat.two_pow_pos (w - 1)
  have hpow : 2 * 2 ^ (w - 1) = 2 ^ w := mul_pow_sub_one (by omega) 2
  refine ⟨hov, hwords, ?_⟩
  cases ov with
  | true =>
    have hbig : 2 ^ w ≤ V := hov.1 rfl
    simp only [parseInRange, decide_eq_true_iff, Bool.true_eq_false, false_and, iff_false]
    omega
  | false =>
    have hlt : V < 2 ^ w := not_le.1 (mt hov.2 nofun)
    have hsign : signWords D.bits w acc = false ↔ V < 2 ^ (w - 1) := by
      rw [hwords rfl, signWords_words hD hw, testBit_top_eq_false_iff hw hlt]
    have hmin : acc = ApInt.words D.bits ⟨w, 2 ^ (w - 1)⟩ ↔ V = 2 ^ (w - 1) := by
      rw [hwords rfl, words_inj hD hw hlt (by omega)]
    simp only [parseInRange, decide_eq_true_iff, true_and, iff_true, hsign, hmin]
    omega

/-! ### Digit extraction (45_convert_radix.md R325) -/

section
variable {D w radix : Nat} (hD : 0 < D) (hw : 1 ≤ w) (hr : 2 ≤ radix)
include hD hw hr

/-- Repeated division of the words is the digit loop on the number. -/
theorem extractDigits_words (fuel : Nat) {m : Nat} (hm : m < 2 ^ w) (acc : List Digit) :
    extractDigits D radix fuel (ApInt.words D ⟨w, m⟩) acc = digitsLoop radix fuel m acc := by
  induction fuel generalizing m acc with
  | zero => rfl
  | succ fuel ih =>
    simp only [extractDigits, digitsLoop, isZeroWords_words hD hw hm, decide_eq_true_iff,
      divSmall_words hD hw hm (Nat.zero_lt_of_lt hr), ih ((Nat.div_le_self m radix).trans_lt hm)]

/-- `w` divisions are enough for a number below `2^w`. -/
theorem formatWords_words {m : Nat} (hm : m < 2 ^ w) :
    formatWords D radix w (ApInt.words D ⟨w, m⟩) = digits m radix := by
  have hfuel : m < radix ^ w := hm.trans_le (Nat.pow_le_pow_left hr w)
  rw [formatWords, isZeroWords_words hD hw hm, extractDigits_words hD hw hr w hm, digitsLoop_eq hr hfuel,
    ← digitsLoop_eq hr (Nat.lt_pow_self hr)]
  simp only [digits, decide_eq_true_iff]

end

/-- Settles O60: the extracted digits are FORMAT's, which is the digit string of the number. -/
theorem formatExtractionIsTheDigitString : Obligations.FormatExtractionIsTheDigitString := by
  intro D w m radix hw hm hr hr'
  rw [formatWords_words (DigitBits.bits_pos D) hw hr hm]
  exact ⟨rfl, isDigitsOf_digits hr hr' m⟩

end Sys2Proof.Machine

/-! SUPPORT. The exchange buffer as the host fills and reads it, and FROMWORDS and TOWORDS check by check
(46_host_exchange.md). -/

namespace Sys2Proof.Machine

/-! ### XCLR, XPUSH, XREAD -/

/-- A Digit fits the 64 bits of the response's data (00_scope.md R5). -/
theorem base_bits_le (D : DigitBits) : base D.bits ≤ 2 ^ 64 := by cases D <;> decide

theorem memory_read_one (m : Memory) (k : Nat) : Memory.read m k 1 = (Memory.entry m k).map fun d => [d] := by
  rw [Memory.read, Memory.entry]
  split
  · next h => rw [List.getElem?_eq_getElem h, List.drop_eq_getElem_cons h]; rfl
  · next h => rw [List.getElem?_eq_none (Nat.le_of_not_lt h)]; rfl

section
variable {s : State} {imm : Imm}

theorem exec_xread_of_entry {d : Digit} (h : Memory.entry s.xbuf imm.toNat = some d) :
    exec (.xread imm) s = s.finish (.ok (answers d)) := by
  rw [exec, execXread, memory_read_one, h]; rfl

theorem exec_xread_of_le (h : s.xlen ≤ imm.toNat) : exec (.xread imm) s = s.finish (.error .exchangeIndex) := by
  have hnone : Memory.entry s.xbuf imm.toNat = none := List.getElem?_eq_none h
  rw [exec, execXread, memory_read_one, hnone]; rfl

theorem exec_xpush (v : Word64) : exec (.xpush v) s = s.finish (if s.xlen < xcap s.cfg then
    .ok { xbuf := some (s.xbuf ++ [v.toNat % base s.cfg.digitBits.bits]) } else .error .exchangeIndex) := rfl

/-- A state that meets the invariant holds a Digit at every index below XLEN (10_state.md R32). -/
theorem State.Inv.exists_entry (h : s.Inv) {k : Nat} (hk : k < s.xlen) :
    ∃ d, Memory.entry s.xbuf k = some d ∧ d < base s.cfg.digitBits.bits :=
  ⟨s.xbuf[k], List.getElem?_eq_getElem hk, h.mem.2 _ (List.getElem_mem hk)⟩

end

/-- Settles O25: XPUSH by whether the buffer is full, XREAD by whether the entry exists. -/
theorem exchangeBufferCommands : Obligations.ExchangeBufferCommands := by
  refine ⟨⟨spelt_of_wellFormed (i := .xclr) rfl rfl, fun v => spelt_of_wellFormed (i := .xpush v) rfl rfl,
    fun imm => spelt_of_wellFormed (i := .xread imm) rfl rfl⟩, fun s => ⟨?_, fun v => ⟨fun hfull => ?_, fun hroom => ?_⟩,
    fun imm => ⟨fun hle => fails_of_exec (exec_xread_of_le hle), fun hinv hlt => ?_⟩⟩⟩
  · exact writesMemory_of_exec rfl (Nat.two_pow_pos 64)
  · exact fails_of_exec ((exec_xpush v).trans (congrArg s.finish (if_neg hfull.not_lt)))
  · exact writesMemory_of_exec ((exec_xpush v).trans (congrArg s.finish (if_pos hroom))) (Nat.two_pow_pos 64)
  · obtain ⟨d, hd, hdigit⟩ := hinv.exists_entry hlt
    exact ⟨d, hd, writesNothing_of_exec (exec_xread_of_entry hd) (hdigit.trans_le (base_bits_le _))⟩

/-! ### FROMWORDS -/

/-- The number a word sequence stands for is the sum R350 writes out. -/
theorem valueOf_eq_sum (D : Nat) (ds : List Digit) :
    valueOf D ds = ((List.range ds.length).map fun k => ds.getD k 0 * 2 ^ (D * k)).sum := by
  induction ds with
  | nil => rfl
  | cons d ds ih =>
    have hshift (k : Nat) : (d :: ds).getD (k + 1) 0 * 2 ^ (D * (k + 1)) = base D * (ds.getD k 0 * 2 ^ (D * k)) := by
      rw [List.getD_cons_succ, base, Nat.mul_succ, pow_add]
      ring
    rw [valueOf, ih, List.length_cons, List.range_succ_eq_map, List.map_cons, List.sum_cons, List.map_map,
      ← List.sum_map_mul_left]
    congr 1
    · simp
    · exact congrArg List.sum (List.map_congr_left fun k _ => (hshift k).symm)

/-- Settles O27: behind the checks of the BitWidth and of XLEN, the canonicalised number of the words in XBUF. -/
theorem fromwordsBuildsTheValue : Obligations.FromwordsBuildsTheValue := by
  refine ⟨fun rd imm => spelt_of_wellFormed (i := .fromwords rd imm) rfl rfl,
    fun s rd imm hinv => widthChecked_of_exec rfl fun hl hu h => ⟨fun hne => ?_, fun hlen =>
      ⟨canon imm.toNat (valueOf s.cfg.digitBits.bits s.xbuf), rfl, ?_, ?_, ?_⟩⟩⟩
  · exact fails_of_exec (h.trans (congrArg s.finish (if_pos hne)))
  · rw [canon, valueOf_eq_sum, State.xlen]
  · exact words_canon_valueOf (DigitBits.bits_pos _) hl hlen hinv.mem.2
  · exact writesReg_of_exec (exec_fromwords hl hu hlen)

/-! ### TOWORDS, and FROMWORDS after it -/

/-- Entry `k` of the words of a value (46_host_exchange.md R352). -/
theorem entry_words {D k : Nat} {a : ApInt} (hk : k < nwords D a.w) :
    Memory.entry (a.words D) k = some (a.u / 2 ^ (D * k) % 2 ^ D) := by
  simp [Memory.entry, ApInt.words, hk, base, pow_mul]

/-- FROMWORDS reads the words of a value back as the value (46_host_exchange.md R352). -/
theorem writesReg_fromwords_words {t : State} {rd : RegNo} {imm : Imm} {a : ApInt} (ha : a.WF t.cfg)
    (himm : imm.toNat = a.w) (hbuf : t.xbuf = a.words t.cfg.digitBits.bits) :
    WritesReg (.fromwords rd imm) t rd (some a) false := by
  obtain ⟨hl, hu, hlt⟩ := ha
  have hlen : t.xlen = nwords t.cfg.digitBits.bits imm.toNat := by rw [State.xlen, hbuf, words_length, himm]
  have hval : canon imm.toNat (valueOf t.cfg.digitBits.bits t.xbuf) = a := by
    rw [hbuf, valueOf_words (DigitBits.bits_pos _) hl hlt, himm, canon_self hlt]
  exact hval ▸ writesReg_of_exec (exec_fromwords (himm ▸ hl) (himm ▸ hu) hlen)

/-- Settles O28: the words of the source in XBUF, which FROMWORDS of its BitWidth reads back. -/
theorem towordsExposesTheWords : Obligations.TowordsExposesTheWords := by
  refine ⟨fun rs1 => spelt_of_wellFormed (i := .towords rs1) rfl rfl,
    fun s rs1 hinv => oneSource_of_exec rfl fun a ha h =>
      ⟨a.words s.cfg.digitBits.bits, words_length _ _, fun k hk => entry_words (words_length _ a ▸ hk),
        writesMemory_of_exec h (hinv.width_lt_two_pow_64 ha), fun t rd ht => ?_⟩⟩
  cases h.symm.trans ht
  exact writesReg_fromwords_words (hinv.regs rs1 a ha) (hinv.toNat_ofNat_width ha) rfl

end Sys2Proof.Machine

/-! SUPPORT. What a failing command changes, and what can read the error log (60_exceptions.md R380, R381, R384). -/

namespace Sys2Proof.Machine

/-! ### A failure changes the error log only -/

/-- Settles O8: a presented pair that answers a non-zero code has raised, and a WidthMismatch carries the BitWidths of
the sources of the command it spells. -/
theorem failureChangesOnlyTheErrorLog : Obligations.FailureChangesOnlyTheErrorLog := by
  intro s t cw cdata rest r hp ht hr herr
  rw [step_command hp] at ht
  cases ht
  rcases afterCommand_cases { s with pending := rest } (cw, cdata) with ⟨e, ht, he⟩ | ⟨i, f, -, -, ht⟩ <;>
    rw [ht] at hr ⊢ <;> cases List.append_cancel_left hr
  · refine ⟨e, rfl, failedWith_raise _ e, fun x y hxy => ?_⟩
    obtain ⟨i, hd, hi⟩ := he x y hxy
    obtain ⟨r1, r2, a, b, h1, h2, ha, hb, -, rfl, rfl⟩ := hi x y hxy
    subst hxy
    exact ⟨i, r1, r2, a, b, hd, h1, h2, ha, hb, rfl, rfl, fun hinv =>
      ⟨hinv.toNat_ofNat_width ha, hinv.toNat_ofNat_width hb⟩⟩
  · exact absurd rfl herr

/-! ### The error log is read by RDSR only -/

section
variable (s : State) (l : BitVec 4) (e f : BitVec 32)

/-- The same state with another error log. -/
def State.withLog : State := { s with lasterr := l, expected := e, found := f }

/-- The status registers other than LASTERR, EXPECTED and FOUND do not read the error log (10_state.md R34). -/
theorem statusReg_withLog : ∀ {n : Nat}, n < 5 ∨ 7 < n → (s.withLog l e f).statusReg n = s.statusReg n
  | 0, _ | 1, _ | 2, _ | 3, _ | 4, _ | 8, _ | _ + 9, _ => rfl
  | 5, h | 6, h | 7, h => by omega

/-- A command other than RDSR of the error log has the same outcome whatever the error log holds. -/
theorem exec_finish_withLog {i : Instr} (h : ∀ imm, i = .rdsr imm → imm.toNat < 5 ∨ 7 < imm.toNat) :
    ∃ r, exec i s = s.finish r ∧ exec i (s.withLog l e f) = (s.withLog l e f).finish r := by
  cases i
  case rdsr imm =>
    refine ⟨_, rfl, ?_⟩
    simp only [exec, execRdsr, statusReg_withLog s l e f (h imm rfl)]
  case clrerr => exact ⟨.ok { clearLog := true }, rfl, rfl⟩
  case xclr => exact ⟨.ok { xbuf := some [] }, rfl, rfl⟩
  case drop rd => exact ⟨.ok { reg := some (rd, none) }, rfl, rfl⟩
  all_goals exact ⟨_, rfl, rfl⟩

end

theorem AgreeButLog.eq_withLog {s s' : State} (h : AgreeButLog s s') :
    s' = s.withLog s'.lasterr s'.expected s'.found := by
  obtain ⟨hc, hx, hm, hp, hr⟩ := h
  rw [State.withLog, hc, hx, hm, hp, hr]

/-- One outcome at two states that differ in the error log leaves states that differ in it. -/
theorem AgreeButLog.finish {s s' : State} (h : AgreeButLog s s') (r : Except CmdError Effect) :
    ∃ t t', s.finish r = .next t ∧ s'.finish r = .next t' ∧ AgreeButLog t t' := by
  obtain ⟨hc, hx, hm, hp, hr⟩ := h
  cases r with
  | error e => exact ⟨_, _, finish_error s e, finish_error s' e, hc, hx, hm, hp, by simp [hr]⟩
  | ok f => exact ⟨_, _, finish_ok s f, finish_ok s' f, hc, by simp [hx], by simp [hm], hp, by simp [hr]⟩

/-- RDSR of an index that is not reserved answers its status register (46_host_exchange.md R358). -/
theorem exists_exec_rdsr {imm : Imm} (h : imm.toNat ≤ 8) (s : State) :
    ∃ v, exec (.rdsr imm) s = .next (s.commit (answers v)) := by
  obtain ⟨v, hv⟩ := Option.ne_none_iff_exists'.1 (mt statusReg_eq_none_iff.1 h.not_gt : s.statusReg imm.toNat ≠ none)
  exact ⟨v % 2 ^ 32, by rw [exec, execRdsr, hv]; rfl⟩

/-- Settles O11: RDSR of the error log answers and writes nothing; any other command has one outcome at both states. -/
theorem errorLogIsReadOnlyByRdsr : Obligations.ErrorLogIsReadOnlyByRdsr := by
  intro i s s' h
  by_cases hi : ∀ imm, i = .rdsr imm → imm.toNat < 5 ∨ 7 < imm.toNat
  · obtain ⟨r, hs, hs'⟩ := exec_finish_withLog s s'.lasterr s'.expected s'.found hi
    rw [← h.eq_withLog] at hs'
    obtain ⟨t, t', ht, ht', hc, hx, hm, hp, hr⟩ := h.finish r
    exact ⟨t, t', hs.trans ht, hs'.trans ht', hc, hx, hm, hp, fun _ => hr⟩
  · obtain ⟨hc, hx, hm, hp, -⟩ := h
    push Not at hi
    obtain ⟨imm, rfl, hl, hu⟩ := hi
    obtain ⟨v, ht⟩ := exists_exec_rdsr (hu.trans (by decide)) s
    obtain ⟨v', ht'⟩ := exists_exec_rdsr (hu.trans (by decide)) s'
    exact ⟨_, _, ht, ht', hc, hx, hm, hp, fun hne => by have := hne imm rfl; omega⟩

end Sys2Proof.Machine

/-! SUPPORT. The checks of a command's operands as one function of its fields, and the errors and the response behind
them (30_encoding.md R100, 60_exceptions.md R371 to R389). -/

namespace Sys2Proof.Machine

/-! ### The checks of the operands (30_encoding.md R100 stages 2 to 4) -/

/-- Stage 3, and the checks of stage 4 that read the sources: of their BitWidths, then of a zero divisor. -/
def sourceCheck (i : Instr) (s : State) : Except CmdError Unit :=
  match i.src1, i.src2, i.isDivision with
  | none, _, _ => .ok ()
  | some q, none, _ => source s q >>= fun _ => .ok ()
  | some q, some r, false => sources s q r >>= fun _ => .ok ()
  | some q, some r, true => divSources s q r >>= fun _ => .ok ()

/-- Stage 2, then the checks of the sources. -/
def operandCheck (i : Instr) (s : State) : Except CmdError Unit :=
  match i.widthImm with
  | none => sourceCheck i s
  | some imm => widthField s.cfg imm >>= fun _ => sourceCheck i s

/-- The BitWidth in `imm`, if the command takes one, is legal. -/
def LegalWidthImm (i : Instr) (s : State) : Prop :=
  ∀ imm, i.widthImm = some imm → 1 ≤ imm.toNat ∧ imm.toNat ≤ s.cfg.maxWidth

/-- A command with a second source has a first one. -/
theorem src1_isSome_of_src2 {i : Instr} (h : i.src2.isSome = true) : i.src1.isSome = true := by
  cases i <;> simp_all [Instr.src1, Instr.src2]

/-- No command takes both a BitWidth and two sources (30_encoding.md R98). -/
theorem widthImm_of_src2 {i : Instr} (h : i.src2.isSome = true) : i.widthImm = none := by
  cases i <;> simp_all [Instr.widthImm, Instr.src2]

section
variable {i : Instr} {s : State} {e : CmdError}

theorem bind_error {α β : Type} {x : Except CmdError α} {k : α → Except CmdError β} :
    (x >>= k) = .error e ↔ x = .error e ∨ ∃ a, x = .ok a ∧ k a = .error e := by
  cases x <;> simp [bind, Except.bind]

/-- EmptyRegister comes first, then WidthMismatch, then DivisionByZero. -/
theorem sourceCheck_error : sourceCheck i s = .error e ↔
    ((∃ q, (i.src1 = some q ∨ i.src2 = some q) ∧ s.readX q = none) ∧ e = .emptyRegister) ∨
    (∃ r1 r2 a b, i.src1 = some r1 ∧ i.src2 = some r2 ∧ s.readX r1 = some a ∧ s.readX r2 = some b ∧ a.w ≠ b.w ∧
      e = .widthMismatch a.w b.w) ∨
    ((i.isDivision = true ∧ ∃ r1 r2 a b, i.src1 = some r1 ∧ i.src2 = some r2 ∧ s.readX r1 = some a ∧
      s.readX r2 = some b ∧ a.w = b.w ∧ b.u = 0) ∧ e = .divisionByZero) := by
  have h12 := src1_isSome_of_src2 (i := i)
  unfold sourceCheck
  cases h1 : i.src1 with
  | none => cases h2 : i.src2 <;> simp_all
  | some r1 =>
    cases h2 : i.src2 with
    | none => simp [bind_error, source_error]
    | some r2 =>
      cases i.isDivision <;>
        simp [bind_error, sources_error, sources_ok, divSources_error, or_assoc, and_assoc, ← exists_and_right]

/-- WidthOutOfRange comes before the checks of the sources. -/
theorem operandCheck_error_stages : operandCheck i s = .error e ↔
    ((∃ imm, i.widthImm = some imm ∧ (imm.toNat = 0 ∨ s.cfg.maxWidth < imm.toNat)) ∧ e = .widthOutOfRange) ∨
    LegalWidthImm i s ∧ sourceCheck i s = .error e := by
  unfold operandCheck LegalWidthImm
  cases i.widthImm with
  | none => simp
  | some imm => simp [bind_error, widthField_error, widthField_ok]

theorem legalWidthImm_of_src2 {r : RegNo} (h : i.src2 = some r) : LegalWidthImm i s := by
  simp [LegalWidthImm, widthImm_of_src2 (i := i) (by simp [h])]

/-- The first check of the operands that fails, by the error it raises (60_exceptions.md R372, R374, R379, R388). -/
inductive FailedCheck (i : Instr) (s : State) : CmdError → Prop
  | width {imm : Imm} (hi : i.widthImm = some imm) (h : imm.toNat = 0 ∨ s.cfg.maxWidth < imm.toNat) :
      FailedCheck i s .widthOutOfRange
  | empty {q : RegNo} (hw : LegalWidthImm i s) (hq : i.src1 = some q ∨ i.src2 = some q) (h : s.readX q = none) :
      FailedCheck i s .emptyRegister
  | mismatch {r1 r2 : RegNo} {a b : ApInt} (h1 : i.src1 = some r1) (h2 : i.src2 = some r2) (ha : s.readX r1 = some a)
      (hb : s.readX r2 = some b) (hab : a.w ≠ b.w) : FailedCheck i s (.widthMismatch a.w b.w)
  | zero {r1 r2 : RegNo} {a b : ApInt} (hd : i.isDivision = true) (h1 : i.src1 = some r1) (h2 : i.src2 = some r2)
      (ha : s.readX r1 = some a) (hb : s.readX r2 = some b) (hab : a.w = b.w) (h0 : b.u = 0) :
      FailedCheck i s .divisionByZero

theorem operandCheck_error : operandCheck i s = .error e ↔ FailedCheck i s e := by
  rw [operandCheck_error_stages, sourceCheck_error]
  constructor
  · rintro (⟨⟨imm, hi, h⟩, rfl⟩ | ⟨hw, ⟨⟨q, hq, h⟩, rfl⟩ | ⟨r1, r2, a, b, h1, h2, ha, hb, hab, rfl⟩ |
      ⟨⟨hd, r1, r2, a, b, h1, h2, ha, hb, hab, h0⟩, rfl⟩⟩)
    · exact .width hi h
    · exact .empty hw hq h
    · exact .mismatch h1 h2 ha hb hab
    · exact .zero hd h1 h2 ha hb hab h0
  · rintro (⟨hi, h⟩ | ⟨hw, hq, h⟩ | ⟨h1, h2, ha, hb, hab⟩ | ⟨hd, h1, h2, ha, hb, hab, h0⟩)
    · exact .inl ⟨⟨_, hi, h⟩, rfl⟩
    · exact .inr ⟨hw, .inl ⟨⟨_, hq, h⟩, rfl⟩⟩
    · exact .inr ⟨legalWidthImm_of_src2 h2, .inr (.inl ⟨_, _, _, _, h1, h2, ha, hb, hab, rfl⟩)⟩
    · exact .inr ⟨legalWidthImm_of_src2 h2, .inr (.inr ⟨⟨hd, _, _, _, _, h1, h2, ha, hb, hab, h0⟩, rfl⟩)⟩

/-! ### Which command may produce which error (60_exceptions.md R371) -/

/-- The table of R371: the commands that may produce each kind. -/
def MayProduce (i : Instr) : CmdError → Prop
  | .widthMismatch _ _ => i.src2.isSome = true
  | .invalidWidthArgument => ∃ rd rs1 imm, i = .trunc rd rs1 imm ∨ i = .zext rd rs1 imm ∨ i = .sext rd rs1 imm
  | .divisionByZero => i.isDivision = true
  | .invalidWordCount => ∃ rd imm, i = .fromwords rd imm
  | .invalidRadix => (∃ rd sgn radix imm, i = .parse rd sgn radix imm) ∨ ∃ rs1 sgn radix, i = .format rs1 sgn radix
  | .invalidDigitForRadix | .emptyString => ∃ rd sgn radix imm, i = .parse rd sgn radix imm
  | .valueOutOfRange => (∃ rs1 sgn pw, i = .toprim rs1 sgn pw) ∨ ∃ rd sgn radix imm, i = .parse rd sgn radix imm
  | .illegalCommand => ∃ imm, i = .rdsr imm ∧ 8 < imm.toNat
  | .emptyRegister => i.src1.isSome = true
  | .widthOutOfRange => i.widthImm.isSome = true
  | .exchangeIndex => (∃ v, i = .xpush v) ∨ ∃ imm, i = .xread imm

theorem FailedCheck.mayProduce (h : FailedCheck i s e) : MayProduce i e := by
  cases h with
  | width hi => exact Option.isSome_of_eq_some hi
  | empty _ hq => exact hq.elim Option.isSome_of_eq_some fun h => src1_isSome_of_src2 (Option.isSome_of_eq_some h)
  | mismatch _ h2 => exact Option.isSome_of_eq_some h2
  | zero hd => exact hd

end

/-! ### Every command behind its checks -/

/-- The codes of the checks of the operands. -/
def operandCodes : List (BitVec 4) := [1, 3, 10, 11]

/-- What a command may end with behind the checks of its operands: an error of its own, or a response with the fields
its rule defines (30_encoding.md R96). -/
def OwnEnd (i : Instr) : Except CmdError Effect → Prop
  | .error e => MayProduce i e ∧ e.code ∉ operandCodes
  | .ok f => (f.flag = true → i.givesFlag = true) ∧ (f.data ≠ 0#64 → i.givesData = true)

/-- The outcome `r` is the error of the checks, given last, or is one that `P` allows if they pass. -/
def Behind (r : Except CmdError Effect) (P : Except CmdError Effect → Prop) : Except CmdError Unit → Prop
  | .error e => r = .error e
  | .ok () => P r

theorem behind_bind {α : Type} {x : Except CmdError α} {g : α → Except CmdError Effect}
    {k : α → Except CmdError Unit} {P : Except CmdError Effect → Prop}
    (h : ∀ a, Behind (g a) P (k a)) : Behind (x >>= g) P (x >>= k) := by
  cases x with
  | error e => rfl
  | ok a => exact h a

theorem ownEnd_bind {i : Instr} {α : Type} {x : Except CmdError α} {g : α → Except CmdError Effect}
    (he : ∀ e, x = .error e → OwnEnd i (.error e)) (hg : ∀ a, OwnEnd i (g a)) : OwnEnd i (x >>= g) := by
  cases x with
  | error e => exact he e rfl
  | ok a => exact hg a

theorem ownEnd_error {i : Instr} {e : CmdError} (hp : MayProduce i e) (hk : e.code ∉ operandCodes) :
    OwnEnd i (.error e) := ⟨hp, hk⟩

theorem ownEnd_ite {i : Instr} {c : Prop} [Decidable c] {r r' : Except CmdError Effect} (h : c → OwnEnd i r)
    (h' : ¬c → OwnEnd i r') : OwnEnd i (if c then r else r') := by
  split
  · exact h ‹_›
  · exact h' ‹_›

/-- An effect with neither flag nor data. -/
theorem ownEnd_silent {i : Instr} {f : Effect} (hf : f.flag = false) (hd : f.data = 0#64) : OwnEnd i (.ok f) :=
  ⟨fun h => Bool.noConfusion (hf.symm.trans h), fun h => absurd hd h⟩

theorem ownEnd_flag {i : Instr} {f : Effect} (hi : i.givesFlag = true) (hd : f.data = 0#64) : OwnEnd i (.ok f) :=
  ⟨fun _ => hi, fun h => absurd hd h⟩

theorem ownEnd_data {i : Instr} {f : Effect} (hf : f.flag = false) (hi : i.givesData = true) : OwnEnd i (.ok f) :=
  ⟨fun h => Bool.noConfusion (hf.symm.trans h), fun _ => hi⟩

/-- Every command checks its operands first, in the one order, and ends behind the checks as its own rule says. -/
theorem exec_behind_operandCheck (i : Instr) (s : State) :
    ∃ r, exec i s = s.finish r ∧ Behind r (OwnEnd i) (operandCheck i s) := by
  cases i with
  | clrerr => exact ⟨.ok { clearLog := true }, rfl, ownEnd_silent rfl rfl⟩
  | xclr => exact ⟨.ok { xbuf := some (Memory.clear s.xbuf) }, rfl, ownEnd_silent rfl rfl⟩
  | drop rd => exact ⟨.ok { reg := some (rd, none) }, rfl, ownEnd_silent rfl rfl⟩
  | rdsr imm =>
    refine ⟨_, rfl, ?_⟩
    split
    · next h => exact ownEnd_error ⟨imm, rfl, statusReg_eq_none_iff.1 h⟩ (by decide)
    · exact ownEnd_data rfl rfl
  | xread imm =>
    refine ⟨_, rfl, ?_⟩
    split
    · exact ownEnd_data rfl rfl
    · exact ownEnd_error (.inr ⟨imm, rfl⟩) (by decide)
  | xpush v =>
    exact ⟨_, rfl, ownEnd_ite (fun _ => ownEnd_silent rfl rfl) fun _ => ownEnd_error (.inl ⟨v, rfl⟩) (by decide)⟩
  | fromwords rd imm =>
    exact ⟨_, rfl, behind_bind fun _ =>
      ownEnd_ite (fun _ => ownEnd_error ⟨rd, imm, rfl⟩ (by decide)) fun _ => ownEnd_silent rfl rfl⟩
  | trunc rd rs1 imm | zext rd rs1 imm | sext rd rs1 imm =>
    exact ⟨_, rfl, behind_bind fun _ => behind_bind fun _ =>
      ownEnd_ite (fun _ => ownEnd_error ⟨rd, rs1, imm, by simp⟩ (by decide)) fun _ => ownEnd_silent rfl rfl⟩
  | parse rd sgn radix imm =>
    refine ⟨_, rfl, behind_bind fun _ => ownEnd_bind (fun e he => ?_) fun _ => ownEnd_silent rfl rfl⟩
    have hparse : ∃ rd' sgn' radix' imm', Instr.parse rd sgn radix imm = .parse rd' sgn' radix' imm' :=
      ⟨_, _, _, _, rfl⟩
    rcases parseText_error he with rfl | rfl | rfl | rfl
    · exact ownEnd_error (.inl hparse) (by decide)
    · exact ownEnd_error hparse (by decide)
    · exact ownEnd_error hparse (by decide)
    · exact ownEnd_error (.inr hparse) (by decide)
  | toprim rs1 sgn pw =>
    refine ⟨_, rfl, behind_bind fun _ => ownEnd_bind (fun e he => ?_) fun _ => ownEnd_data rfl rfl⟩
    obtain rfl := primOf_error he
    exact ownEnd_error (.inl ⟨rs1, sgn, pw, rfl⟩) (by decide)
  | format rs1 sgn radix =>
    refine ⟨_, rfl, behind_bind fun _ => ownEnd_bind (fun e he => ?_) fun _ => ownEnd_data rfl rfl⟩
    obtain ⟨-, rfl⟩ := radixField_error.1 he
    exact ownEnd_error (.inr ⟨rs1, sgn, radix, rfl⟩) (by decide)
  | addco rd rs1 rs2 | subbo rd rs1 rs2 | umag rd rs1 | iszero rs1 | isones rs1 | sign rs1 =>
    exact ⟨_, rfl, behind_bind fun _ => ownEnd_flag rfl rfl⟩
  | towords rs1 | getw rs1 | ucmp rs1 rs2 | scmp rs1 rs2 =>
    exact ⟨_, rfl, behind_bind fun _ => ownEnd_data rfl rfl⟩
  | fromprim rd sgn pw imm v | copy rd rs1 | neg rd rs1 | not rd rs1 | shl rd rs1 imm | lshr rd rs1 imm
  | ashr rd rs1 imm | rol rd rs1 imm | ror rd rs1 imm | add rd rs1 rs2 | sub rd rs1 rs2 | mul rd rs1 rs2
  | and rd rs1 rs2 | or rd rs1 rs2 | xor rd rs1 rs2 | udiv rd rs1 rs2 | urem rd rs1 rs2 | sdiv rd rs1 rs2
  | srem rd rs1 rs2 =>
    exact ⟨_, rfl, behind_bind fun _ => ownEnd_silent rfl rfl⟩

/-- Everything a command can do: answer a failed check, or, with none failing, raise an error of its own or complete. -/
theorem exec_next_checked {i : Instr} {s t : State} (h : exec i s = .next t) :
    (∃ e, FailedCheck i s e ∧ t = s.raise e) ∨
    (∀ e, ¬FailedCheck i s e) ∧
      ((∃ e, OwnEnd i (.error e) ∧ t = s.raise e) ∨ ∃ f, OwnEnd i (.ok f) ∧ t = s.commit f) := by
  obtain ⟨r, hr, hb⟩ := exec_behind_operandCheck i s
  rw [hr] at h
  cases hc : operandCheck i s with
  | error e =>
    rw [hc] at hb
    subst hb
    cases h
    exact .inl ⟨e, operandCheck_error.1 hc, rfl⟩
  | ok =>
    rw [hc] at hb
    refine .inr ⟨fun e he => (by cases hc.symm.trans (operandCheck_error.2 he)), ?_⟩
    rcases finish_next h with ⟨e, rfl, rfl⟩ | ⟨f, rfl, rfl⟩
    · exact .inl ⟨e, hb, rfl⟩
    · exact .inr ⟨f, hb, rfl⟩

/-! ### The codes of the checks -/

section
variable {i : Instr} {s t : State} {e : CmdError} {x : Response}

/-- A failed check decides the command. -/
theorem eq_raise_of_failedCheck (ht : exec i s = .next t) (he : FailedCheck i s e) : t = s.raise e := by
  rcases exec_next_checked ht with ⟨e', he', rfl⟩ | ⟨hno, -⟩
  · rw [Except.error.inj ((operandCheck_error.2 he).symm.trans (operandCheck_error.2 he'))]
  · exact absurd he (hno e)

/-- The codes of the checks are answered for a failed check only: no command raises them behind its checks. -/
theorem err_eq_iff_failedCheck {k : BitVec 4} (hk : k ∈ operandCodes) (ht : exec i s = .next t)
    (hx : t.responses = s.responses ++ [x]) : x.err = k ↔ ∃ e, FailedCheck i s e ∧ e.code = k := by
  constructor
  · rintro rfl
    rcases exec_next_checked ht with ⟨e, he, rfl⟩ | ⟨-, ⟨e, he, rfl⟩ | ⟨f, -, rfl⟩⟩ <;>
      cases List.append_cancel_left hx
    · exact ⟨e, he, rfl⟩
    · exact absurd hk he.2
    · exact absurd hk (by decide : 0#4 ∉ operandCodes)
  · rintro ⟨e, he, rfl⟩
    obtain rfl := eq_raise_of_failedCheck ht he
    cases List.append_cancel_left hx
    rfl

theorem failedCheck_widthOutOfRange : (∃ e, FailedCheck i s e ∧ e.code = 11#4) ↔
    ∃ imm, i.widthImm = some imm ∧ (imm.toNat = 0 ∨ s.cfg.maxWidth < imm.toNat) := by
  constructor
  · rintro ⟨e, h, hk⟩
    cases h with
    | width hi h => exact ⟨_, hi, h⟩
    | _ => cases hk
  · rintro ⟨imm, hi, h⟩
    exact ⟨_, .width hi h, rfl⟩

theorem failedCheck_emptyRegister : (∃ e, FailedCheck i s e ∧ e.code = 10#4) ↔
    LegalWidthImm i s ∧ ∃ q, (i.src1 = some q ∨ i.src2 = some q) ∧ s.readX q = none := by
  constructor
  · rintro ⟨e, h, hk⟩
    cases h with
    | empty hw hq h => exact ⟨hw, _, hq, h⟩
    | _ => cases hk
  · rintro ⟨hw, q, hq, h⟩
    exact ⟨_, .empty hw hq h, rfl⟩

theorem failedCheck_widthMismatch : (∃ e, FailedCheck i s e ∧ e.code = 1#4) ↔
    ∃ r1 r2 a b, i.src1 = some r1 ∧ i.src2 = some r2 ∧ s.readX r1 = some a ∧ s.readX r2 = some b ∧ a.w ≠ b.w := by
  constructor
  · rintro ⟨e, h, hk⟩
    cases h with
    | mismatch h1 h2 ha hb hab => exact ⟨_, _, _, _, h1, h2, ha, hb, hab⟩
    | _ => cases hk
  · rintro ⟨r1, r2, a, b, h1, h2, ha, hb, hab⟩
    exact ⟨_, .mismatch h1 h2 ha hb hab, rfl⟩

theorem failedCheck_divisionByZero : (∃ e, FailedCheck i s e ∧ e.code = 3#4) ↔
    i.isDivision = true ∧ ∃ r1 r2 a b, i.src1 = some r1 ∧ i.src2 = some r2 ∧ s.readX r1 = some a ∧
      s.readX r2 = some b ∧ a.w = b.w ∧ b.u = 0 := by
  constructor
  · rintro ⟨e, h, hk⟩
    cases h with
    | zero hd h1 h2 ha hb hab h0 => exact ⟨hd, _, _, _, _, h1, h2, ha, hb, hab, h0⟩
    | _ => cases hk
  · rintro ⟨hd, r1, r2, a, b, h1, h2, ha, hb, hab, h0⟩
    exact ⟨_, .zero hd h1 h2 ha hb hab h0, rfl⟩

end

/-- Settles O17: each of the four codes is answered exactly for its failed check, whose error carries the BitWidths. -/
theorem checksComeInOrder : Obligations.ChecksComeInOrder := by
  intro i s t r hinv ht hr
  refine ⟨(err_eq_iff_failedCheck (by decide) ht hr).trans failedCheck_widthOutOfRange,
    (err_eq_iff_failedCheck (by decide) ht hr).trans failedCheck_emptyRegister,
    (err_eq_iff_failedCheck (by decide) ht hr).trans failedCheck_widthMismatch, fun r1 r2 a b h1 h2 ha hb hab => ?_,
    (err_eq_iff_failedCheck (by decide) ht hr).trans failedCheck_divisionByZero⟩
  obtain rfl := eq_raise_of_failedCheck ht (.mismatch h1 h2 ha hb hab)
  exact ⟨hinv.toNat_ofNat_width ha, hinv.toNat_ofNat_width hb⟩

/-! ### Every response -/

/-- The table of R371 by its codes. -/
theorem codes_of_mayProduce {i : Instr} {e : CmdError} (h : MayProduce i e) :
    (e.code = 1#4 → i.src2.isSome = true) ∧
    (e.code = 2#4 → ∃ rd rs1 imm, i = .trunc rd rs1 imm ∨ i = .zext rd rs1 imm ∨ i = .sext rd rs1 imm) ∧
    (e.code = 3#4 → i.isDivision = true) ∧
    (e.code = 4#4 → ∃ rd imm, i = .fromwords rd imm) ∧
    (e.code = 5#4 → (∃ rd sgn radix imm, i = .parse rd sgn radix imm) ∨ ∃ rs1 sgn radix, i = .format rs1 sgn radix) ∧
    (e.code = 6#4 ∨ e.code = 7#4 → ∃ rd sgn radix imm, i = .parse rd sgn radix imm) ∧
    (e.code = 8#4 → (∃ rs1 sgn pw, i = .toprim rs1 sgn pw) ∨ ∃ rd sgn radix imm, i = .parse rd sgn radix imm) ∧
    (e.code = 9#4 → ∃ imm, i = .rdsr imm ∧ 8 < imm.toNat) ∧
    (e.code = 10#4 → i.src1.isSome = true) ∧
    (e.code = 11#4 → i.widthImm.isSome = true) ∧
    (e.code = 12#4 → (∃ v, i = .xpush v) ∨ ∃ imm, i = .xread imm) := by
  cases e <;> simpa [CmdError.code, MayProduce] using h

/-- A command's response (30_encoding.md R96): an error that it may produce, with flag and data 0, or no error and the
fields its rule defines. -/
theorem exec_response {i : Instr} {s t : State} (h : exec i s = .next t) :
    (∃ e, MayProduce i e ∧ t.responses = s.responses ++ [⟨e.code, false, 0#64⟩]) ∨
    ∃ flag data, (flag = true → i.givesFlag = true) ∧ (data ≠ 0#64 → i.givesData = true) ∧
      t.responses = s.responses ++ [⟨0#4, flag, data⟩] := by
  rcases exec_next_checked h with ⟨e, he, rfl⟩ | ⟨-, ⟨e, ⟨he, -⟩, rfl⟩ | ⟨f, ⟨hf, hd⟩, rfl⟩⟩
  · exact .inl ⟨e, he.mayProduce, rfl⟩
  · exact .inl ⟨e, he, rfl⟩
  · exact .inr ⟨f.flag, f.data, hf, hd, rfl⟩

/-- Settles O7: a response reports an error its command may produce, or the fields of a completed command. -/
theorem responseFieldsAndErrorCodes : Obligations.ResponseFieldsAndErrorCodes := by
  refine ⟨fun _ _ => rfl, rfl, rfl, rfl, rfl, rfl, rfl, rfl, rfl, rfl, rfl, rfl, fun i s t h => ?_,
    fun s cw cdata rest hp hd => ?_⟩
  · rcases exec_response h with ⟨e, he, ht⟩ | ⟨flag, data, hf, hd, ht⟩
    · exact ⟨_, ht, code_le e, nofun, fun h0 => absurd rfl h0, fun _ => ⟨rfl, rfl⟩, codes_of_mayProduce he⟩
    · exact ⟨_, ht, Nat.zero_le _, hf, hd, fun h0 => absurd rfl h0, by simp⟩
  · cases hdec : decode cw cdata with
    | instr i => exact absurd hdec (hd i)
    | illegal e => exact ⟨_, step_illegal hp hdec, rfl⟩

end Sys2Proof.Machine

/-! SUPPORT. Decoding and encoding as each other's inverse (30_encoding.md), and the step that runs the decoded command
(20_memory.md R70). -/

namespace Sys2Proof.Machine

/-! ### Decoding and encoding -/

/-- Settles O19: the row of the instruction's opcode builds it again from the fields its command word holds. -/
theorem decodeEncodeRoundTrip : Obligations.DecodeEncodeRoundTrip := fun _ => decode_encode

/-- XPUSH and FROMPRIM carry the data word (30_encoding.md R95); the encoder's data word of any other command is 0. -/
theorem cdata_fields_of_opcodeRow {n : Nat} {f : Format} {build : Fields → Instr} (h : opcodeRow n = some (f, build))
    (F : Fields) : (build F).fields.cdata = if n = 0x04 ∨ n = 0x10 then F.cdata else 0#64 := by
  unfold opcodeRow at h
  split at h <;> cases h <;> rfl

theorem encode_snd_of_decode {cw cdata : Word64} {i : Instr} (h : decode cw cdata = .instr i) :
    (encode i).2 = if opcodeOf cw = 0x04#8 ∨ opcodeOf cw = 0x10#8 then cdata else 0#64 := by
  obtain ⟨f, build, hrow, -, rfl, -⟩ := decode_instr h
  exact (cdata_fields_of_opcodeRow hrow _).trans (if_congr
    (or_congr (BitVec.toNat_inj (y := 0x04#8)) (BitVec.toNat_inj (y := 0x10#8))) rfl rfl)

/-- Settles O20: the word's row gives the command word back, and the data word to the two commands that carry it. -/
theorem encodeDecodeRoundTrip : Obligations.EncodeDecodeRoundTrip := by
  intro cw cdata i h
  obtain ⟨-, -, -, -, -, hwf⟩ := decode_instr h
  exact ⟨hwf, encode_fst_of_decode h, encode_snd_of_decode h⟩

/-- Settles O24: the decoder evaluated on nine words. -/
theorem wordsWrittenOutDecode : Obligations.WordsWrittenOutDecode := by
  unfold Obligations.WordsWrittenOutDecode
  decide

/-! ### A step -/

/-- The command that `withFetchWord` presents is the one the next step runs. -/
theorem step_withFetchWord {s : State} {nbits w : Nat} {i : Instr} (h : decodeTableWord nbits w = some i) :
    step (s.withFetchWord nbits w) = exec i s := by
  unfold decodeTableWord at h
  cases hd : decode (tableWords nbits w).1 (tableWords nbits w).2 with
  | illegal e => rw [hd] at h; cases h
  | instr j => rw [hd] at h; cases h; exact step_instr rfl hd

/-- Settles O4, by the step's equation for no event and for a command. -/
theorem stepRunsTheDecodedInstruction : Obligations.StepRunsTheDecodedInstruction :=
  ⟨fun _ => step_idle, fun _ _ _ _ _ => step_instr, fun _ _ _ _ => step_withFetchWord⟩

end Sys2Proof.Machine

/-! SUPPORT. The reset state, and what a command's result does not depend on: the choice of its destination
(70_reset_and_hazards.md R420) and the Digit size (10_state.md R10, R27). -/

namespace Sys2Proof.Machine

/-! ### The reset state -/

theorem inv_resetWith {c : Cfg} (h : c.WF) : (State.resetWith c).Inv where
  cfg := h
  regs r a ha := by cases (readX_resetWith c r).symm.trans ha
  mem := memory_wf_reset c
  lasterr := Nat.zero_le _
  widths := .inl ⟨rfl, rfl⟩
  responses := nofun

/-- Settles O2: the reset state holds nothing that could break the invariant, and the default configuration is legal. -/
theorem resetMeetsTheInvariant : Obligations.ResetMeetsTheInvariant :=
  ⟨inv_resetWith (by decide), rfl, fun _ => inv_resetWith⟩

/-! ### The destination -/

/-- Two outcomes that are one error, or that write one value, the first to `rd` and the second to `q`, and answer one
response. -/
inductive SameButDest (rd q : RegNo) : Except CmdError Effect → Except CmdError Effect → Prop
  | error (e : CmdError) : SameButDest rd q (.error e) (.error e)
  | ok (v : Option ApInt) (flag : Bool) :
      SameButDest rd q (.ok { reg := some (rd, v), flag := flag }) (.ok { reg := some (q, v), flag := flag })

section
variable {rd q : RegNo}

/-- A check reads no destination: it stands before both outcomes. -/
theorem sameButDest_bind {α : Type} {x : Except CmdError α} {g g' : α → Except CmdError Effect}
    (h : ∀ a, SameButDest rd q (g a) (g' a)) : SameButDest rd q (x >>= g) (x >>= g') := by
  cases x with
  | error e => exact .error e
  | ok a => exact h a

theorem sameButDest_ite {c : Prop} [Decidable c] {x x' y y' : Except CmdError Effect} (h : SameButDest rd q x x')
    (h' : SameButDest rd q y y') : SameButDest rd q (if c then x else y) (if c then x' else y') := by
  split
  · exact h
  · exact h'

/-- A command reads its destination's number for its write only (70_reset_and_hazards.md R420). -/
theorem exec_sameButDest {i : Instr} (hd : i.dest = some rd) (q : RegNo) (s : State) :
    ∃ r r', exec i s = s.finish r ∧ exec (i.withDest q) s = s.finish r' ∧ SameButDest rd q r r' := by
  cases i <;> cases hd
  case drop => exact ⟨.ok { reg := some (rd, none) }, .ok { reg := some (q, none) }, rfl, rfl, .ok none false⟩
  case fromwords =>
    exact ⟨_, _, rfl, rfl, sameButDest_bind fun _ => sameButDest_ite (.error _) (.ok _ _)⟩
  case trunc | zext | sext =>
    exact ⟨_, _, rfl, rfl, sameButDest_bind fun _ => sameButDest_bind fun _ => sameButDest_ite (.error _) (.ok _ _)⟩
  case parse =>
    exact ⟨_, _, rfl, rfl, sameButDest_bind fun _ => sameButDest_bind fun _ => .ok _ _⟩
  all_goals exact ⟨_, _, rfl, rfl, sameButDest_bind fun _ => .ok _ _⟩

end

/-- Settles O15: the two forms end in one error, or in one value and one response. -/
theorem aliasingIsSafe : Obligations.AliasingIsSafe := by
  intro i s t t' rd q hd ht ht'
  obtain ⟨r, r', hr, hr', h⟩ := exec_sameButDest hd q s
  rw [hr] at ht
  rw [hr'] at ht'
  cases h with
  | error e =>
    cases ht
    cases ht'
    exact ⟨_, rfl, rfl, fun h0 => absurd h0 (code_ne_zero e), fun _ => rfl⟩
  | ok v flag =>
    cases ht
    cases ht'
    exact ⟨_, rfl, rfl, fun _ => by simp [readX_commit], fun h0 => absurd rfl h0⟩

/-! ### The Digit size -/

section
variable (s : State) (d : DigitBits)

/-- The same state with another Digit size. -/
def State.withDigits : State := { s with cfg := { s.cfg with digitBits := d } }

/-- A command other than the word views and RDSR has the same outcome at every Digit size (91_not_in_source.md N29). -/
theorem exec_finish_withDigits {i : Instr} (h : i.seesDigits = false) :
    ∃ r, exec i s = s.finish r ∧ exec i (s.withDigits d) = (s.withDigits d).finish r := by
  cases i
  case rdsr | xpush | fromwords | towords => cases h
  case clrerr => exact ⟨.ok { clearLog := true }, rfl, rfl⟩
  case xclr => exact ⟨.ok { xbuf := some [] }, rfl, rfl⟩
  case drop rd => exact ⟨.ok { reg := some (rd, none) }, rfl, rfl⟩
  all_goals exact ⟨_, rfl, rfl⟩

/-- One outcome at two Digit sizes leaves states that differ in the Digit size only. -/
theorem finish_withDigits (r : Except CmdError Effect) :
    ∃ t, s.finish r = .next t ∧ (s.withDigits d).finish r = .next (t.withDigits d) := by
  cases r with
  | error e => exact ⟨_, finish_error s e, finish_error (s.withDigits d) e⟩
  | ok f => exact ⟨_, finish_ok s f, finish_ok (s.withDigits d) f⟩

end

/-- Settles O16: the command has one outcome at both states, and an outcome does not write the configuration. -/
theorem digitSizeIsInvisible : Obligations.DigitSizeIsInvisible := by
  intro i s s' hagree hi
  have hs' : s' = s.withDigits s'.cfg.digitBits := hagree
  obtain ⟨r, hr, hr'⟩ := exec_finish_withDigits s s'.cfg.digitBits hi
  obtain ⟨t, ht, ht'⟩ := finish_withDigits s s'.cfg.digitBits r
  rw [← hs'] at hr' ht'
  exact ⟨t, t.withDigits s'.cfg.digitBits, hr.trans ht, hr'.trans ht', rfl, rfl⟩

end Sys2Proof.Machine
